-- ==== Sys2Proof/Word.lean ====
section
/-! DEFINITION. The words of the machine: the widths that the spec gives registers, fields and memory bytes
(00_scope R4 `XLEN`, 10_state R10, R27). -/

namespace Sys2Proof

/-- A register value, an address, an instruction: 32 bits (00_scope R4, `XLEN` and `ILEN`). -/
abbrev Word := BitVec 32

/-- Two bytes (00_scope section 5.1). -/
abbrev Half := BitVec 16

/-- One byte of memory (10_state R27). -/
abbrev Byte := BitVec 8

/-- A 5-bit register specifier; it names a general register, a coprocessor-0 register or an accelerator register
(10_state R10, R17, R26). -/
abbrev Reg := BitVec 5

end Sys2Proof
end

