-- ==== Sys2Proof/Config.lean ====
section
/-! DEFINITION. What an implementation or a launch fixes: the parameters of 00_scope R4, and the free values,
which are constants without a body (nothing can be proved of them). -/

namespace Sys2Proof

/-- The three nested versions of the ISA (00_scope R1). -/
inductive Version where
  | parcV1
  | parcV2
  | parcV3
  deriving DecidableEq, Repr, Inhabited

/-- The two candidates for what `syscall` saves (00_scope R4 `SYSCALL_EPC`, D7). -/
inductive SyscallEpc where
  /-- the address of the `syscall` itself -/
  | pc
  /-- the address of the next instruction -/
  | pcPlus4
  deriving DecidableEq, Repr, Inhabited

/-- The rounding directions that `FP_CVT_W_S_ROUND` and `FP_CVT_S_W_ROUND` range over (00_scope R4, D9). -/
inductive Rounding where
  | nearestEven
  | nearestAway
  | towardZero
  | towardPositive
  | towardNegative
  deriving DecidableEq, Repr, Inhabited

/-- The four instructions whose corner results are `DIV_CORNER` (D8). -/
inductive DivOp where
  | div
  | divu
  | rem
  | remu
  deriving DecidableEq, Repr, Inhabited

/-- A range of physical addresses that the launch populates with memory (20_memory R45). -/
structure Region where
  base : Nat
  size : Nat
  deriving DecidableEq, Repr

/-- The state of one accelerator (10_state R26 and section 9): its registers `XCEL_R[0..31]`, whatever else it
holds, and which of its registers a read or a write must wait for (bit `i` for register `i`). -/
structure XcelState where
  regs       : Vector Word 32
  inner      : List Word
  readWaits  : BitVec 32
  writeWaits : BitVec 32
  deriving DecidableEq, Repr, Inhabited

/-- The parameters of a run (00_scope R4) that are plain data. State holds one, no step changes it, and a statement
about every state is a statement about every launch. -/
structure Params where
  /-- `VERSION` (D1). -/
  version : Version
  /-- `PA_BITS` less one, so that `PA_BITS` is 1 to 32 (D2). -/
  paBitsPred : Fin 32
  /-- `NUMCORES`, as `numcores` reads it (D3); at least 1, by `Params.coresInRange`. -/
  numCores : Word
  /-- `COREID` of this core, as `coreid` reads it (D3); below `NUMCORES`, by `Params.coresInRange`. -/
  coreId : Word
  /-- Bits 31:2 of `EXC_VECTOR`, which is a multiple of 4 (D6); `none` when the launch gives no vector (D34). -/
  excVector : Option (BitVec 30)
  /-- `SYSCALL_EPC` (D7); `none` when the launch gives none (D34). -/
  syscallEpc : Option SyscallEpc
  /-- `FP_CVT_W_S_ROUND` (D9). -/
  cvtWSRound : Rounding
  /-- `FP_CVT_S_W_ROUND` (D9). -/
  cvtSWRound : Rounding
  /-- `FP_FLUSH_SUBNORMALS` (D27). -/
  flushSubnormals : Bool
  /-- `ADMIT_GK_ENCODINGS` for the rows that have a MIPS32 namesake, but for `nop`'s (D14; log 42). -/
  admitGkMips : Bool
  /-- `ADMIT_GK_ENCODINGS` for `amo.add`, `amo.and`, `amo.or` (D14). -/
  admitGkAmo : Bool
  /-- The physical addresses where the launch has placed memory (20_memory R45). -/
  populated : List Region
  deriving DecidableEq, Repr

/-- The launches that the spec has: `NUMCORES` is at least 1, and `COREID` is one of 0 .. `NUMCORES` - 1 (00_scope R4, 10_state
R22, 60_exceptions R277, D3; log 31). No step changes a parameter, so a run keeps it. -/
abbrev Params.coresInRange (p : Params) : Prop := 1 ≤ p.numCores.toNat ∧ p.coreId.toNat < p.numCores.toNat

/-- `DIV_CORNER`: the result of a division or remainder that the source leaves open, a function of the instruction and
its two operand words (42_muldiv R131 to R134, D8). Free: no body (log 18). -/
opaque Config.divCorner : DivOp → Word → Word → Word

/-- `EXC_VECTOR` of the launch at reset, its bits 31:2. Free: no body (60_exceptions R263, D6; log 14). -/
opaque Config.excVector : BitVec 30

/-- `SYSCALL_EPC` of the launch at reset. Free: no body (60_exceptions R263, D7; log 15). -/
opaque Config.syscallEpc : SyscallEpc

/-- `FP_CVT_W_S_ROUND` of the launch at reset. Free: no body (49_float_accel R240, D9; log 20). -/
opaque Config.cvtWSRound : Rounding

/-- `FP_CVT_S_W_ROUND` of the launch at reset. Free: no body (49_float_accel R241, D9; log 20). -/
opaque Config.cvtSWRound : Rounding

/-- `XcelWrite(a, i, v)`: the state of accelerator `a` after the core has written `v` to its register `i`. Free: no body,
so nothing is assumed of what reads back (49_float_accel R249, D5; log 30). -/
opaque Config.xcelWrite : Word → XcelState → Reg → Word → XcelState

/-- `XcelRead(a, i)`, the word that accelerator `a` returns for its register `i`. Free: no body (49_float_accel R249, D5;
log 30). -/
opaque Config.xcelReadValue : Word → XcelState → Reg → Word

/-- `XcelRead(a, i)`, the state of accelerator `a` after the read of its register `i`. Free: no body (49_float_accel R249,
D5; log 30). -/
opaque Config.xcelReadEffect : Word → XcelState → Reg → XcelState

/-- The parameters at reset: the defaults of 00_scope R4; where R4 gives none, the free values above. `ADMIT_GK_ENCODINGS`
is on for every row (log 8); the whole physical address space is populated (log 5). -/
def Config.launch : Params where
  version := .parcV3
  paBitsPred := 31
  numCores := 1#32
  coreId := 0#32
  excVector := some Config.excVector
  syscallEpc := some Config.syscallEpc
  cvtWSRound := Config.cvtWSRound
  cvtSWRound := Config.cvtSWRound
  flushSubnormals := false
  admitGkMips := true
  admitGkAmo := true
  populated := [{ base := 0, size := 4294967296 }]

end Sys2Proof
end

