-- ==== Sys2Proof/Syntax.lean ====
section
/-! DEFINITION. The instructions: one constructor for each row of spec/opcode_table.json (30_encoding R84, R96). Operand
fields keep the names of the encoding (30_encoding R71 to R76, R81). -/

namespace Sys2Proof

/-- The PARC instructions. A `Reg` is a general register number, but `rd` of `mfc0`/`mtc0` (a coprocessor-0 register
number, R77) and `rs` of the accelerator moves (an accelerator register number, R76). -/
inductive Instr where
  -- coprocessor-0 moves (R100, R101)
  | mfc0 (rt rd : Reg)
  | mtc0 (rt rd : Reg)
  -- register-register arithmetic (R111 to R121)
  | addu (rs rt rd : Reg)
  | subu (rs rt rd : Reg)
  | and (rs rt rd : Reg)
  | or (rs rt rd : Reg)
  | xor (rs rt rd : Reg)
  | nor (rs rt rd : Reg)
  | slt (rs rt rd : Reg)
  | sltu (rs rt rd : Reg)
  | srav (rs rt rd : Reg)
  | srlv (rs rt rd : Reg)
  | sllv (rs rt rd : Reg)
  -- multiply, divide, remainder (R130 to R134)
  | mul (rs rt rd : Reg)
  | div (rs rt rd : Reg)
  | divu (rs rt rd : Reg)
  | rem (rs rt rd : Reg)
  | remu (rs rt rd : Reg)
  -- register-immediate arithmetic (R140 to R151)
  | addiu (rs rt : Reg) (imm : BitVec 16)
  | lui (rt : Reg) (imm : BitVec 16)
  | ori (rs rt : Reg) (imm : BitVec 16)
  | andi (rs rt : Reg) (imm : BitVec 16)
  | xori (rs rt : Reg) (imm : BitVec 16)
  | slti (rs rt : Reg) (imm : BitVec 16)
  | sltiu (rs rt : Reg) (imm : BitVec 16)
  | sra (rt rd : Reg) (sa : BitVec 5)
  | srl (rt rd : Reg) (sa : BitVec 5)
  | sll (rt rd : Reg) (sa : BitVec 5)
  -- loads and stores (R161 to R168)
  | lw (rs rt : Reg) (imm : BitVec 16)
  | lh (rs rt : Reg) (imm : BitVec 16)
  | lhu (rs rt : Reg) (imm : BitVec 16)
  | lb (rs rt : Reg) (imm : BitVec 16)
  | lbu (rs rt : Reg) (imm : BitVec 16)
  | sw (rs rt : Reg) (imm : BitVec 16)
  | sh (rs rt : Reg) (imm : BitVec 16)
  | sb (rs rt : Reg) (imm : BitVec 16)
  -- jumps (R180 to R184)
  | j (target : BitVec 26)
  | jr (rs : Reg)
  | jalr (rs rd : Reg)
  | jal (target : BitVec 26)
  -- branches (R191 to R196)
  | beq (rs rt : Reg) (imm : BitVec 16)
  | bne (rs rt : Reg) (imm : BitVec 16)
  | bgtz (rs : Reg) (imm : BitVec 16)
  | bltz (rs : Reg) (imm : BitVec 16)
  | bgez (rs : Reg) (imm : BitVec 16)
  | blez (rs : Reg) (imm : BitVec 16)
  -- conditional moves, atomics, fence (R200 to R206)
  | movn (rs rt rd : Reg)
  | movz (rs rt rd : Reg)
  | amoAdd (rs rt rd : Reg)
  | amoAnd (rs rt rd : Reg)
  | amoOr (rs rt rd : Reg)
  | sync
  -- exception instructions (R215, R217)
  | syscall
  | eret
  -- floating-point compares and conversions (R231 to R242)
  | cFS (ft fs fd : Reg)
  | cUnS (ft fs fd : Reg)
  | cEqS (ft fs fd : Reg)
  | cNglS (ft fs fd : Reg)
  | cLtS (ft fs fd : Reg)
  | cNgeS (ft fs fd : Reg)
  | cLeS (ft fs fd : Reg)
  | cNgtS (ft fs fd : Reg)
  | cvtWS (fs fd : Reg)
  | cvtSW (fs fd : Reg)
  | truncWS (fs fd : Reg)
  -- accelerator moves (R250 to R253)
  | mtx (rs rt : Reg) (accelId : BitVec 11)
  | mfx (rs rt : Reg) (accelId : BitVec 11)
  | mtxr (rs rt rAccel : Reg)
  | mfxr (rs rt rAccel : Reg)
  -- the all-zero word, named apart because PARCv1 has it and has no `sll` (R96, R151)
  | nop
  deriving DecidableEq, Repr

end Sys2Proof
end

