-- ==== Sys2Proof/WellFormed.lean ====
section
/-! DEFINITION. Which instructions have a word of their own. Operand widths are in the types of Syntax.lean, so one check
is left: the word with every field of `sll` zero is the word of `nop` (30_encoding R96, log 12). -/

namespace Sys2Proof

/-- An instruction is well formed when it is the instruction that its own word decodes to: every term but
`sll r0, r0, 0`, whose word is the row of `nop` (30_encoding R84, R96). -/
def Instr.wellFormed : Instr → Bool
  | .sll rt rd sa => !(rt == 0#5 && rd == 0#5 && sa == 0#5)
  | .mfc0 _ _ | .mtc0 _ _ | .addu _ _ _ | .subu _ _ _ | .and _ _ _ | .or _ _ _ | .xor _ _ _ | .nor _ _ _
  | .slt _ _ _ | .sltu _ _ _ | .srav _ _ _ | .srlv _ _ _ | .sllv _ _ _ | .mul _ _ _ | .div _ _ _ | .divu _ _ _
  | .rem _ _ _ | .remu _ _ _ | .addiu _ _ _ | .lui _ _ | .ori _ _ _ | .andi _ _ _ | .xori _ _ _ | .slti _ _ _
  | .sltiu _ _ _ | .sra _ _ _ | .srl _ _ _ | .lw _ _ _ | .lh _ _ _ | .lhu _ _ _ | .lb _ _ _ | .lbu _ _ _
  | .sw _ _ _ | .sh _ _ _ | .sb _ _ _ | .j _ | .jr _ | .jalr _ _ | .jal _ | .beq _ _ _ | .bne _ _ _ | .bgtz _ _
  | .bltz _ _ | .bgez _ _ | .blez _ _ | .movn _ _ _ | .movz _ _ _ | .amoAdd _ _ _ | .amoAnd _ _ _
  | .amoOr _ _ _ | .sync | .syscall | .eret | .cFS _ _ _ | .cUnS _ _ _ | .cEqS _ _ _ | .cNglS _ _ _
  | .cLtS _ _ _ | .cNgeS _ _ _ | .cLeS _ _ _ | .cNgtS _ _ _ | .cvtWS _ _ | .cvtSW _ _ | .truncWS _ _
  | .mtx _ _ _ | .mfx _ _ _ | .mtxr _ _ _ | .mfxr _ _ _ | .nop => true

end Sys2Proof
end

