-- ==== Sys2Proof/Decode.lean ====
section
/-! DEFINITION. From bytes to instructions and back: byte order (20_memory R40, R41), the fields of the six formats
(30_encoding R71 to R77), the opcode map (R83, R84) with every fixed bit checked (R91), what a launch admits (R90, R93,
`ADMIT_GK_ENCODINGS`), and the encoder. -/

namespace Sys2Proof

/-! ### Byte order -/

/-- The word whose bytes, lowest address first, are `b0 b1 b2 b3` (20_memory R40). -/
def wordOfBytes (b0 b1 b2 b3 : Byte) : Word := b3 ++ b2 ++ b1 ++ b0

/-- The halfword whose bytes, lowest address first, are `b0 b1` (20_memory R40). -/
def halfOfBytes (b0 b1 : Byte) : Half := b1 ++ b0

/-- Byte `k` of a word: the one that address `a + k` holds when `a` holds the word (20_memory R40). -/
def byteOfWord (w : Word) (k : Nat) : Byte := w.extractLsb' (8 * k) 8

/-! ### Fields -/

/-- Bits 31:26 (30_encoding R70). -/
def fieldOp (w : Word) : BitVec 6 := w.extractLsb' 26 6

/-- Bits 25:21: `rs`; `fmt` in FR-Type; the sub-opcode under `op` 010000 (30_encoding R71, R74, R77). -/
def fieldRs (w : Word) : Reg := w.extractLsb' 21 5

/-- Bits 20:16: `rt`; `ft` in FR-Type and FCMP-Type (30_encoding R71, R74, R75). -/
def fieldRt (w : Word) : Reg := w.extractLsb' 16 5

/-- Bits 15:11: `rd`; `fs` in FR-Type and FCMP-Type; the sub-opcode of COP2-Type (30_encoding R71, R74, R76). -/
def fieldRd (w : Word) : Reg := w.extractLsb' 11 5

/-- Bits 10:6: `sa`; `fd` in FR-Type and FCMP-Type; `r_accel` of `mtxr` and `mfxr` (30_encoding R71, R74, R76). -/
def fieldSa (w : Word) : Reg := w.extractLsb' 6 5

/-- Bits 5:0: `cmd`; bits 5:4 with `cmp` in FCMP-Type (30_encoding R71, R75). -/
def fieldCmd (w : Word) : BitVec 6 := w.extractLsb' 0 6

/-- Bits 15:0: the immediate of I-Type (30_encoding R72). -/
def fieldImm (w : Word) : BitVec 16 := w.extractLsb' 0 16

/-- Bits 25:0: the target of J-Type (30_encoding R73). -/
def fieldTarget (w : Word) : BitVec 26 := w.extractLsb' 0 26

/-- Bits 10:0: the accelerator id of `mtx` and `mfx` (30_encoding R76, R82). -/
def fieldAccelId (w : Word) : BitVec 11 := w.extractLsb' 0 11

/-! ### Decoding -/

/-- Why a word is no instruction of the launch (30_encoding R90, R91, R93). -/
inductive Undefined where
  /-- there are fewer than four bytes -/
  | truncated
  /-- no instruction has this `op` (R83) -/
  | noSuchOp
  /-- no instruction has this second field under its `op` (R83) -/
  | noSuchSubOp
  /-- a field that the pattern fixes holds another value (R91) -/
  | fixedBits
  /-- the instruction belongs to a later version (R93) -/
  | laterVersion
  /-- the row rests on general knowledge and the launch does not admit it (R84, D14) -/
  | notAdmitted
  deriving DecidableEq, Repr

/-- `i` where the fixed fields of its pattern hold their values (30_encoding R91). -/
def ifFixed (fixedHold : Bool) (i : Instr) : Except Undefined Instr :=
  if fixedHold then .ok i else .error .fixedBits

/-- `op` = 000000, by `cmd` (30_encoding R83, R84). -/
def decodeSpecial (w : Word) : Except Undefined Instr :=
  let rs := fieldRs w
  let rt := fieldRt w
  let rd := fieldRd w
  let sa := fieldSa w
  match fieldCmd w with
  | 0b000000#6 => ifFixed (rs == 0#5) (if rt = 0#5 ∧ rd = 0#5 ∧ sa = 0#5 then .nop else .sll rt rd sa)
  | 0b000010#6 => ifFixed (rs == 0#5) (.srl rt rd sa)
  | 0b000011#6 => ifFixed (rs == 0#5) (.sra rt rd sa)
  | 0b000100#6 => ifFixed (sa == 0#5) (.sllv rs rt rd)
  | 0b000110#6 => ifFixed (sa == 0#5) (.srlv rs rt rd)
  | 0b000111#6 => ifFixed (sa == 0#5) (.srav rs rt rd)
  | 0b001000#6 => ifFixed (rt == 0#5 && rd == 0#5 && sa == 0#5) (.jr rs)
  | 0b001001#6 => ifFixed (rt == 0#5 && sa == 0#5) (.jalr rs rd)
  | 0b001010#6 => ifFixed (sa == 0#5) (.movz rs rt rd)
  | 0b001011#6 => ifFixed (sa == 0#5) (.movn rs rt rd)
  | 0b001100#6 => ifFixed (rs == 0#5 && rt == 0#5 && rd == 0#5 && sa == 0#5) .syscall
  | 0b001111#6 => ifFixed (rs == 0#5 && rt == 0#5 && rd == 0#5 && sa == 0#5) .sync
  | 0b100001#6 => ifFixed (sa == 0#5) (.addu rs rt rd)
  | 0b100011#6 => ifFixed (sa == 0#5) (.subu rs rt rd)
  | 0b100100#6 => ifFixed (sa == 0#5) (.and rs rt rd)
  | 0b100101#6 => ifFixed (sa == 0#5) (.or rs rt rd)
  | 0b100110#6 => ifFixed (sa == 0#5) (.xor rs rt rd)
  | 0b100111#6 => ifFixed (sa == 0#5) (.nor rs rt rd)
  | 0b101010#6 => ifFixed (sa == 0#5) (.slt rs rt rd)
  | 0b101011#6 => ifFixed (sa == 0#5) (.sltu rs rt rd)
  | _ => .error .noSuchSubOp

/-- `op` = 000001, by `rt` (30_encoding R83). -/
def decodeRegimm (w : Word) : Except Undefined Instr :=
  match fieldRt w with
  | 0b00000#5 => .ok (.bltz (fieldRs w) (fieldImm w))
  | 0b00001#5 => .ok (.bgez (fieldRs w) (fieldImm w))
  | _ => .error .noSuchSubOp

/-- `op` = 010000, by bits 25:21 (30_encoding R77, R83, 40_cop0_moves R102). -/
def decodeCop0 (w : Word) : Except Undefined Instr :=
  match fieldRs w with
  | 0b00000#5 => ifFixed (fieldSa w == 0#5 && fieldCmd w == 0#6) (.mfc0 (fieldRt w) (fieldRd w))
  | 0b00100#5 => ifFixed (fieldSa w == 0#5 && fieldCmd w == 0#6) (.mtc0 (fieldRt w) (fieldRd w))
  | 0b10000#5 =>
    ifFixed (fieldRt w == 0#5 && fieldRd w == 0#5 && fieldSa w == 0#5 && fieldCmd w == 0b011000#6) .eret
  | _ => .error .noSuchSubOp

/-- `op` = 010001 with bits 25:21 = 10000: the compares, by bits 5:0 (30_encoding R75, R83, R92). -/
def decodeCompare (w : Word) : Except Undefined Instr :=
  let ft := fieldRt w
  let fs := fieldRd w
  let fd := fieldSa w
  match fieldCmd w with
  | 0b110000#6 => .ok (.cFS ft fs fd)
  | 0b110001#6 => .ok (.cUnS ft fs fd)
  | 0b110010#6 => .ok (.cEqS ft fs fd)
  | 0b111011#6 => .ok (.cNglS ft fs fd)
  | 0b111100#6 => .ok (.cLtS ft fs fd)
  | 0b111101#6 => .ok (.cNgeS ft fs fd)
  | 0b111110#6 => .ok (.cLeS ft fs fd)
  | 0b111111#6 => .ok (.cNgtS ft fs fd)
  | _ => .error .noSuchSubOp

/-- `op` = 010001 with bits 25:21 = 00000: the conversions, by `cmd` (30_encoding R74, R83). -/
def decodeConvert (w : Word) : Except Undefined Instr :=
  let fs := fieldRd w
  let fd := fieldSa w
  match fieldCmd w with
  | 0b100100#6 => ifFixed (fieldRt w == 0#5) (.cvtWS fs fd)
  | 0b100000#6 => ifFixed (fieldRt w == 0#5) (.cvtSW fs fd)
  | 0b001101#6 => ifFixed (fieldRt w == 0#5) (.truncWS fs fd)
  | _ => .error .noSuchSubOp

/-- `op` = 010001, by bits 25:21 (30_encoding R83). -/
def decodeCop1 (w : Word) : Except Undefined Instr :=
  match fieldRs w with
  | 0b00000#5 => decodeConvert w
  | 0b10000#5 => decodeCompare w
  | _ => .error .noSuchSubOp

/-- `op` = 010010, by bits 15:11 (30_encoding R76, 49_float_accel R254). -/
def decodeCop2 (w : Word) : Except Undefined Instr :=
  match fieldRd w with
  | 0b00000#5 => .ok (.mtx (fieldRs w) (fieldRt w) (fieldAccelId w))
  | 0b00001#5 => .ok (.mfx (fieldRs w) (fieldRt w) (fieldAccelId w))
  | 0b00010#5 => ifFixed (fieldCmd w == 0#6) (.mtxr (fieldRs w) (fieldRt w) (fieldSa w))
  | 0b00011#5 => ifFixed (fieldCmd w == 0#6) (.mfxr (fieldRs w) (fieldRt w) (fieldSa w))
  | _ => .error .noSuchSubOp

/-- `op` = 011100, by `cmd` (30_encoding R83). -/
def decodeSpecial2 (w : Word) : Except Undefined Instr :=
  match fieldCmd w with
  | 0b000010#6 => ifFixed (fieldSa w == 0#5) (.mul (fieldRs w) (fieldRt w) (fieldRd w))
  | _ => .error .noSuchSubOp

/-- `op` = 100111, by `cmd` (30_encoding R83). -/
def decodeParc (w : Word) : Except Undefined Instr :=
  let rs := fieldRs w
  let rt := fieldRt w
  let rd := fieldRd w
  let sa := fieldSa w
  match fieldCmd w with
  | 0b000010#6 => ifFixed (sa == 0#5) (.amoAdd rs rt rd)
  | 0b000011#6 => ifFixed (sa == 0#5) (.amoAnd rs rt rd)
  | 0b000100#6 => ifFixed (sa == 0#5) (.amoOr rs rt rd)
  | 0b000101#6 => ifFixed (sa == 0#5) (.div rs rt rd)
  | 0b000110#6 => ifFixed (sa == 0#5) (.rem rs rt rd)
  | 0b000111#6 => ifFixed (sa == 0#5) (.divu rs rt rd)
  | 0b001000#6 => ifFixed (sa == 0#5) (.remu rs rt rd)
  | _ => .error .noSuchSubOp

/-- The instruction of a word, by `op` first (30_encoding R83): total, rejecting by name. -/
def decode (w : Word) : Except Undefined Instr :=
  let rs := fieldRs w
  let rt := fieldRt w
  let imm := fieldImm w
  match fieldOp w with
  | 0b000000#6 => decodeSpecial w
  | 0b000001#6 => decodeRegimm w
  | 0b000010#6 => .ok (.j (fieldTarget w))
  | 0b000011#6 => .ok (.jal (fieldTarget w))
  | 0b000100#6 => .ok (.beq rs rt imm)
  | 0b000101#6 => .ok (.bne rs rt imm)
  | 0b000110#6 => ifFixed (rt == 0#5) (.blez rs imm)
  | 0b000111#6 => ifFixed (rt == 0#5) (.bgtz rs imm)
  | 0b001001#6 => .ok (.addiu rs rt imm)
  | 0b001010#6 => .ok (.slti rs rt imm)
  | 0b001011#6 => .ok (.sltiu rs rt imm)
  | 0b001100#6 => .ok (.andi rs rt imm)
  | 0b001101#6 => .ok (.ori rs rt imm)
  | 0b001110#6 => .ok (.xori rs rt imm)
  | 0b001111#6 => ifFixed (rs == 0#5) (.lui rt imm)
  | 0b010000#6 => decodeCop0 w
  | 0b010001#6 => decodeCop1 w
  | 0b010010#6 => decodeCop2 w
  | 0b011100#6 => decodeSpecial2 w
  | 0b100000#6 => .ok (.lb rs rt imm)
  | 0b100001#6 => .ok (.lh rs rt imm)
  | 0b100011#6 => .ok (.lw rs rt imm)
  | 0b100100#6 => .ok (.lbu rs rt imm)
  | 0b100101#6 => .ok (.lhu rs rt imm)
  | 0b100111#6 => decodeParc w
  | 0b101000#6 => .ok (.sb rs rt imm)
  | 0b101001#6 => .ok (.sh rs rt imm)
  | 0b101011#6 => .ok (.sw rs rt imm)
  | _ => .error .noSuchOp

/-- The instruction at the front of a list of bytes, lowest address first, and the bytes after it (30_encoding R70,
20_memory R41). -/
def decodeBytes : List Byte → Except Undefined (Instr × List Byte)
  | b0 :: b1 :: b2 :: b3 :: rest =>
    match decode (wordOfBytes b0 b1 b2 b3) with
    | .ok i => .ok (i, rest)
    | .error e => .error e
  | _ => .error .truncated

/-- The instruction that the decoder reads from the table word `w` of `nbits` bits, laid out in memory order. -/
def decodeTableWord (nbits w : Nat) : Option Instr :=
  let v : Word := BitVec.ofNat 32 (w % 2 ^ nbits)
  match decodeBytes [byteOfWord v 0, byteOfWord v 1, byteOfWord v 2, byteOfWord v 3] with
  | .ok (i, _) => some i
  | .error _ => none

/-! ### What a launch admits -/

/-- The version an instruction first appears in (00_scope R1, 30_encoding R84). -/
def Instr.version : Instr → Version
  | .mfc0 _ _ | .mtc0 _ _ | .addu _ _ _ | .mul _ _ _ | .addiu _ _ _ | .lw _ _ _ | .sw _ _ _ | .j _ | .jr _
  | .jal _ | .bne _ _ _ | .nop => .parcV1
  | .subu _ _ _ | .and _ _ _ | .or _ _ _ | .xor _ _ _ | .nor _ _ _ | .slt _ _ _ | .sltu _ _ _ | .srav _ _ _
  | .srlv _ _ _ | .sllv _ _ _ | .lui _ _ | .ori _ _ _ | .andi _ _ _ | .xori _ _ _ | .slti _ _ _ | .sltiu _ _ _
  | .sra _ _ _ | .srl _ _ _ | .sll _ _ _ | .beq _ _ _ | .bgtz _ _ | .bltz _ _ | .bgez _ _ | .blez _ _ => .parcV2
  | .div _ _ _ | .divu _ _ _ | .rem _ _ _ | .remu _ _ _ | .lh _ _ _ | .lhu _ _ _ | .lb _ _ _ | .lbu _ _ _
  | .sh _ _ _ | .sb _ _ _ | .jalr _ _ | .movn _ _ _ | .movz _ _ _ | .amoAdd _ _ _ | .amoAnd _ _ _ | .amoOr _ _ _
  | .sync | .syscall | .eret | .cFS _ _ _ | .cUnS _ _ _ | .cEqS _ _ _ | .cNglS _ _ _ | .cLtS _ _ _ | .cNgeS _ _ _
  | .cLeS _ _ _ | .cNgtS _ _ _ | .cvtWS _ _ | .cvtSW _ _ | .truncWS _ _ | .mtx _ _ _ | .mfx _ _ _ | .mtxr _ _ _
  | .mfxr _ _ _ => .parcV3

/-- `a` is the version `b` or an earlier one (00_scope R1). -/
def Version.le : Version → Version → Bool
  | .parcV1, _ => true
  | .parcV2, .parcV1 => false
  | .parcV2, _ => true
  | .parcV3, .parcV3 => true
  | .parcV3, _ => false

/-- The eleven rows of MIPS32 namesakes that rest on general knowledge (30_encoding R84, R85, D14). DESIGN CHOICE: `nop` is not
one of them, so its word runs whatever `ADMIT_GK_ENCODINGS` is, also in PARCv1. D14 lists `nop` in the group, while R84, D1
and R151 give no such condition (log 42). -/
def Instr.gkMips : Instr → Bool
  | .slt _ _ _ | .sltu _ _ _ | .slti _ _ _ | .sltiu _ _ _ | .bltz _ _ | .blez _ _ | .movn _ _ _ | .movz _ _ _
  | .sync | .syscall | .eret => true
  | .mfc0 _ _ | .mtc0 _ _ | .addu _ _ _ | .subu _ _ _ | .and _ _ _ | .or _ _ _ | .xor _ _ _ | .nor _ _ _
  | .srav _ _ _ | .srlv _ _ _ | .sllv _ _ _ | .mul _ _ _ | .div _ _ _ | .divu _ _ _ | .rem _ _ _ | .remu _ _ _
  | .addiu _ _ _ | .lui _ _ | .ori _ _ _ | .andi _ _ _ | .xori _ _ _ | .sra _ _ _ | .srl _ _ _ | .sll _ _ _
  | .lw _ _ _ | .lh _ _ _ | .lhu _ _ _ | .lb _ _ _ | .lbu _ _ _ | .sw _ _ _ | .sh _ _ _ | .sb _ _ _ | .j _
  | .jr _ | .jalr _ _ | .jal _ | .beq _ _ _ | .bne _ _ _ | .bgtz _ _ | .bgez _ _ | .amoAdd _ _ _
  | .amoAnd _ _ _ | .amoOr _ _ _ | .cFS _ _ _ | .cUnS _ _ _ | .cEqS _ _ _ | .cNglS _ _ _ | .cLtS _ _ _
  | .cNgeS _ _ _ | .cLeS _ _ _ | .cNgtS _ _ _ | .cvtWS _ _ | .cvtSW _ _ | .truncWS _ _ | .mtx _ _ _
  | .mfx _ _ _ | .mtxr _ _ _ | .mfxr _ _ _ | .nop => false

/-- The atomic rows, which rest on recollection (30_encoding R84, R85, D14). -/
def Instr.gkAmo : Instr → Bool
  | .amoAdd _ _ _ | .amoAnd _ _ _ | .amoOr _ _ _ => true
  | .mfc0 _ _ | .mtc0 _ _ | .addu _ _ _ | .subu _ _ _ | .and _ _ _ | .or _ _ _ | .xor _ _ _ | .nor _ _ _
  | .slt _ _ _ | .sltu _ _ _ | .srav _ _ _ | .srlv _ _ _ | .sllv _ _ _ | .mul _ _ _ | .div _ _ _ | .divu _ _ _
  | .rem _ _ _ | .remu _ _ _ | .addiu _ _ _ | .lui _ _ | .ori _ _ _ | .andi _ _ _ | .xori _ _ _ | .slti _ _ _
  | .sltiu _ _ _ | .sra _ _ _ | .srl _ _ _ | .sll _ _ _ | .lw _ _ _ | .lh _ _ _ | .lhu _ _ _ | .lb _ _ _
  | .lbu _ _ _ | .sw _ _ _ | .sh _ _ _ | .sb _ _ _ | .j _ | .jr _ | .jalr _ _ | .jal _ | .beq _ _ _
  | .bne _ _ _ | .bgtz _ _ | .bltz _ _ | .bgez _ _ | .blez _ _ | .movn _ _ _ | .movz _ _ _ | .sync | .syscall
  | .eret | .cFS _ _ _ | .cUnS _ _ _ | .cEqS _ _ _ | .cNglS _ _ _ | .cLtS _ _ _ | .cNgeS _ _ _ | .cLeS _ _ _
  | .cNgtS _ _ _ | .cvtWS _ _ | .cvtSW _ _ | .truncWS _ _ | .mtx _ _ _ | .mfx _ _ _ | .mtxr _ _ _ | .mfxr _ _ _
  | .nop => false

/-- The launch's version has the instruction (30_encoding R93). -/
def Params.hasVersion (p : Params) (i : Instr) : Bool := i.version.le p.version

/-- The launch admits the instruction's row (30_encoding R84, D14). -/
def Params.admitsRow (p : Params) (i : Instr) : Bool :=
  (!i.gkMips || p.admitGkMips) && (!i.gkAmo || p.admitGkAmo)

/-- The instruction of a word for the launch's `VERSION` and `ADMIT_GK_ENCODINGS` (30_encoding R90, R93). -/
def decodeFor (p : Params) (w : Word) : Except Undefined Instr :=
  match decode w with
  | .error e => .error e
  | .ok i =>
    if !p.hasVersion i then .error .laterVersion
    else if !p.admitsRow i then .error .notAdmitted
    else .ok i

/-! ### Encoding -/

/-- R-Type, FR-Type and FCMP-Type: `op`, bits 25:21, 20:16, 15:11, 10:6, 5:0 (30_encoding R71, R74, R75). -/
def encodeR (op : BitVec 6) (f25 f20 f15 f10 : BitVec 5) (cmd : BitVec 6) : Word :=
  op ++ f25 ++ f20 ++ f15 ++ f10 ++ cmd

/-- I-Type: `op`, `rs`, `rt`, `imm` (30_encoding R72). -/
def encodeI (op : BitVec 6) (rs rt : BitVec 5) (imm : BitVec 16) : Word := op ++ rs ++ rt ++ imm

/-- J-Type: `op`, `target` (30_encoding R73). -/
def encodeJ (op : BitVec 6) (target : BitVec 26) : Word := op ++ target

/-- COP2-Type with an immediate id: `op`, `rs`, `rt`, `mt`, `accel-id` (30_encoding R76). -/
def encodeX (op : BitVec 6) (rs rt mt : BitVec 5) (accelId : BitVec 11) : Word := op ++ rs ++ rt ++ mt ++ accelId

/-- The word of an instruction (30_encoding R84). -/
def encode : Instr → Word
  | .mfc0 rt rd => encodeR 0b010000#6 0b00000#5 rt rd 0#5 0#6
  | .mtc0 rt rd => encodeR 0b010000#6 0b00100#5 rt rd 0#5 0#6
  | .addu rs rt rd => encodeR 0b000000#6 rs rt rd 0#5 0b100001#6
  | .subu rs rt rd => encodeR 0b000000#6 rs rt rd 0#5 0b100011#6
  | .and rs rt rd => encodeR 0b000000#6 rs rt rd 0#5 0b100100#6
  | .or rs rt rd => encodeR 0b000000#6 rs rt rd 0#5 0b100101#6
  | .xor rs rt rd => encodeR 0b000000#6 rs rt rd 0#5 0b100110#6
  | .nor rs rt rd => encodeR 0b000000#6 rs rt rd 0#5 0b100111#6
  | .slt rs rt rd => encodeR 0b000000#6 rs rt rd 0#5 0b101010#6
  | .sltu rs rt rd => encodeR 0b000000#6 rs rt rd 0#5 0b101011#6
  | .srav rs rt rd => encodeR 0b000000#6 rs rt rd 0#5 0b000111#6
  | .srlv rs rt rd => encodeR 0b000000#6 rs rt rd 0#5 0b000110#6
  | .sllv rs rt rd => encodeR 0b000000#6 rs rt rd 0#5 0b000100#6
  | .mul rs rt rd => encodeR 0b011100#6 rs rt rd 0#5 0b000010#6
  | .div rs rt rd => encodeR 0b100111#6 rs rt rd 0#5 0b000101#6
  | .divu rs rt rd => encodeR 0b100111#6 rs rt rd 0#5 0b000111#6
  | .rem rs rt rd => encodeR 0b100111#6 rs rt rd 0#5 0b000110#6
  | .remu rs rt rd => encodeR 0b100111#6 rs rt rd 0#5 0b001000#6
  | .addiu rs rt imm => encodeI 0b001001#6 rs rt imm
  | .lui rt imm => encodeI 0b001111#6 0#5 rt imm
  | .ori rs rt imm => encodeI 0b001101#6 rs rt imm
  | .andi rs rt imm => encodeI 0b001100#6 rs rt imm
  | .xori rs rt imm => encodeI 0b001110#6 rs rt imm
  | .slti rs rt imm => encodeI 0b001010#6 rs rt imm
  | .sltiu rs rt imm => encodeI 0b001011#6 rs rt imm
  | .sra rt rd sa => encodeR 0b000000#6 0#5 rt rd sa 0b000011#6
  | .srl rt rd sa => encodeR 0b000000#6 0#5 rt rd sa 0b000010#6
  | .sll rt rd sa => encodeR 0b000000#6 0#5 rt rd sa 0b000000#6
  | .lw rs rt imm => encodeI 0b100011#6 rs rt imm
  | .lh rs rt imm => encodeI 0b100001#6 rs rt imm
  | .lhu rs rt imm => encodeI 0b100101#6 rs rt imm
  | .lb rs rt imm => encodeI 0b100000#6 rs rt imm
  | .lbu rs rt imm => encodeI 0b100100#6 rs rt imm
  | .sw rs rt imm => encodeI 0b101011#6 rs rt imm
  | .sh rs rt imm => encodeI 0b101001#6 rs rt imm
  | .sb rs rt imm => encodeI 0b101000#6 rs rt imm
  | .j target => encodeJ 0b000010#6 target
  | .jr rs => encodeR 0b000000#6 rs 0#5 0#5 0#5 0b001000#6
  | .jalr rs rd => encodeR 0b000000#6 rs 0#5 rd 0#5 0b001001#6
  | .jal target => encodeJ 0b000011#6 target
  | .beq rs rt imm => encodeI 0b000100#6 rs rt imm
  | .bne rs rt imm => encodeI 0b000101#6 rs rt imm
  | .bgtz rs imm => encodeI 0b000111#6 rs 0b00000#5 imm
  | .bltz rs imm => encodeI 0b000001#6 rs 0b00000#5 imm
  | .bgez rs imm => encodeI 0b000001#6 rs 0b00001#5 imm
  | .blez rs imm => encodeI 0b000110#6 rs 0b00000#5 imm
  | .movn rs rt rd => encodeR 0b000000#6 rs rt rd 0#5 0b001011#6
  | .movz rs rt rd => encodeR 0b000000#6 rs rt rd 0#5 0b001010#6
  | .amoAdd rs rt rd => encodeR 0b100111#6 rs rt rd 0#5 0b000010#6
  | .amoAnd rs rt rd => encodeR 0b100111#6 rs rt rd 0#5 0b000011#6
  | .amoOr rs rt rd => encodeR 0b100111#6 rs rt rd 0#5 0b000100#6
  | .sync => encodeR 0b000000#6 0#5 0#5 0#5 0#5 0b001111#6
  | .syscall => encodeR 0b000000#6 0#5 0#5 0#5 0#5 0b001100#6
  | .eret => encodeR 0b010000#6 0b10000#5 0#5 0#5 0#5 0b011000#6
  | .cFS ft fs fd => encodeR 0b010001#6 0b10000#5 ft fs fd 0b110000#6
  | .cUnS ft fs fd => encodeR 0b010001#6 0b10000#5 ft fs fd 0b110001#6
  | .cEqS ft fs fd => encodeR 0b010001#6 0b10000#5 ft fs fd 0b110010#6
  | .cNglS ft fs fd => encodeR 0b010001#6 0b10000#5 ft fs fd 0b111011#6
  | .cLtS ft fs fd => encodeR 0b010001#6 0b10000#5 ft fs fd 0b111100#6
  | .cNgeS ft fs fd => encodeR 0b010001#6 0b10000#5 ft fs fd 0b111101#6
  | .cLeS ft fs fd => encodeR 0b010001#6 0b10000#5 ft fs fd 0b111110#6
  | .cNgtS ft fs fd => encodeR 0b010001#6 0b10000#5 ft fs fd 0b111111#6
  | .cvtWS fs fd => encodeR 0b010001#6 0b00000#5 0#5 fs fd 0b100100#6
  | .cvtSW fs fd => encodeR 0b010001#6 0b00000#5 0#5 fs fd 0b100000#6
  | .truncWS fs fd => encodeR 0b010001#6 0b00000#5 0#5 fs fd 0b001101#6
  | .mtx rs rt accelId => encodeX 0b010010#6 rs rt 0b00000#5 accelId
  | .mfx rs rt accelId => encodeX 0b010010#6 rs rt 0b00001#5 accelId
  | .mtxr rs rt rAccel => encodeR 0b010010#6 rs rt 0b00010#5 rAccel 0#6
  | .mfxr rs rt rAccel => encodeR 0b010010#6 rs rt 0b00011#5 rAccel 0#6
  | .nop => encodeR 0b000000#6 0#5 0#5 0#5 0#5 0b000000#6

/-- The bytes of an instruction, lowest address first (20_memory R41). -/
def encodeBytes (i : Instr) : List Byte :=
  let w := encode i
  [byteOfWord w 0, byteOfWord w 1, byteOfWord w 2, byteOfWord w 3]

end Sys2Proof
end

