-- ==== Sys2Proof/Machine/State.lean ====
section
/-! DEFINITION. The state of the machine (10_state, 70_reset), the reasons a step can stop (60_exceptions R272), and
the state after reset (10_state R30, 70_reset R300, R301). Plain data throughout. -/

namespace Sys2Proof.Machine

open Sys2Proof

/-- Memory as (physical address, byte) pairs, addresses strictly rising. An address that is not listed holds no value
(10_state R30; log 4). -/
abbrev Memory := List Host.Cell

/-- The canonical form: addresses strictly rising, so no address is listed twice. An unlisted address has no value, so no
entry can equal what an unlisted address reads as. -/
abbrev Memory.wf (m : Memory) : Prop := m.Pairwise (fun x y => x.1 < y.1)

/-- The widths of a memory access (20_memory R51). -/
inductive Width where
  | byte
  | half
  | word
  deriving DecidableEq, Repr

/-- One accelerator that the launch has (member of `ACCELS`): its id and its state (10_state R26). -/
structure Xcel where
  id : Word
  st : XcelState
  deriving DecidableEq, Repr

/-- One act of an agent outside the core, between two instructions (70_reset R304; log 29 to 31). -/
inductive Input where
  /-- the manager appends a word to `mngr2proc` (10_state R18) -/
  | offer (w : Word)
  /-- the manager takes the head word of `proc2mngr`, which makes the FIFO ready (70_reset R304, R306) -/
  | take
  /-- the manager's side of `proc2mngr` becomes ready or not ready (10_state R19) -/
  | setReady (ready : Bool)
  /-- another core stores `v` at `a`; at a misaligned or unpopulated address it would fault there, and changes
  nothing here (10_state R29, 20_memory R52). DESIGN CHOICE: this core's next load already sees it; `MEM_MODEL` is open
  (20_memory R57, D15; log 43) -/
  | otherStore (width : Width) (a v : Word)
  /-- accelerator `id` acts on its own (70_reset R304) -/
  | xcelActs (id : Word) (st : XcelState)
  deriving DecidableEq, Repr

/-- Whose turn a step is: agents interleave in any order, and each act and each instruction is a step of its own
(70_reset R304; log 29). -/
inductive Turn where
  /-- the core executes one instruction -/
  | core
  /-- an agent outside the core acts -/
  | outside (x : Input)
  deriving DecidableEq, Repr

/-- The state of one core, its memory, its two FIFOs and its accelerators, with what the outside agents will do and the
launch's parameters. -/
structure State where
  /-- The general registers; slot 0 belongs to `r0` and is reached by no accessor (10_state R10, R11). -/
  regs : Vector Word 32
  /-- The program counter (10_state R14). -/
  pc : Word
  /-- The exception PC (10_state R16). -/
  epc : Word
  /-- cpr21 (10_state R20). -/
  statsEn : Word
  /-- The FIFO behind cpr1, head first (10_state R18). -/
  mngr2proc : List Word
  /-- The FIFO behind cpr2, head first (10_state R19). -/
  proc2mngr : List Word
  /-- Whether the FIFO behind cpr2 takes a word (10_state R19, `PROC2MNGR_READY`). -/
  proc2mngrReady : Bool
  /-- The words the manager has taken from `proc2mngr`, oldest first (70_reset R305). -/
  received : List Word
  /-- Memory (10_state R27). -/
  mem : Memory
  /-- The physical byte addresses stored to since launch, strictly rising (20_memory R60). -/
  storedTo : List Nat
  /-- The accelerators present, `ACCELS` (10_state R26). -/
  xcels : List Xcel
  /-- Whose the coming steps are; the core's once it is empty (70_reset R304; log 29). -/
  turns : List Turn
  /-- The parameters of the run (00_scope R4). -/
  params : Params
  deriving DecidableEq, Repr

/-- Why a run ends in a model fault (60_exceptions R272). None is an architectural exception. Each is safe: the machine
stops where the hardware may go on. -/
inductive Fault where
  /-- Raised by a step: the word at `addr` is no instruction of the launch (30_encoding R90). Safe. -/
  | undefinedInstruction (word addr : Word) (why : Undefined)
  /-- Raised by `mfc0` and `mtc0`: the access to register `n` is undefined (10_state R18 to R24). Safe. -/
  | undefinedCp0Access (n : Reg)
  /-- Raised by loads, stores and `amo.*`: `addr` is no multiple of the size (20_memory R48). Safe. -/
  | misalignedData (addr : Word)
  /-- Raised by `jr`, `jalr` and `eret`: `target` is no multiple of 4 (20_memory R49). Safe. -/
  | misalignedTarget (target : Word)
  /-- Raised by `jalr` with `rs` = `rd` (45_jumps R183). Safe. -/
  | jalrSameRegister
  /-- Raised by `cvt.w.s` and `trunc.w.s`: the source is a NaN, an infinity or out of range (49_float_accel R240, R242).
  Safe. -/
  | fpUnpredictable (source : Word)
  /-- Raised by the accelerator moves: no accelerator has this id (49_float_accel R249). Safe. -/
  | noSuchAccelerator (id : Word)
  /-- Raised by a step: a byte of the word at `addr` was stored to since launch (20_memory R60). Safe. -/
  | fetchAfterStore (addr : Word)
  /-- Raised by `syscall`: the launch gives no `EXC_VECTOR` or no `SYSCALL_EPC` (48_exception_instructions R215). Safe. -/
  | syscallUnmodelled
  /-- Raised by a fetch, a load or an `amo.*`: a byte at `addr` or just above holds no value (10_state R30). Safe. -/
  | readOfUnwritten (addr : Word)
  /-- Raised by a step: `pc` is no multiple of 4, which no reachable state has (20_memory R49; log 38). Safe. -/
  | misalignedFetch (addr : Word)
  deriving DecidableEq, Repr

/-- Why the model has no answer. -/
inductive Refusal where
  /-- Raised by `exec` for an instruction without a meaning; no arm raises it. Safe. -/
  | notModelled (mnemonic : String)
  /-- Raised by a fetch, a load, a store or an `amo.*` at an address where the launch has placed no memory (20_memory R45).
  Safe. -/
  | unpopulated (addr : Word)
  deriving DecidableEq, Repr

/-- The machine right after reset (10_state R30, 70_reset R301). `r0` to `r31`, `epc` and `stats_en` hold 0 (log 1, 2, 3);
no byte of memory holds a value (log 4); every step is the core's (log 29). -/
def State.reset : State where
  regs := Vector.replicate 32 0#32
  pc := 0x00001000#32
  epc := 0#32
  statsEn := 0#32
  mngr2proc := []
  proc2mngr := []
  proc2mngrReady := true
  received := []
  mem := []
  storedTo := []
  xcels := []
  turns := []
  params := Config.launch

end Sys2Proof.Machine
end

