-- ==== Sys2Proof/Machine/Ops.lean ====
section
/-! DEFINITION. The named operations over the state: registers, memory, the FIFOs, coprocessor 0, taking an exception
and returning from one, accelerators, the acts of outside agents, and the fetch. -/

namespace Sys2Proof.Machine

open Sys2Proof

/-- What an operation answers: a value or a state, a fault, or a refusal. -/
abbrev Answer (α : Type) := Host.Outcome α Fault Refusal

/-- `k` on what `o` answers; a fault or a refusal of `o` passes through, and nothing of `k` happens. -/
def andThen {α β : Type} (o : Answer α) (k : α → Answer β) : Answer β :=
  match o with
  | .next a => k a
  | .fault f => .fault f
  | .refused r => .refused r

/-! ### General registers and the program counter -/

/-- `x[r]`: 0 for `r0`, else the register's value (10_state R10, R11). -/
def State.gpr (s : State) (r : Reg) : Word :=
  if r = 0#5 then 0#32 else s.regs.get r.toFin

/-- `x[r] <- v`: no effect on `r0` (10_state R11). -/
def State.setGpr (s : State) (r : Reg) (v : Word) : State :=
  { s with regs := if r = 0#5 then s.regs else s.regs.set r.toNat v r.isLt }

/-- `pc <- t` (10_state R14). -/
def State.setPc (s : State) (t : Word) : State := { s with pc := t }

/-- `pc + 4` modulo 2^32 (00_scope R5, 10_state R15). -/
def State.pcPlus4 (s : State) : Word := s.pc + 4#32

/-- `pc <- pc + 4` (00_scope R5). -/
def State.advance (s : State) : State := s.setPc s.pcPlus4

/-- `x[r] <- v; pc <- pc + 4`: the end of every instruction that writes one register. -/
def writeBack (r : Reg) (v : Word) (s : State) : Answer State := .next (s.setGpr r v).advance

/-! ### Memory -/

/-- The byte listed for an address, if any. -/
def Memory.read (a : Nat) : Memory → Option Byte
  | [] => none
  | (x, c) :: rest => if a = x then some c else Memory.read a rest

/-- The memory with byte `b` at `a`, in canonical form. -/
def Memory.write (a : Nat) (b : Byte) : Memory → Memory
  | [] => [(a, b)]
  | (x, c) :: rest =>
    if a < x then (a, b) :: (x, c) :: rest
    else if a = x then (a, b) :: rest
    else (x, c) :: Memory.write a b rest

/-- A rising list of addresses with `a` put in. -/
def insertAddr (a : Nat) : List Nat → List Nat
  | [] => [a]
  | x :: rest =>
    if a < x then a :: x :: rest
    else if a = x then x :: rest
    else x :: insertAddr a rest

/-- `PA_BITS` (00_scope R4). -/
def paBits (p : Params) : Nat := p.paBitsPred.val + 1

/-- The physical address that an address reaches: its low `PA_BITS` bits (20_memory R44). -/
def physAddr (p : Params) (a : Word) : Nat := a.toNat % 2 ^ paBits p

/-- The launch has placed memory at this physical address (20_memory R45). -/
def isPopulated (p : Params) (phys : Nat) : Bool :=
  p.populated.any (fun r => decide (r.base ≤ phys) && decide (phys < r.base + r.size))

/-- The byte that address `a` reaches, if it holds a value (10_state R30, 20_memory R44). -/
def State.byteAt (s : State) (a : Word) : Option Byte := Memory.read (physAddr s.params a) s.mem

/-- Byte `b` stored at physical address `n`, which counts as stored to from now on (20_memory R47, R60). -/
def State.storeByte (s : State) (n : Nat) (b : Byte) : State :=
  { s with mem := Memory.write n b s.mem, storedTo := insertAddr n s.storedTo }

/-- How many bytes an access of this width moves (20_memory R51). -/
def widthBytes : Width → Nat
  | .byte => 1
  | .half => 2
  | .word => 4

/-- `addr mod n = 0` (20_memory R46, R48). -/
def isAligned (n : Nat) (a : Word) : Bool := a.toNat % n == 0

/-- The physical addresses of the bytes of an access at `a`: its bytes are at `a`, `a + 1`, ... modulo 2^32, each truncated
(20_memory R43, R44). For an aligned access within 2^PA_BITS bytes they are `p`, `p + 1`, ... with `p = a mod 2^PA_BITS` (R46,
R47); with `PA_BITS` = 1 those of a word are 0, 1, 0, 1 (log 6). -/
def physBytes (p : Params) (width : Width) (a : Word) : List Nat :=
  match width with
  | .byte => [physAddr p a]
  | .half => [physAddr p a, physAddr p (a + 1#32)]
  | .word => [physAddr p a, physAddr p (a + 1#32), physAddr p (a + 2#32), physAddr p (a + 3#32)]

/-- The launch has placed memory under every byte of the access (20_memory R45). -/
def isBacked (p : Params) (width : Width) (a : Word) : Bool := (physBytes p width a).all (isPopulated p)

/-- The checks before any effect of a data access: alignment (20_memory R48), then whether there is memory (R45);
in this order (60_exceptions R265). -/
def dataAccess {α : Type} (width : Width) (a : Word) (s : State) (k : Answer α) : Answer α :=
  if isAligned (widthBytes width) a then
    if isBacked s.params width a then k else .refused (.unpopulated a)
  else .fault (.misalignedData a)

/-- The word at address `a`, little-endian, if all four bytes hold values (20_memory R40, R43, R46). -/
def State.wordAt (s : State) (a : Word) : Option Word :=
  match s.byteAt a, s.byteAt (a + 1#32), s.byteAt (a + 2#32), s.byteAt (a + 3#32) with
  | some b0, some b1, some b2, some b3 => some (wordOfBytes b0 b1 b2 b3)
  | _, _, _, _ => none

/-- The halfword at address `a`, little-endian, if both bytes hold values (20_memory R40, R43, R46). -/
def State.halfAt (s : State) (a : Word) : Option Half :=
  match s.byteAt a, s.byteAt (a + 1#32) with
  | some b0, some b1 => some (halfOfBytes b0 b1)
  | _, _ => none

/-- A value that memory holds, or the fault of reading bytes that hold none (10_state R30). -/
def valueOr {α : Type} (a : Word) (v : Option α) : Answer α :=
  match v with
  | some x => .next x
  | none => .fault (.readOfUnwritten a)

/-- `MemRead(a, 4)` (20_memory R46). Like every load it reads the latest value, another core's store included (20_memory R57,
D15; DESIGN CHOICE, log 43). -/
def loadWord (a : Word) (s : State) : Answer Word := dataAccess .word a s (valueOr a (s.wordAt a))

/-- `MemRead(a, 2)` (20_memory R46). -/
def loadHalf (a : Word) (s : State) : Answer Half := dataAccess .half a s (valueOr a (s.halfAt a))

/-- `MemRead(a, 1)` (20_memory R46). -/
def loadByte (a : Word) (s : State) : Answer Byte := dataAccess .byte a s (valueOr a (s.byteAt a))

/-- The four bytes of a word stored at address `a`, the least significant first, in the order of 20_memory R47 (R40, R43;
log 6). -/
def State.storeWord (s : State) (a v : Word) : State :=
  (((s.storeByte (physAddr s.params a) (byteOfWord v 0)).storeByte (physAddr s.params (a + 1#32)) (byteOfWord v 1)).storeByte
    (physAddr s.params (a + 2#32)) (byteOfWord v 2)).storeByte (physAddr s.params (a + 3#32)) (byteOfWord v 3)

/-- The low two bytes of a word stored at address `a`, the least significant first (20_memory R40, R43, R47,
44_loads_stores R167). -/
def State.storeHalf (s : State) (a v : Word) : State :=
  (s.storeByte (physAddr s.params a) (byteOfWord v 0)).storeByte (physAddr s.params (a + 1#32)) (byteOfWord v 1)

/-- The low bytes of `v`, as many as the width has, stored at address `a` (20_memory R47, 44_loads_stores R167, R168). -/
def State.put (s : State) (width : Width) (a v : Word) : State :=
  match width with
  | .byte => s.storeByte (physAddr s.params a) (byteOfWord v 0)
  | .half => s.storeHalf a v
  | .word => s.storeWord a v

/-- `MemWrite` of the low bytes of `v` (20_memory R47, R48). -/
def store (width : Width) (a v : Word) (s : State) : Answer State :=
  dataAccess width a s (.next (s.put width a v))

/-! ### Coprocessor 0 -/

/-- The five coprocessor-0 registers (10_state R17). -/
inductive Cp0 where
  | mngr2proc
  | proc2mngr
  | numcores
  | coreid
  | statsEn
  deriving DecidableEq, Repr

/-- The coprocessor-0 register of a number, if the version has it (10_state R17, R23, R24). -/
def cp0Named (v : Version) (n : Reg) : Option Cp0 :=
  match n with
  | 1#5 => some .mngr2proc
  | 2#5 => some .proc2mngr
  | 16#5 => if Version.le .parcV2 v then some .numcores else none
  | 17#5 => if Version.le .parcV2 v then some .coreid else none
  | 21#5 => if Version.le .parcV2 v then some .statsEn else none
  | _ => none

/-- The core's answer where an instruction must wait: it has no step, and nothing of its state changes (00_scope section
5.2 `stall until`, 10_state R18, R19). -/
def stall (s : State) : Answer State := .next s

/-- `mngr2proc` without its head (10_state R18). -/
def State.setMngr2proc (s : State) (rest : List Word) : State := { s with mngr2proc := rest }

/-- `proc2mngr` with `w` at its tail (10_state R19). -/
def State.enqueue (s : State) (w : Word) : State := { s with proc2mngr := s.proc2mngr ++ [w] }

/-- cpr21 <- `v` (10_state R20). -/
def State.setStatsEn (s : State) (v : Word) : State := { s with statsEn := v }

/-- `x[rt] <- cp0[n]; pc <- pc + 4` (10_state R18 to R24, 40_cop0_moves R100). -/
def readCp0 (rt n : Reg) (s : State) : Answer State :=
  match cp0Named s.params.version n with
  | some .mngr2proc =>
    match s.mngr2proc with
    | [] => stall s
    | w :: rest => writeBack rt w (s.setMngr2proc rest)
  | some .numcores => writeBack rt s.params.numCores s
  | some .coreid => writeBack rt s.params.coreId s
  | some .statsEn => writeBack rt s.statsEn s
  | some .proc2mngr => .fault (.undefinedCp0Access n)
  | none => .fault (.undefinedCp0Access n)

/-- `cp0[n] <- x[rt]; pc <- pc + 4` (10_state R18 to R24, 40_cop0_moves R101). -/
def writeCp0 (rt n : Reg) (s : State) : Answer State :=
  match cp0Named s.params.version n with
  | some .proc2mngr => if s.proc2mngrReady then .next (s.enqueue (s.gpr rt)).advance else stall s
  | some .statsEn => .next (s.setStatsEn (s.gpr rt)).advance
  | some .mngr2proc => .fault (.undefinedCp0Access n)
  | some .numcores => .fault (.undefinedCp0Access n)
  | some .coreid => .fault (.undefinedCp0Access n)
  | none => .fault (.undefinedCp0Access n)

/-! ### Jumps, exception entry and return -/

/-- `pc <- t` with the alignment check of a register target, made before anything changes (20_memory R49). `s` is the
state with the jump's other effects done. -/
def jumpTo (t : Word) (s : State) : Answer State :=
  if isAligned 4 t then .next (s.setPc t) else .fault (.misalignedTarget t)

/-- `epc <- v` (10_state R16). -/
def State.setEpc (s : State) (v : Word) : State := { s with epc := v }

/-- The return address that `SYSCALL_EPC` names (60_exceptions R263, D7). -/
def returnAddress (rule : SyscallEpc) (s : State) : Word :=
  match rule with
  | .pc => s.pc
  | .pcPlus4 => s.pcPlus4

/-- `EXC_VECTOR` from its bits 31:2 (60_exceptions R263, D6). -/
def vectorAddress (vector : BitVec 30) : Word := vector ++ 0#2

/-- Taking an exception: `epc` gets the return address, `pc` the vector, nothing else changes (60_exceptions R263). -/
def takeException (vector : BitVec 30) (rule : SyscallEpc) (s : State) : State :=
  (s.setEpc (returnAddress rule s)).setPc (vectorAddress vector)

/-- Returning from an exception: `pc <- epc`, and nothing else (60_exceptions R269, 48_exception_instructions R217). -/
def returnFromException (s : State) : Answer State := jumpTo s.epc s

/-! ### Accelerators -/

/-- The state of the accelerator with this id, if the launch has one (49_float_accel R249). -/
def xcelFind (id : Word) : List Xcel → Option XcelState
  | [] => none
  | x :: rest => if id = x.id then some x.st else xcelFind id rest

/-- The accelerators with the state of `id` replaced. -/
def xcelPut (id : Word) (st : XcelState) : List Xcel → List Xcel
  | [] => []
  | x :: rest => if id = x.id then { id := id, st := st } :: rest else x :: xcelPut id st rest

/-- The machine with accelerator `id` in state `st`. -/
def State.setXcel (s : State) (id : Word) (st : XcelState) : State := { s with xcels := xcelPut id st s.xcels }

/-- `XcelWrite(id, i, v); pc <- pc + 4` (49_float_accel R249, R250): a stall while the accelerator makes writes of
register `i` wait. What the write does to the accelerator is free. -/
def writeXcel (id : Word) (i : Reg) (v : Word) (s : State) : Answer State :=
  match xcelFind id s.xcels with
  | none => .fault (.noSuchAccelerator id)
  | some st =>
    if st.writeWaits.getLsbD i.toNat then stall s
    else .next (s.setXcel id (Config.xcelWrite id st i v)).advance

/-- `x[rt] <- XcelRead(id, i); pc <- pc + 4` (49_float_accel R249, R251): a stall while the accelerator makes reads of
register `i` wait. The word and the effect on the accelerator are free. -/
def readXcel (id : Word) (i rt : Reg) (s : State) : Answer State :=
  match xcelFind id s.xcels with
  | none => .fault (.noSuchAccelerator id)
  | some st =>
    if st.readWaits.getLsbD i.toNat then stall s
    else writeBack rt (Config.xcelReadValue id st i) (s.setXcel id (Config.xcelReadEffect id st i))

/-! ### The agents outside the core -/

/-- One act of an outside agent (70_reset R304, R306). Another core's store is in memory for this core's very next load
(`MEM_MODEL`, 20_memory R57, D15; DESIGN CHOICE, log 43). -/
def applyInput (s : State) (x : Input) : State :=
  match x with
  | .offer w => { s with mngr2proc := s.mngr2proc ++ [w] }
  | .take =>
    match s.proc2mngr with
    | [] => s
    | w :: rest => { s with proc2mngr := rest, received := s.received ++ [w], proc2mngrReady := true }
  | .setReady ready => { s with proc2mngrReady := ready }
  | .otherStore width a v =>
    if isAligned (widthBytes width) a && isBacked s.params width a then s.put width a v else s
  | .xcelActs id st => s.setXcel id st

/-- The outside act that the coming step is, if it is not the core's turn (70_reset R304). -/
def nextAct (s : State) : Option Input :=
  match s.turns with
  | [] => none
  | .core :: _ => none
  | .outside x :: _ => some x

/-- The coming turn is taken: those after it remain. -/
def State.takeTurn (s : State) : State := { s with turns := s.turns.tail }

/-- The core's turn comes next; nothing of the turns is lost. -/
def State.coreNext (s : State) : State :=
  { s with turns := match nextAct s with | none => s.turns | some _ => .core :: s.turns }

/-! ### Fetch -/

/-- The word at `pc`: a fault if a byte of it was stored to (20_memory R60), a refusal where there is no memory (R45), in
this order (60_exceptions R265); else `MemRead(pc, 4)` (20_memory R50). -/
def fetchWord (s : State) : Answer Word :=
  if !isAligned 4 s.pc then .fault (.misalignedFetch s.pc)
  else if (physBytes s.params .word s.pc).any (fun n => s.storedTo.contains n) then
    .fault (.fetchAfterStore s.pc)
  else if !isBacked s.params .word s.pc then .refused (.unpopulated s.pc)
  else valueOr s.pc (s.wordAt s.pc)

/-- The instruction at `pc`, for the launch's version and admitted rows (20_memory R50, 30_encoding R90). -/
def fetchInstr (s : State) : Answer Instr :=
  andThen (fetchWord s) fun w =>
    match decodeFor s.params w with
    | .ok i => .next i
    | .error why => .fault (.undefinedInstruction w s.pc why)

/-- A byte placed from outside at physical address `n`: it holds `b` and does not count as stored to (70_reset R301). -/
def State.placeByte (s : State) (n : Nat) (b : Byte) : State :=
  { s with mem := Memory.write n b s.mem, storedTo := s.storedTo.filter (fun x => x != n) }

/-- The four bytes of a word placed from outside at address `a` (20_memory R41, R43, 70_reset R301). -/
def State.placeWord (s : State) (a v : Word) : State :=
  (((s.placeByte (physAddr s.params a) (byteOfWord v 0)).placeByte (physAddr s.params (a + 1#32)) (byteOfWord v 1)).placeByte
    (physAddr s.params (a + 2#32)) (byteOfWord v 2)).placeByte (physAddr s.params (a + 3#32)) (byteOfWord v 3)

end Sys2Proof.Machine
end

