-- ==== Sys2Proof/Machine/Operands.lean ====
section
/-! DEFINITION. How instructions form their operands: immediates (30_encoding R78), shift amounts (R79), jump and branch
targets (R80, 46_branches R190), effective addresses (44_loads_stores R160), accelerator ids (R82). -/

namespace Sys2Proof.Machine

open Sys2Proof

/-- `sext_32(imm)` of a 16-bit immediate (30_encoding R78(a)). -/
def sextImm (imm : BitVec 16) : Word := imm.signExtend 32

/-- `zext_32(imm)` of a 16-bit immediate (30_encoding R78(b)). -/
def zextImm (imm : BitVec 16) : Word := imm.zeroExtend 32

/-- `{imm, 0x0000}` (30_encoding R78(c)). -/
def upperImm (imm : BitVec 16) : Word := imm ++ 0#16

/-- `(sext_32(imm) << 2) mod 2^32` (30_encoding R78(d)). -/
def branchOffset (imm : BitVec 16) : Word := sextImm imm <<< 2

/-- `pc + 4 + (sext_32(imm) << 2)` modulo 2^32 (46_branches R190). -/
def branchTarget (imm : BitVec 16) (s : State) : Word := s.pcPlus4 + branchOffset imm

/-- `{(pc + 4)[31:28], target, 0b00}` (30_encoding R80, 45_jumps R181). -/
def jumpTarget (target : BitVec 26) (s : State) : Word := s.pcPlus4.extractLsb' 28 4 ++ target ++ 0#2

/-- `(x[rs] + sext_32(imm)) mod 2^32` (44_loads_stores R160). -/
def effAddr (rs : Reg) (imm : BitVec 16) (s : State) : Word := s.gpr rs + sextImm imm

/-- The amount of a shift by register: the low five bits (30_encoding R79). -/
def shiftAmount (v : Word) : Nat := (v.extractLsb' 0 5).toNat

/-- A loaded halfword as a signed value (44_loads_stores R162). -/
def sextHalf (h : Half) : Word := h.signExtend 32

/-- A loaded halfword as an unsigned value (44_loads_stores R163). -/
def zextHalf (h : Half) : Word := h.zeroExtend 32

/-- A loaded byte as a signed value (44_loads_stores R164). -/
def sextByte (b : Byte) : Word := b.signExtend 32

/-- A loaded byte as an unsigned value (44_loads_stores R165). -/
def zextByte (b : Byte) : Word := b.zeroExtend 32

/-- The accelerator that an 11-bit immediate names (30_encoding R82). -/
def immediateAccel (accelId : BitVec 11) : Word := accelId.zeroExtend 32

end Sys2Proof.Machine
end

