-- ==== Sys2Proof/Machine/Accel.lean ====
section
/-! DEFINITION. The accelerator moves (49_float_accel R249 to R254). -/

namespace Sys2Proof.Machine

open Sys2Proof

/-- `mtx` (49_float_accel R250). -/
def execMtx (rs rt : Reg) (accelId : BitVec 11) (s : State) : Answer State :=
  writeXcel (immediateAccel accelId) rs (s.gpr rt) s

/-- `mfx` (49_float_accel R251). -/
def execMfx (rs rt : Reg) (accelId : BitVec 11) (s : State) : Answer State := readXcel (immediateAccel accelId) rs rt s

/-- `mtxr`: the whole register value is the id (49_float_accel R252, D31). -/
def execMtxr (rs rt rAccel : Reg) (s : State) : Answer State := writeXcel (s.gpr rAccel) rs (s.gpr rt) s

/-- `mfxr`: the whole register value is the id (49_float_accel R253, D31). -/
def execMfxr (rs rt rAccel : Reg) (s : State) : Answer State := readXcel (s.gpr rAccel) rs rt s

end Sys2Proof.Machine
end

