-- ==== Sys2Proof/Machine/Atomics.lean ====
section
/-! DEFINITION. Conditional moves, atomic memory operations and `sync` (47_cond_moves_amo_sync R200 to R206). -/

namespace Sys2Proof.Machine

open Sys2Proof

/-- `movn`: nothing is written when the condition fails (47_cond_moves_amo_sync R200). -/
def execMovn (rs rt rd : Reg) (s : State) : Answer State :=
  if s.gpr rt ≠ 0#32 then writeBack rd (s.gpr rs) s else .next s.advance

/-- `movz`: nothing is written when the condition fails (47_cond_moves_amo_sync R201). -/
def execMovz (rs rt rd : Reg) (s : State) : Answer State :=
  if s.gpr rt = 0#32 then writeBack rd (s.gpr rs) s else .next s.advance

/-- The common form of the atomics: the word at `x[rs]` becomes `f(old, x[rt])`, `rd` receives `old`. One step, so no other
agent's access falls between the read and the write (47_cond_moves_amo_sync R202, 20_memory R59). -/
def atomicUpdate (f : Word → Word → Word) (rs rt rd : Reg) (s : State) : Answer State :=
  andThen (loadWord (s.gpr rs) s) fun old =>
    writeBack rd old (s.put .word (s.gpr rs) (f old (s.gpr rt)))

/-- `amo.add`: modulo 2^32 (47_cond_moves_amo_sync R203). -/
def execAmoAdd (rs rt rd : Reg) (s : State) : Answer State := atomicUpdate (fun old v => old + v) rs rt rd s

/-- `amo.and` (47_cond_moves_amo_sync R204). -/
def execAmoAnd (rs rt rd : Reg) (s : State) : Answer State := atomicUpdate (fun old v => old &&& v) rs rt rd s

/-- `amo.or` (47_cond_moves_amo_sync R205). -/
def execAmoOr (rs rt rd : Reg) (s : State) : Answer State := atomicUpdate (fun old v => old ||| v) rs rt rd s

/-- `sync`: on one core, whose accesses are in program order, only `pc` changes (47_cond_moves_amo_sync R206, 20_memory R56,
R58). It orders no load against another core's store, since loads see such a store at once (DESIGN CHOICE, log 43). -/
def execSync (s : State) : Answer State := .next s.advance

end Sys2Proof.Machine
end

