-- ==== Sys2Proof/Machine/Flags.lean ====
section
/-! DEFINITION. The PARC ISA has no flags and no condition codes (10_state R31): a comparison writes 0 or 1 to a general
register. This file holds the comparisons and that result, which stand where another machine has its flags. -/

namespace Sys2Proof.Machine

open Sys2Proof

/-- 1 where the comparison holds, else 0 (D24; log 23). -/
def boolWord (holds : Bool) : Word := if holds then 1#32 else 0#32

/-- `a <s b`: `s(a) < s(b)` (00_scope section 5.2, R6). -/
def ltSigned (a b : Word) : Bool := decide (a.toInt < b.toInt)

/-- `a <u b`: `u(a) < u(b)` (00_scope section 5.2, R6). -/
def ltUnsigned (a b : Word) : Bool := decide (a.toNat < b.toNat)

/-- The word is negative as a signed value: `s(a) < 0` (46_branches R194). -/
def isNegative (a : Word) : Bool := decide (a.toInt < 0)

/-- The word is positive as a signed value: `s(a) > 0` (46_branches R193). -/
def isPositive (a : Word) : Bool := decide (0 < a.toInt)

end Sys2Proof.Machine
end

