-- ==== Sys2Proof/Machine/Branches.lean ====
section
/-! DEFINITION. Conditional branches (46_branches R190 to R197). -/

namespace Sys2Proof.Machine

open Sys2Proof

/-- The common form: to the target if the condition holds, else to `pc + 4` (46_branches R190). -/
def branchIf (taken : Bool) (imm : BitVec 16) (s : State) : Answer State :=
  if taken then .next (s.setPc (branchTarget imm s)) else .next s.advance

/-- `beq` (46_branches R191). -/
def execBeq (rs rt : Reg) (imm : BitVec 16) (s : State) : Answer State := branchIf (s.gpr rs == s.gpr rt) imm s

/-- `bne` (46_branches R192). -/
def execBne (rs rt : Reg) (imm : BitVec 16) (s : State) : Answer State := branchIf (s.gpr rs != s.gpr rt) imm s

/-- `bgtz` (46_branches R193). -/
def execBgtz (rs : Reg) (imm : BitVec 16) (s : State) : Answer State := branchIf (isPositive (s.gpr rs)) imm s

/-- `bltz` (46_branches R194). -/
def execBltz (rs : Reg) (imm : BitVec 16) (s : State) : Answer State := branchIf (isNegative (s.gpr rs)) imm s

/-- `bgez` (46_branches R195). -/
def execBgez (rs : Reg) (imm : BitVec 16) (s : State) : Answer State := branchIf (!isNegative (s.gpr rs)) imm s

/-- `blez` (46_branches R196). -/
def execBlez (rs : Reg) (imm : BitVec 16) (s : State) : Answer State := branchIf (!isPositive (s.gpr rs)) imm s

end Sys2Proof.Machine
end

