-- ==== Sys2Proof/Machine/Cop0.lean ====
section
/-! DEFINITION. The coprocessor-0 moves (40_cop0_moves R100 to R103). -/

namespace Sys2Proof.Machine

open Sys2Proof

/-- `mfc0` (40_cop0_moves R100). -/
def execMfc0 (rt rd : Reg) (s : State) : Answer State := readCp0 rt rd s

/-- `mtc0` (40_cop0_moves R101). -/
def execMtc0 (rt rd : Reg) (s : State) : Answer State := writeCp0 rt rd s

end Sys2Proof.Machine
end

