-- ==== Sys2Proof/Machine/Exceptions.lean ====
section
/-! DEFINITION. The exception instructions (48_exception_instructions R215 to R218). -/

namespace Sys2Proof.Machine

open Sys2Proof

/-- `syscall`: takes the one exception; a fault only where the launch gives no `EXC_VECTOR` or no `SYSCALL_EPC`
(48_exception_instructions R215, 60_exceptions R263, D34). -/
def execSyscall (s : State) : Answer State :=
  match s.params.excVector, s.params.syscallEpc with
  | some vector, some rule => .next (takeException vector rule s)
  | none, _ => .fault .syscallUnmodelled
  | some _, none => .fault .syscallUnmodelled

/-- `eret` (48_exception_instructions R217). -/
def execEret (s : State) : Answer State := returnFromException s

end Sys2Proof.Machine
end

