-- ==== Sys2Proof/Machine/FloatOps.lean ====
section
/-! DEFINITION. Single-precision values in general registers (49_float_accel R230): reading a pattern, comparing two values
(R239), rounding, and the two conversions' arithmetic (R240 to R242). IEEE 754 binary32 by D27 (log 21). -/

namespace Sys2Proof.Machine

open Sys2Proof

/-- A binary32 value: a NaN, a signed infinity, or a sign and a magnitude counted in units of 2^-149, which every finite
binary32 value is a whole number of (49_float_accel R230). -/
inductive FVal where
  | nan
  | inf (neg : Bool)
  | finite (neg : Bool) (units : Nat)
  deriving DecidableEq, Repr

/-- How many units of 2^-149 make 1. -/
def unitsPerOne : Nat := 2 ^ 149

/-- Bit 31, the sign (49_float_accel R230). -/
def floatSign (w : Word) : Bool := w.getLsbD 31

/-- Bits 30:23, the biased exponent (49_float_accel R230). -/
def floatExponent (w : Word) : Nat := (w.extractLsb' 23 8).toNat

/-- Bits 22:0, the fraction (49_float_accel R230). -/
def floatFraction (w : Word) : Nat := (w.extractLsb' 0 23).toNat

/-- `fval(w)`; a subnormal reads as zero where `FP_FLUSH_SUBNORMALS` is set (49_float_accel R230, D27). -/
def fval (flush : Bool) (w : Word) : FVal :=
  if floatExponent w = 255 then
    if floatFraction w = 0 then .inf (floatSign w) else .nan
  else if floatExponent w = 0 then .finite (floatSign w) (if flush then 0 else floatFraction w)
  else .finite (floatSign w) ((2 ^ 23 + floatFraction w) * 2 ^ (floatExponent w - 1))

/-- An integer with a sign and a magnitude. -/
def signedInt (neg : Bool) (magnitude : Nat) : Int := if neg then -(magnitude : Int) else magnitude

/-- The four relations of two floating-point values (49_float_accel R239). -/
inductive Relation where
  | less
  | equal
  | greater
  | unordered
  deriving DecidableEq, Repr

/-- The relation of two integers. -/
def intRelation (a b : Int) : Relation := if a < b then .less else if a = b then .equal else .greater

/-- The relation of two values: unordered with a NaN; equal infinities are equal; +0 and -0 are equal (49_float_accel
R239). -/
def relation (a b : FVal) : Relation :=
  match a, b with
  | .nan, _ => .unordered
  | .inf _, .nan => .unordered
  | .finite _ _, .nan => .unordered
  | .inf s, .inf t => if s = t then .equal else if s then .less else .greater
  | .inf s, .finite _ _ => if s then .less else .greater
  | .finite _ _, .inf t => if t then .greater else .less
  | .finite s m, .finite t n => intRelation (signedInt s m) (signedInt t n)

/-- The relation of two registers' floating-point values under the launch's `FP_FLUSH_SUBNORMALS` (49_float_accel R239). -/
def floatRelation (s : State) (ft fs : Reg) : Relation :=
  relation (fval s.params.flushSubnormals (s.gpr ft)) (fval s.params.flushSubnormals (s.gpr fs))

/-- Whether a magnitude with remainder `r` of `den` and quotient `q` rounds away from zero (00_scope R4, D9). -/
def roundsAway (mode : Rounding) (neg : Bool) (q r den : Nat) : Bool :=
  match mode with
  | .nearestEven => decide (den < 2 * r) || (decide (2 * r = den) && decide (q % 2 = 1))
  | .nearestAway => decide (den ≤ 2 * r)
  | .towardZero => false
  | .towardPositive => decide (0 < r) && !neg
  | .towardNegative => decide (0 < r) && neg

/-- The magnitude `num / den` rounded to a whole number in direction `mode`, for a value of sign `neg`. -/
def roundQuotient (mode : Rounding) (neg : Bool) (num den : Nat) : Nat :=
  if roundsAway mode neg (num / den) (num % den) den then num / den + 1 else num / den

/-- `v < -2^31 or v >= 2^31` for a finite value (49_float_accel R240). -/
def outOfIntRange (neg : Bool) (units : Nat) : Bool :=
  if neg then decide (2 ^ 31 * unitsPerOne < units) else decide (2 ^ 31 * unitsPerOne ≤ units)

/-- A single-precision value as a 32-bit integer, rounded in direction `mode`; a fault on a NaN, an infinity or a value out
of range (49_float_accel R240, R242, D10; log 22). -/
def floatToInt (mode : Rounding) (flush : Bool) (w : Word) : Answer Word :=
  match fval flush w with
  | .nan => .fault (.fpUnpredictable w)
  | .inf _ => .fault (.fpUnpredictable w)
  | .finite neg units =>
    if outOfIntRange neg units then .fault (.fpUnpredictable w)
    else .next (BitVec.ofInt 32 (signedInt neg (roundQuotient mode neg units unitsPerOne)))

/-- The 24-bit significand of a nonzero magnitude whose highest bit is bit `e`: exact up to `e` = 23, else rounded. It may
round up to 2^24. -/
def significand (mode : Rounding) (neg : Bool) (m e : Nat) : Nat :=
  if e ≤ 23 then m * 2 ^ (23 - e) else roundQuotient mode neg m (2 ^ (e - 23))

/-- The binary32 pattern of an integer of sign `neg` and magnitude `m`; +0 for 0 (49_float_accel R241). The significand's
hidden bit is counted in the exponent, so a significand of 2^24 carries into it. -/
def intToFloatBits (mode : Rounding) (neg : Bool) (m : Nat) : Nat :=
  if m = 0 then 0
  else (if neg then 2 ^ 31 else 0) + (Nat.log2 m + 126) * 2 ^ 23 + significand mode neg m (Nat.log2 m)

/-- `binary32(n, mode)` of a word read as a signed integer (49_float_accel R241). -/
def intToFloat (mode : Rounding) (w : Word) : Word :=
  BitVec.ofNat 32 (intToFloatBits mode (isNegative w) w.toInt.natAbs)

end Sys2Proof.Machine
end

