-- ==== Sys2Proof/Machine/Float.lean ====
section
/-! DEFINITION. The floating-point compares and conversions (49_float_accel R231 to R242). -/

namespace Sys2Proof.Machine

open Sys2Proof

/-- `x[fd] <- 1` if the condition holds of the relation of `x[ft]` (left) to `x[fs]` (right), else 0 (49_float_accel R239,
D33; log 23). -/
def compareFloat (holds : Relation → Bool) (ft fs fd : Reg) (s : State) : Answer State :=
  writeBack fd (boolWord (holds (floatRelation s ft fs))) s

/-- `c.f.s`: true on no relation (49_float_accel R231). -/
def execCFS (ft fs fd : Reg) (s : State) : Answer State := compareFloat (fun _ => false) ft fs fd s

/-- `c.un.s`: unordered (49_float_accel R232). -/
def execCUnS (ft fs fd : Reg) (s : State) : Answer State := compareFloat (fun r => r == .unordered) ft fs fd s

/-- `c.eq.s`: equal (49_float_accel R233). -/
def execCEqS (ft fs fd : Reg) (s : State) : Answer State := compareFloat (fun r => r == .equal) ft fs fd s

/-- `c.ngl.s`: equal or unordered (49_float_accel R234). -/
def execCNglS (ft fs fd : Reg) (s : State) : Answer State :=
  compareFloat (fun r => r == .equal || r == .unordered) ft fs fd s

/-- `c.lt.s`: less (49_float_accel R235). -/
def execCLtS (ft fs fd : Reg) (s : State) : Answer State := compareFloat (fun r => r == .less) ft fs fd s

/-- `c.nge.s`: less or unordered (49_float_accel R236). -/
def execCNgeS (ft fs fd : Reg) (s : State) : Answer State :=
  compareFloat (fun r => r == .less || r == .unordered) ft fs fd s

/-- `c.le.s`: less or equal (49_float_accel R237). -/
def execCLeS (ft fs fd : Reg) (s : State) : Answer State :=
  compareFloat (fun r => r == .less || r == .equal) ft fs fd s

/-- `c.ngt.s`: less, equal or unordered (49_float_accel R238). -/
def execCNgtS (ft fs fd : Reg) (s : State) : Answer State :=
  compareFloat (fun r => r == .less || r == .equal || r == .unordered) ft fs fd s

/-- `cvt.w.s`: rounds as `FP_CVT_W_S_ROUND` says (49_float_accel R240, D9). -/
def execCvtWS (fs fd : Reg) (s : State) : Answer State :=
  andThen (floatToInt s.params.cvtWSRound s.params.flushSubnormals (s.gpr fs)) fun v => writeBack fd v s

/-- `cvt.s.w`: rounds as `FP_CVT_S_W_ROUND` says where the integer is not representable (49_float_accel R241, D9). -/
def execCvtSW (fs fd : Reg) (s : State) : Answer State :=
  writeBack fd (intToFloat s.params.cvtSWRound (s.gpr fs)) s

/-- `trunc.w.s`: rounds toward zero (49_float_accel R242). -/
def execTruncWS (fs fd : Reg) (s : State) : Answer State :=
  andThen (floatToInt .towardZero s.params.flushSubnormals (s.gpr fs)) fun v => writeBack fd v s

end Sys2Proof.Machine
end

