-- ==== Sys2Proof/Machine/Jumps.lean ====
section
/-! DEFINITION. Unconditional jumps (45_jumps R180 to R185). There is no delay slot (70_reset R310). -/

namespace Sys2Proof.Machine

open Sys2Proof

/-- `j` (45_jumps R180, R181). -/
def execJ (target : BitVec 26) (s : State) : Answer State := .next (s.setPc (jumpTarget target s))

/-- `jr` (45_jumps R182). -/
def execJr (rs : Reg) (s : State) : Answer State := jumpTo (s.gpr rs) s

/-- `jalr`: equal registers fault first, then a misaligned target, both before the link is written (45_jumps R183, D23,
D12). -/
def execJalr (rs rd : Reg) (s : State) : Answer State :=
  if rs = rd then .fault .jalrSameRegister else jumpTo (s.gpr rs) (s.setGpr rd s.pcPlus4)

/-- `jal` (45_jumps R184). -/
def execJal (target : BitVec 26) (s : State) : Answer State :=
  .next ((s.setGpr 31#5 s.pcPlus4).setPc (jumpTarget target s))

end Sys2Proof.Machine
end

