-- ==== Sys2Proof/Machine/LoadStore.lean ====
section
/-! DEFINITION. Loads and stores (44_loads_stores R160 to R169). Each forms its address from the state before it (R160)
and checks the access before it changes anything (20_memory R48). -/

namespace Sys2Proof.Machine

open Sys2Proof

/-- `lw` (44_loads_stores R161). -/
def execLw (rs rt : Reg) (imm : BitVec 16) (s : State) : Answer State :=
  andThen (loadWord (effAddr rs imm s) s) fun w => writeBack rt w s

/-- `lh` (44_loads_stores R162). -/
def execLh (rs rt : Reg) (imm : BitVec 16) (s : State) : Answer State :=
  andThen (loadHalf (effAddr rs imm s) s) fun h => writeBack rt (sextHalf h) s

/-- `lhu` (44_loads_stores R163). -/
def execLhu (rs rt : Reg) (imm : BitVec 16) (s : State) : Answer State :=
  andThen (loadHalf (effAddr rs imm s) s) fun h => writeBack rt (zextHalf h) s

/-- `lb` (44_loads_stores R164). -/
def execLb (rs rt : Reg) (imm : BitVec 16) (s : State) : Answer State :=
  andThen (loadByte (effAddr rs imm s) s) fun b => writeBack rt (sextByte b) s

/-- `lbu` (44_loads_stores R165). -/
def execLbu (rs rt : Reg) (imm : BitVec 16) (s : State) : Answer State :=
  andThen (loadByte (effAddr rs imm s) s) fun b => writeBack rt (zextByte b) s

/-- `sw` (44_loads_stores R166). -/
def execSw (rs rt : Reg) (imm : BitVec 16) (s : State) : Answer State :=
  andThen (store .word (effAddr rs imm s) (s.gpr rt) s) fun t => .next t.advance

/-- `sh`: the low 16 bits of the register (44_loads_stores R167, D25). -/
def execSh (rs rt : Reg) (imm : BitVec 16) (s : State) : Answer State :=
  andThen (store .half (effAddr rs imm s) (s.gpr rt) s) fun t => .next t.advance

/-- `sb`: the low 8 bits of the register (44_loads_stores R168, D25). -/
def execSb (rs rt : Reg) (imm : BitVec 16) (s : State) : Answer State :=
  andThen (store .byte (effAddr rs imm s) (s.gpr rt) s) fun t => .next t.advance

end Sys2Proof.Machine
end

