-- ==== Sys2Proof/Machine/MulDiv.lean ====
section
/-! DEFINITION. Multiply, divide and remainder (42_muldiv R130 to R135). -/

namespace Sys2Proof.Machine

open Sys2Proof

/-- The operands of a signed division whose result the source leaves open: divisor 0, or -2^31 by -1 (42_muldiv R131). -/
def signedCorner (a b : Word) : Bool := decide (b.toInt = 0) || (decide (a.toInt = -2 ^ 31) && decide (b.toInt = -1))

/-- The operands of an unsigned division whose result the source leaves open: divisor 0 (42_muldiv R132). -/
def unsignedCorner (b : Word) : Bool := decide (b.toNat = 0)

/-- `div`: the quotient toward zero, or `DIV_CORNER` (42_muldiv R131, D8, D26). -/
def divWord (a b : Word) : Word :=
  if signedCorner a b then Config.divCorner .div a b else BitVec.ofInt 32 (a.toInt.tdiv b.toInt)

/-- `divu`: the quotient rounded down, or `DIV_CORNER` (42_muldiv R132, D8). -/
def divuWord (a b : Word) : Word :=
  if unsignedCorner b then Config.divCorner .divu a b else BitVec.ofNat 32 (a.toNat / b.toNat)

/-- `rem`: `a - b * trunc(a / b)`, or `DIV_CORNER` (42_muldiv R133, D8, D26). -/
def remWord (a b : Word) : Word :=
  if signedCorner a b then Config.divCorner .rem a b
  else BitVec.ofInt 32 (a.toInt - b.toInt * a.toInt.tdiv b.toInt)

/-- `remu`: `a mod b`, or `DIV_CORNER` (42_muldiv R134, D8). -/
def remuWord (a b : Word) : Word :=
  if unsignedCorner b then Config.divCorner .remu a b else BitVec.ofNat 32 (a.toNat % b.toNat)

/-- `mul`: the low 32 bits of the signed product (42_muldiv R130). -/
def execMul (rs rt rd : Reg) (s : State) : Answer State :=
  writeBack rd (BitVec.ofInt 32 ((s.gpr rs).toInt * (s.gpr rt).toInt)) s

/-- `div` (42_muldiv R131). -/
def execDiv (rs rt rd : Reg) (s : State) : Answer State := writeBack rd (divWord (s.gpr rs) (s.gpr rt)) s

/-- `divu` (42_muldiv R132). -/
def execDivu (rs rt rd : Reg) (s : State) : Answer State := writeBack rd (divuWord (s.gpr rs) (s.gpr rt)) s

/-- `rem` (42_muldiv R133). -/
def execRem (rs rt rd : Reg) (s : State) : Answer State := writeBack rd (remWord (s.gpr rs) (s.gpr rt)) s

/-- `remu` (42_muldiv R134). -/
def execRemu (rs rt rd : Reg) (s : State) : Answer State := writeBack rd (remuWord (s.gpr rs) (s.gpr rt)) s

end Sys2Proof.Machine
end

