-- ==== Sys2Proof/Machine/RegImm.lean ====
section
/-! DEFINITION. Register-immediate arithmetic, constant shifts and `nop` (43_reg_imm_arith R140 to R151). -/

namespace Sys2Proof.Machine

open Sys2Proof

/-- `addiu`: the immediate is sign-extended; modulo 2^32, no trap (43_reg_imm_arith R140). -/
def execAddiu (rs rt : Reg) (imm : BitVec 16) (s : State) : Answer State := writeBack rt (s.gpr rs + sextImm imm) s

/-- `lui` (43_reg_imm_arith R141). -/
def execLui (rt : Reg) (imm : BitVec 16) (s : State) : Answer State := writeBack rt (upperImm imm) s

/-- `ori`: the immediate is zero-extended (43_reg_imm_arith R142). -/
def execOri (rs rt : Reg) (imm : BitVec 16) (s : State) : Answer State := writeBack rt (s.gpr rs ||| zextImm imm) s

/-- `andi`: the immediate is zero-extended (43_reg_imm_arith R143). -/
def execAndi (rs rt : Reg) (imm : BitVec 16) (s : State) : Answer State := writeBack rt (s.gpr rs &&& zextImm imm) s

/-- `xori`: the immediate is zero-extended (43_reg_imm_arith R144). -/
def execXori (rs rt : Reg) (imm : BitVec 16) (s : State) : Answer State := writeBack rt (s.gpr rs ^^^ zextImm imm) s

/-- `slti` (43_reg_imm_arith R146). -/
def execSlti (rs rt : Reg) (imm : BitVec 16) (s : State) : Answer State :=
  writeBack rt (boolWord (ltSigned (s.gpr rs) (sextImm imm))) s

/-- `sltiu`: the immediate is sign-extended, the comparison unsigned (43_reg_imm_arith R145, R147). -/
def execSltiu (rs rt : Reg) (imm : BitVec 16) (s : State) : Answer State :=
  writeBack rt (boolWord (ltUnsigned (s.gpr rs) (sextImm imm))) s

/-- `sra` (43_reg_imm_arith R148). -/
def execSra (rt rd : Reg) (sa : BitVec 5) (s : State) : Answer State :=
  writeBack rd ((s.gpr rt).sshiftRight sa.toNat) s

/-- `srl` (43_reg_imm_arith R149). -/
def execSrl (rt rd : Reg) (sa : BitVec 5) (s : State) : Answer State := writeBack rd (s.gpr rt >>> sa.toNat) s

/-- `sll` (43_reg_imm_arith R150). -/
def execSll (rt rd : Reg) (sa : BitVec 5) (s : State) : Answer State := writeBack rd (s.gpr rt <<< sa.toNat) s

/-- `nop` (43_reg_imm_arith R151). -/
def execNop (s : State) : Answer State := .next s.advance

end Sys2Proof.Machine
end

