-- ==== Sys2Proof/Machine/RegReg.lean ====
section
/-! DEFINITION. Register-register arithmetic, logic, compare and shift (41_reg_reg_arith R110 to R121). -/

namespace Sys2Proof.Machine

open Sys2Proof

/-- `addu`: modulo 2^32, no trap (41_reg_reg_arith R111). -/
def execAddu (rs rt rd : Reg) (s : State) : Answer State := writeBack rd (s.gpr rs + s.gpr rt) s

/-- `subu`: modulo 2^32, no trap (41_reg_reg_arith R112). -/
def execSubu (rs rt rd : Reg) (s : State) : Answer State := writeBack rd (s.gpr rs - s.gpr rt) s

/-- `and` (41_reg_reg_arith R113). -/
def execAnd (rs rt rd : Reg) (s : State) : Answer State := writeBack rd (s.gpr rs &&& s.gpr rt) s

/-- `or` (41_reg_reg_arith R114). -/
def execOr (rs rt rd : Reg) (s : State) : Answer State := writeBack rd (s.gpr rs ||| s.gpr rt) s

/-- `xor` (41_reg_reg_arith R115). -/
def execXor (rs rt rd : Reg) (s : State) : Answer State := writeBack rd (s.gpr rs ^^^ s.gpr rt) s

/-- `nor`: the complement of all 32 bits (41_reg_reg_arith R116). -/
def execNor (rs rt rd : Reg) (s : State) : Answer State := writeBack rd (~~~(s.gpr rs ||| s.gpr rt)) s

/-- `slt` (41_reg_reg_arith R117). -/
def execSlt (rs rt rd : Reg) (s : State) : Answer State := writeBack rd (boolWord (ltSigned (s.gpr rs) (s.gpr rt))) s

/-- `sltu` (41_reg_reg_arith R118). -/
def execSltu (rs rt rd : Reg) (s : State) : Answer State :=
  writeBack rd (boolWord (ltUnsigned (s.gpr rs) (s.gpr rt))) s

/-- `srav`: the amount is in `rs`, the value in `rt` (41_reg_reg_arith R119). -/
def execSrav (rs rt rd : Reg) (s : State) : Answer State :=
  writeBack rd ((s.gpr rt).sshiftRight (shiftAmount (s.gpr rs))) s

/-- `srlv`: the amount is in `rs`, the value in `rt` (41_reg_reg_arith R120). -/
def execSrlv (rs rt rd : Reg) (s : State) : Answer State := writeBack rd (s.gpr rt >>> shiftAmount (s.gpr rs)) s

/-- `sllv`: the amount is in `rs`, the value in `rt` (41_reg_reg_arith R121). -/
def execSllv (rs rt rd : Reg) (s : State) : Answer State := writeBack rd (s.gpr rt <<< shiftAmount (s.gpr rs)) s

end Sys2Proof.Machine
end

