-- ==== Sys2Proof/Machine/Dispatch.lean ====
section
/-! DEFINITION. One arm per instruction, one direct call of its meaning. -/

namespace Sys2Proof.Machine

open Sys2Proof

def exec (i : Instr) (s : State) : Host.Outcome State Fault Refusal :=
  match i with
  | .mfc0 rt rd => Sys2Proof.Machine.execMfc0 rt rd s
  | .mtc0 rt rd => Sys2Proof.Machine.execMtc0 rt rd s
  | .addu rs rt rd => Sys2Proof.Machine.execAddu rs rt rd s
  | .subu rs rt rd => Sys2Proof.Machine.execSubu rs rt rd s
  | .and rs rt rd => Sys2Proof.Machine.execAnd rs rt rd s
  | .or rs rt rd => Sys2Proof.Machine.execOr rs rt rd s
  | .xor rs rt rd => Sys2Proof.Machine.execXor rs rt rd s
  | .nor rs rt rd => Sys2Proof.Machine.execNor rs rt rd s
  | .slt rs rt rd => Sys2Proof.Machine.execSlt rs rt rd s
  | .sltu rs rt rd => Sys2Proof.Machine.execSltu rs rt rd s
  | .srav rs rt rd => Sys2Proof.Machine.execSrav rs rt rd s
  | .srlv rs rt rd => Sys2Proof.Machine.execSrlv rs rt rd s
  | .sllv rs rt rd => Sys2Proof.Machine.execSllv rs rt rd s
  | .mul rs rt rd => Sys2Proof.Machine.execMul rs rt rd s
  | .div rs rt rd => Sys2Proof.Machine.execDiv rs rt rd s
  | .divu rs rt rd => Sys2Proof.Machine.execDivu rs rt rd s
  | .rem rs rt rd => Sys2Proof.Machine.execRem rs rt rd s
  | .remu rs rt rd => Sys2Proof.Machine.execRemu rs rt rd s
  | .addiu rs rt imm => Sys2Proof.Machine.execAddiu rs rt imm s
  | .lui rt imm => Sys2Proof.Machine.execLui rt imm s
  | .ori rs rt imm => Sys2Proof.Machine.execOri rs rt imm s
  | .andi rs rt imm => Sys2Proof.Machine.execAndi rs rt imm s
  | .xori rs rt imm => Sys2Proof.Machine.execXori rs rt imm s
  | .slti rs rt imm => Sys2Proof.Machine.execSlti rs rt imm s
  | .sltiu rs rt imm => Sys2Proof.Machine.execSltiu rs rt imm s
  | .sra rt rd sa => Sys2Proof.Machine.execSra rt rd sa s
  | .srl rt rd sa => Sys2Proof.Machine.execSrl rt rd sa s
  | .sll rt rd sa => Sys2Proof.Machine.execSll rt rd sa s
  | .lw rs rt imm => Sys2Proof.Machine.execLw rs rt imm s
  | .lh rs rt imm => Sys2Proof.Machine.execLh rs rt imm s
  | .lhu rs rt imm => Sys2Proof.Machine.execLhu rs rt imm s
  | .lb rs rt imm => Sys2Proof.Machine.execLb rs rt imm s
  | .lbu rs rt imm => Sys2Proof.Machine.execLbu rs rt imm s
  | .sw rs rt imm => Sys2Proof.Machine.execSw rs rt imm s
  | .sh rs rt imm => Sys2Proof.Machine.execSh rs rt imm s
  | .sb rs rt imm => Sys2Proof.Machine.execSb rs rt imm s
  | .j target => Sys2Proof.Machine.execJ target s
  | .jr rs => Sys2Proof.Machine.execJr rs s
  | .jalr rs rd => Sys2Proof.Machine.execJalr rs rd s
  | .jal target => Sys2Proof.Machine.execJal target s
  | .beq rs rt imm => Sys2Proof.Machine.execBeq rs rt imm s
  | .bne rs rt imm => Sys2Proof.Machine.execBne rs rt imm s
  | .bgtz rs imm => Sys2Proof.Machine.execBgtz rs imm s
  | .bltz rs imm => Sys2Proof.Machine.execBltz rs imm s
  | .bgez rs imm => Sys2Proof.Machine.execBgez rs imm s
  | .blez rs imm => Sys2Proof.Machine.execBlez rs imm s
  | .movn rs rt rd => Sys2Proof.Machine.execMovn rs rt rd s
  | .movz rs rt rd => Sys2Proof.Machine.execMovz rs rt rd s
  | .amoAdd rs rt rd => Sys2Proof.Machine.execAmoAdd rs rt rd s
  | .amoAnd rs rt rd => Sys2Proof.Machine.execAmoAnd rs rt rd s
  | .amoOr rs rt rd => Sys2Proof.Machine.execAmoOr rs rt rd s
  | .sync => Sys2Proof.Machine.execSync s
  | .syscall => Sys2Proof.Machine.execSyscall s
  | .eret => Sys2Proof.Machine.execEret s
  | .cFS ft fs fd => Sys2Proof.Machine.execCFS ft fs fd s
  | .cUnS ft fs fd => Sys2Proof.Machine.execCUnS ft fs fd s
  | .cEqS ft fs fd => Sys2Proof.Machine.execCEqS ft fs fd s
  | .cNglS ft fs fd => Sys2Proof.Machine.execCNglS ft fs fd s
  | .cLtS ft fs fd => Sys2Proof.Machine.execCLtS ft fs fd s
  | .cNgeS ft fs fd => Sys2Proof.Machine.execCNgeS ft fs fd s
  | .cLeS ft fs fd => Sys2Proof.Machine.execCLeS ft fs fd s
  | .cNgtS ft fs fd => Sys2Proof.Machine.execCNgtS ft fs fd s
  | .cvtWS fs fd => Sys2Proof.Machine.execCvtWS fs fd s
  | .cvtSW fs fd => Sys2Proof.Machine.execCvtSW fs fd s
  | .truncWS fs fd => Sys2Proof.Machine.execTruncWS fs fd s
  | .mtx rs rt accelId => Sys2Proof.Machine.execMtx rs rt accelId s
  | .mfx rs rt accelId => Sys2Proof.Machine.execMfx rs rt accelId s
  | .mtxr rs rt rAccel => Sys2Proof.Machine.execMtxr rs rt rAccel s
  | .mfxr rs rt rAccel => Sys2Proof.Machine.execMfxr rs rt rAccel s
  | .nop => Sys2Proof.Machine.execNop s

end Sys2Proof.Machine
end

