-- ==== Sys2Proof/Machine/Step.lean ====
section
/-! DEFINITION. One step (70_reset R304): an agent outside the core acts, or the core fetches, decodes and executes one
instruction; and how a test places an instruction where the step fetches it. -/

namespace Sys2Proof.Machine

open Sys2Proof

/-- The core's step: fetch, decode, execute. A stalled core's step is a next state in which the core is unchanged. -/
def coreStep (s : State) : Host.Outcome State Fault Refusal := andThen (fetchInstr s) fun i => exec i s

/-- One step of the machine: the turn of one agent (70_reset R304). Every state between two acts is the answer of a step. -/
def step (s : State) : Host.Outcome State Fault Refusal :=
  match nextAct s with
  | some x => .next (applyInput s.takeTurn x)
  | none => coreStep s.takeTurn

/-- The state with the `nbits`-bit instruction `w` in memory at `pc`, as a loader leaves it, and the core's turn next (70_reset
R301; log 41). -/
def State.withFetchWord (s : State) (nbits w : Nat) : State :=
  (s.placeWord s.pc (BitVec.ofNat 32 (w % 2 ^ nbits))).coreNext

end Sys2Proof.Machine
end

