-- ==== Sys2Proof/Safety.lean ====
section
/-! DEFINITION. What statements say about the machine: what an instruction may change, the row an instruction has in the
opcode table, the invariant of a run, the end of a run, and the exact value of a single-precision pattern. -/

namespace Sys2Proof.Machine

open Sys2Proof

/-! ### What stays the same -/

/-- Every general register reads the same. -/
def SameGprs (s t : State) : Prop := ∀ q : Reg, t.gpr q = s.gpr q

/-- Every byte of memory reads the same, and no byte was stored to. -/
structure SameMemory (s t : State) : Prop where
  bytes : ∀ n : Nat, Memory.read n t.mem = Memory.read n s.mem
  storedTo : t.storedTo = s.storedTo

/-- Coprocessor 0 holds the same: cpr21, and the FIFOs behind cpr1 and cpr2 (10_state R18 to R20). -/
structure SameCp0 (s t : State) : Prop where
  statsEn : t.statsEn = s.statsEn
  mngr2proc : t.mngr2proc = s.mngr2proc
  proc2mngr : t.proc2mngr = s.proc2mngr
  proc2mngrReady : t.proc2mngrReady = s.proc2mngrReady
  received : t.received = s.received

/-- Every special register holds the same: `epc` (10_state R16) and coprocessor 0. -/
structure SameSpecial (s t : State) : Prop where
  epc : t.epc = s.epc
  cp0 : SameCp0 s t

/-- Everything outside the core is the same: accelerators, the coming turns, parameters. -/
structure SameOutside (s t : State) : Prop where
  xcels : t.xcels = s.xcels
  turns : t.turns = s.turns
  params : t.params = s.params

/-- Register `d` now reads `v` (0 if `d` is `r0`), every other register reads the same (10_state R11). -/
def GprBecomes (s t : State) (d : Reg) (v : Word) : Prop :=
  ∀ q : Reg, t.gpr q = if q = 0#5 then 0#32 else if q = d then v else s.gpr q

/-- The next instruction is the one at `pc + 4` modulo 2^32 (00_scope R5, 10_state R15). -/
def GoesOn (s t : State) : Prop := t.pc.toNat = (s.pc.toNat + 4) % 2 ^ 32

/-- All that an instruction with one destination register does: `x[d] <- v; pc <- pc + 4`, and nothing else. -/
structure Writes (s t : State) (d : Reg) (v : Word) : Prop where
  gprs : GprBecomes s t d v
  pc : GoesOn s t
  special : SameSpecial s t
  memory : SameMemory s t
  outside : SameOutside s t

/-- All that a jump or a branch does: `pc <- target`, and nothing else. -/
structure OnlyPc (s t : State) (target : Word) : Prop where
  pc : t.pc = target
  gprs : SameGprs s t
  special : SameSpecial s t
  memory : SameMemory s t
  outside : SameOutside s t

/-- The physical address that byte `k` of an access at `a` reaches: `a + k`, its low `PA_BITS` bits (20_memory R43, R44; 2^32 is
a multiple of 2^`PA_BITS`, so reducing the sum modulo 2^32 first changes nothing). -/
def byteOf (p : Params) (a : Word) (k : Nat) : Nat := (a.toNat + k) % 2 ^ paBits p

/-- Memory after the bytes `bytes` have been stored at address `a`: byte `k` is where `a + k` reaches, unless a later byte of
them reaches the same place, every other place reads as before, and exactly those places joined the stored-to ones (20_memory
R43, R47, R60). Two bytes reach one place only with `PA_BITS` = 1 (log 6). -/
structure MemoryGets (s t : State) (a : Word) (bytes : List Byte) : Prop where
  stored : ∀ k (h : k < bytes.length), (∀ j, k < j → j < bytes.length → byteOf s.params a j ≠ byteOf s.params a k) →
    Memory.read (byteOf s.params a k) t.mem = some bytes[k]
  others : ∀ n : Nat, (∀ k < bytes.length, byteOf s.params a k ≠ n) → Memory.read n t.mem = Memory.read n s.mem
  storedTo : ∀ n : Nat, n ∈ t.storedTo ↔ (∃ k < bytes.length, byteOf s.params a k = n) ∨ n ∈ s.storedTo

/-- All that a store does: the bytes go to memory at address `a`, `pc <- pc + 4`, and nothing else. -/
structure Stores (s t : State) (a : Word) (bytes : List Byte) : Prop where
  memory : MemoryGets s t a bytes
  gprs : SameGprs s t
  pc : GoesOn s t
  special : SameSpecial s t
  outside : SameOutside s t

/-- Memory has been placed where each of the `n` bytes from address `a` on reaches (20_memory R45). -/
def Placed (p : Params) (a : Word) (n : Nat) : Prop := ∀ k < n, isPopulated p (byteOf p a k) = true

/-- Byte `k` of an access at `a` holds this value. -/
def HoldsByte (s : State) (a : Word) (k : Nat) (b : Byte) : Prop := Memory.read (byteOf s.params a k) s.mem = some b

/-- The four bytes of an access at `a` hold these values, lowest address first. -/
def HoldsWord (s : State) (a : Word) (b0 b1 b2 b3 : Byte) : Prop :=
  HoldsByte s a 0 b0 ∧ HoldsByte s a 1 b1 ∧ HoldsByte s a 2 b2 ∧ HoldsByte s a 3 b3

/-- What a word stored to memory reads back as: itself, but with `PA_BITS` = 1, where its bytes 2 and 3 replace bytes 0 and 1
(20_memory R43, R47; log 6). -/
def wordThroughMemory (p : Params) (v : Word) : Word :=
  if paBits p = 1 then v.extractLsb' 16 16 ++ v.extractLsb' 16 16 else v

/-- The number that bytes make when the first is the least significant (20_memory R40). -/
def littleEndian : List Byte → Nat
  | [] => 0
  | b :: rest => b.toNat + 256 * littleEndian rest

/-! ### Instructions as syntax -/

/-- The row of an instruction in the opcode table: the words with these fixed bits, and no other, decode to it, and it first
appears in version `v` (30_encoding R83, R84). -/
def IsRow (mask pattern : Word) (v : Version) (i : Word → Instr) : Prop :=
  ∀ w : Word, (decode w = .ok (i w) ↔ w &&& mask = pattern) ∧ (i w).version = v

/-- The general register an instruction may write (10_state R13). -/
def destinationOf : Instr → Option Reg
  | .mfc0 rt _ => some rt
  | .addu _ _ rd | .subu _ _ rd | .and _ _ rd | .or _ _ rd | .xor _ _ rd | .nor _ _ rd | .slt _ _ rd | .sltu _ _ rd
  | .srav _ _ rd | .srlv _ _ rd | .sllv _ _ rd | .mul _ _ rd | .div _ _ rd | .divu _ _ rd | .rem _ _ rd
  | .remu _ _ rd => some rd
  | .addiu _ rt _ | .lui rt _ | .ori _ rt _ | .andi _ rt _ | .xori _ rt _ | .slti _ rt _ | .sltiu _ rt _ => some rt
  | .sra _ rd _ | .srl _ rd _ | .sll _ rd _ => some rd
  | .lw _ rt _ | .lh _ rt _ | .lhu _ rt _ | .lb _ rt _ | .lbu _ rt _ => some rt
  | .jalr _ rd => some rd
  | .jal _ => some 31#5
  | .movn _ _ rd | .movz _ _ rd | .amoAdd _ _ rd | .amoAnd _ _ rd | .amoOr _ _ rd => some rd
  | .cFS _ _ fd | .cUnS _ _ fd | .cEqS _ _ fd | .cNglS _ _ fd | .cLtS _ _ fd | .cNgeS _ _ fd | .cLeS _ _ fd
  | .cNgtS _ _ fd | .cvtWS _ fd | .cvtSW _ fd | .truncWS _ fd => some fd
  | .mfx _ rt _ | .mfxr _ rt _ => some rt
  | .mtc0 _ _ | .sw _ _ _ | .sh _ _ _ | .sb _ _ _ | .j _ | .jr _ | .beq _ _ _ | .bne _ _ _ | .bgtz _ _ | .bltz _ _
  | .bgez _ _ | .blez _ _ | .sync | .syscall | .eret | .mtx _ _ _ | .mtxr _ _ _ | .nop => none

/-- The width and the address of the store an instruction makes, if it makes one (20_memory R51, 44_loads_stores R166 to
R168, 47_cond_moves_amo_sync R202). -/
def storeTarget (s : State) : Instr → Option (Width × Word)
  | .sw rs _ imm => some (.word, effAddr rs imm s)
  | .sh rs _ imm => some (.half, effAddr rs imm s)
  | .sb rs _ imm => some (.byte, effAddr rs imm s)
  | .amoAdd rs _ _ | .amoAnd rs _ _ | .amoOr rs _ _ => some (.word, s.gpr rs)
  | .mfc0 _ _ | .mtc0 _ _ | .addu _ _ _ | .subu _ _ _ | .and _ _ _ | .or _ _ _ | .xor _ _ _ | .nor _ _ _ | .slt _ _ _
  | .sltu _ _ _ | .srav _ _ _ | .srlv _ _ _ | .sllv _ _ _ | .mul _ _ _ | .div _ _ _ | .divu _ _ _ | .rem _ _ _
  | .remu _ _ _ | .addiu _ _ _ | .lui _ _ | .ori _ _ _ | .andi _ _ _ | .xori _ _ _ | .slti _ _ _ | .sltiu _ _ _
  | .sra _ _ _ | .srl _ _ _ | .sll _ _ _ | .lw _ _ _ | .lh _ _ _ | .lhu _ _ _ | .lb _ _ _ | .lbu _ _ _ | .j _ | .jr _
  | .jalr _ _ | .jal _ | .beq _ _ _ | .bne _ _ _ | .bgtz _ _ | .bltz _ _ | .bgez _ _ | .blez _ _ | .movn _ _ _
  | .movz _ _ _ | .sync | .syscall | .eret | .cFS _ _ _ | .cUnS _ _ _ | .cEqS _ _ _ | .cNglS _ _ _ | .cLtS _ _ _
  | .cNgeS _ _ _ | .cLeS _ _ _ | .cNgtS _ _ _ | .cvtWS _ _ | .cvtSW _ _ | .truncWS _ _ | .mtx _ _ _ | .mfx _ _ _
  | .mtxr _ _ _ | .mfxr _ _ _ | .nop => none

/-- The instruction must wait: it reads an empty cpr1, writes a cpr2 that is not ready (10_state R18, R19), or makes a move that
its accelerator makes wait (49_float_accel R249; log 30). -/
def MustWait (s : State) (i : Instr) : Prop :=
  (∃ rt, i = .mfc0 rt 1#5 ∧ s.mngr2proc = []) ∨ (∃ rt, i = .mtc0 rt 2#5 ∧ s.proc2mngrReady = false) ∨
    ∃ rs rt id st, xcelFind id s.xcels = some st ∧
      (((∃ a : BitVec 11, i = .mtx rs rt a ∧ id = BitVec.ofNat 32 a.toNat) ∨ ∃ q, i = .mtxr rs rt q ∧ id = s.gpr q) ∧
          st.writeWaits.getLsbD rs.toNat = true ∨
        ((∃ a : BitVec 11, i = .mfx rs rt a ∧ id = BitVec.ofNat 32 a.toNat) ∨ ∃ q, i = .mfxr rs rt q ∧ id = s.gpr q) ∧
          st.readWaits.getLsbD rs.toNat = true)

/-! ### Runs -/

/-- What every state of a run from reset satisfies: `pc` and `epc` are multiples of 4 (10_state R15), memory is in canonical
form and within the physical memory (20_memory R44), the stored-to addresses are rising and hold values (20_memory R60),
slot 0 of the register file is 0 (10_state R11), no two accelerators share an id (10_state R26), and `COREID` is one of 0 ..
`NUMCORES` - 1 (10_state R22, 60_exceptions R277). -/
structure Inv (s : State) : Prop where
  pcAligned : s.pc.toNat % 4 = 0
  epcAligned : s.epc.toNat % 4 = 0
  zeroSlot : s.regs[0] = 0#32
  memWf : Memory.wf s.mem
  memInRange : ∀ c ∈ s.mem, c.1 < 2 ^ paBits s.params
  storedRising : s.storedTo.Pairwise (· < ·)
  storedHold : ∀ n ∈ s.storedTo, (Memory.read n s.mem).isSome
  xcelIds : (s.xcels.map (·.id)).Nodup
  coreIds : s.params.coresInRange

/-- `END_OF_RUN` (a): the manager has received `n` words (70_reset_and_hazards R305, D17). The manager takes a word in a step
of its own, so the first state of which this holds is the state at that moment. -/
def endsByWords (n : Nat) (s : State) : Bool := decide (n ≤ s.received.length)

/-- `END_OF_RUN` (b): `pc` has reached `END_PC`, before the instruction there executes (70_reset_and_hazards R305, D17). -/
def endsAtPc (endPc : Word) (s : State) : Bool := decide (s.pc = endPc)

/-- The words that the coming step's outside act offers to `mngr2proc` (70_reset_and_hazards R304). -/
def offeredWords (s : State) : List Word :=
  match nextAct s with
  | some (.offer w) => [w]
  | some .take => []
  | some (.setReady _) => []
  | some (.otherStore _ _ _) => []
  | some (.xcelActs _ _) => []
  | none => []

/-! ### Single-precision values -/

/-- The pattern is a NaN (49_float_accel R230). -/
def FloatIsNan (w : Word) : Prop := (w.extractLsb' 23 8).toNat = 255 ∧ (w.extractLsb' 0 23).toNat ≠ 0

/-- The pattern is an infinity (49_float_accel R230). -/
def FloatIsInf (w : Word) : Prop := (w.extractLsb' 23 8).toNat = 255 ∧ (w.extractLsb' 0 23).toNat = 0

/-- The value of a pattern that is neither a NaN nor an infinity, by the formula of 49_float_accel R230; a subnormal is zero
where `flush` is set (D27). -/
def floatValue (flush : Bool) (w : Word) : ℚ :=
  let sign : ℚ := if w.getLsbD 31 then -1 else 1
  let e : Nat := (w.extractLsb' 23 8).toNat
  let f : ℚ := ((w.extractLsb' 0 23).toNat : ℚ)
  if e = 0 then if flush then 0 else sign * f * 2 ^ (-149 : Int)
  else sign * (1 + f * 2 ^ (-23 : Int)) * 2 ^ ((e : Int) - 127)

/-- `a < b` for two patterns: neither is a NaN, and -infinity, the finite values in their order, +infinity is the order
(49_float_accel R239). -/
def FloatLess (flush : Bool) (a b : Word) : Prop :=
  ¬FloatIsNan a ∧ ¬FloatIsNan b ∧
    ((FloatIsInf a ∧ a.getLsbD 31 = true ∧ ¬(FloatIsInf b ∧ b.getLsbD 31 = true)) ∨
      (FloatIsInf b ∧ b.getLsbD 31 = false ∧ ¬(FloatIsInf a ∧ a.getLsbD 31 = false)) ∨
      (¬FloatIsInf a ∧ ¬FloatIsInf b ∧ floatValue flush a < floatValue flush b))

/-- `a = b` for two patterns: infinities of one sign, or finite values that are equal; +0 and -0 are (49_float_accel R239). -/
def FloatEqual (flush : Bool) (a b : Word) : Prop :=
  (FloatIsInf a ∧ FloatIsInf b ∧ a.getLsbD 31 = b.getLsbD 31) ∨
    (¬FloatIsNan a ∧ ¬FloatIsNan b ∧ ¬FloatIsInf a ∧ ¬FloatIsInf b ∧ floatValue flush a = floatValue flush b)

/-- One of the two patterns is a NaN (49_float_accel R239). -/
def FloatUnordered (a b : Word) : Prop := FloatIsNan a ∨ FloatIsNan b

/-- The pattern converts to a 32-bit integer: neither a NaN nor an infinity, and `-2^31 <= v < 2^31` (49_float_accel R240). -/
def FloatConverts (flush : Bool) (w : Word) : Prop :=
  ¬FloatIsNan w ∧ ¬FloatIsInf w ∧ -(2 ^ 31 : ℚ) ≤ floatValue flush w ∧ floatValue flush w < (2 ^ 31 : ℚ)

/-- A rational number without its fraction (49_float_accel R242 `trunc`). -/
def truncQ (v : ℚ) : Int := if 0 ≤ v then ⌊v⌋ else ⌈v⌉

/-- `n` is the integer that `v` rounds to in a direction (00_scope R4, D9). -/
def RoundsTo (mode : Rounding) (v : ℚ) (n : Int) : Prop :=
  match mode with
  | .nearestEven => |v - n| ≤ 1 / 2 ∧ (|v - n| = 1 / 2 → n % 2 = 0)
  | .nearestAway => |v - n| ≤ 1 / 2 ∧ (|v - n| = 1 / 2 → |v| < |(n : ℚ)|)
  | .towardZero => n = truncQ v
  | .towardPositive => n = ⌈v⌉
  | .towardNegative => n = ⌊v⌋

end Sys2Proof.Machine
end

