-- ==== Sys2Proof/Certificates/Slice0/Obligations.lean ====
section
/-! DEFINITION. The statements for the provers. Each docstring says which rule of the spec the statement formalises, and,
where a clause rests on a choice, which log entry (notes/assumptions) or decision (92_eei_decisions) it is. -/

open Sys2Proof Sys2Proof.Machine

/-! ### Encoding -/

/-- Decoding the word of any well-formed instruction gives it back, with every operand at every value (30_encoding R83,
R84); so does decoding its four bytes, whatever follows them (20_memory R41). -/
def Obligations.DecodeEncodeAgree : Prop :=
  ∀ (i : Instr) (rest : List Byte), i.wellFormed = true →
    decode (encode i) = .ok i ∧ decodeBytes (encodeBytes i ++ rest) = .ok (i, rest)

/-- A word that decodes is the word of the instruction it decodes to: no bit of it is dropped, so a fixed field with another
value is never accepted (30_encoding R91). -/
def Obligations.EncodeDecodeAgree : Prop :=
  ∀ (w : Word) (i : Instr), decode w = .ok i → encode i = w ∧ i.wellFormed = true

/-- Words written out from the spec's encodings decode to the instructions they stand for, one for each format. -/
def Obligations.SampleWordsDecode : Prop :=
  decode 0b00000000001000100001100000100001#32 = .ok (.addu 1 2 3) ∧
    decode 0b00100100001000101111111111111111#32 = .ok (.addiu 1 2 0xFFFF) ∧
    decode 0b00001000000000000000010000000100#32 = .ok (.j 0x404) ∧
    decode 0b01000100000000000000100011100100#32 = .ok (.cvtWS 1 3) ∧
    decode 0b01000110000000010001000011111100#32 = .ok (.cLtS 1 2 3) ∧
    decode 0b01001000001000100000100000000101#32 = .ok (.mfx 1 2 5) ∧
    decode 0b01000000100000110000000000000000#32 = .ok (.mtc0 3 0) ∧
    decode 0b10011100001000100001100000000101#32 = .ok (.div 1 2 3)

/-- The versions are nested: what a version has, every later one has (00_scope R1); and a PARCv1 launch has exactly the
instructions that R1 lists for PARCv1 among those its words decode to (`nop` whatever `ADMIT_GK_ENCODINGS` is: log 42). -/
def Obligations.VersionsAreNested : Prop :=
  (∀ (p : Params) (v : Version) (w : Word) (i : Instr), Version.le p.version v = true → decodeFor p w = .ok i →
    decodeFor { p with version := v } w = .ok i) ∧
  ∀ (p : Params) (w : Word) (i : Instr), p.version = .parcV1 → decode w = .ok i →
    (decodeFor p w = .ok i ↔
      (∃ rs rt rd, i = .addu rs rt rd) ∨ (∃ rs rt imm, i = .addiu rs rt imm) ∨ (∃ rs rt rd, i = .mul rs rt rd) ∨
        i = .nop ∨ (∃ rs rt imm, i = .lw rs rt imm) ∨ (∃ rs rt imm, i = .sw rs rt imm) ∨ (∃ a, i = .j a) ∨
        (∃ a, i = .jal a) ∨ (∃ rs, i = .jr rs) ∨ (∃ rs rt imm, i = .bne rs rt imm) ∨ (∃ rt rd, i = .mfc0 rt rd) ∨
        (∃ rt rd, i = .mtc0 rt rd))

/-! ### The step -/

/-- A step is one agent's turn (70_reset_and_hazards R304, log 29). On the core's turn it is the meaning of the instruction that
the four bytes at `pc` encode, lowest address least significant (20_memory R41, R43, R44, R50); taking the turn changes
nothing but the turns, and nothing at all when none is listed. On another agent's turn it is that agent's act, which touches
no register, no `pc`, `epc` or cpr21, and no parameter (another core's store is in memory at once: log 43). The fault of a stored-to word is R60's (D16). -/
def Obligations.StepRunsDecodedInstruction : Prop :=
  ∀ s : State,
    (∀ (i : Instr) (b0 b1 b2 b3 : Byte), nextAct s = none → s.pc.toNat % 4 = 0 → Placed s.params s.pc 4 →
      HoldsWord s s.pc b0 b1 b2 b3 → (∀ k < 4, byteOf s.params s.pc k ∉ s.storedTo) →
      decodeFor s.params (BitVec.ofNat 32 (littleEndian [b0, b1, b2, b3])) = .ok i →
      step s = exec i s.takeTurn ∧ SameGprs s s.takeTurn ∧ s.takeTurn.pc = s.pc ∧ SameSpecial s s.takeTurn ∧
        SameMemory s s.takeTurn ∧ s.takeTurn.xcels = s.xcels ∧ s.takeTurn.params = s.params ∧
        s.takeTurn.turns = s.turns.tail ∧ (s.turns = [] → s.takeTurn = s)) ∧
    ∀ x, nextAct s = some x → ∃ t, step s = .next t ∧ t = applyInput s.takeTurn x ∧ SameGprs s t ∧ t.pc = s.pc ∧
      t.epc = s.epc ∧ t.statsEn = s.statsEn ∧ t.params = s.params ∧ t.turns = s.turns.tail

/-- A word placed at `pc` from outside is what the next step runs (70_reset_and_hazards R301; the placing is the model's
stand-in for a load, log 41), and placing it changes no register; where it is another agent's turn the core's is put first.
With `PA_BITS` = 1, where memory has room for half a word only, the word's halves must be equal (log 6). -/
def Obligations.PlacedWordRuns : Prop :=
  ∀ (s : State) (w : Word) (i : Instr), s.pc.toNat % 4 = 0 → Placed s.params s.pc 4 →
    wordThroughMemory s.params w = w → decodeFor s.params w = .ok i →
    step (s.withFetchWord 32 w.toNat) = exec i (s.withFetchWord 32 w.toNat).takeTurn ∧
      SameGprs s (s.withFetchWord 32 w.toNat) ∧ SameSpecial s (s.withFetchWord 32 w.toNat) ∧
      (s.withFetchWord 32 w.toNat).pc = s.pc ∧
      (nextAct s = none → (s.withFetchWord 32 w.toNat).turns = s.turns)

/-- The ways a fetch stops, in the order of 60_exceptions R265: a byte of the word was stored to (20_memory R60, D16); no
memory was placed there (R45, a refusal); a byte of it holds no value (10_state R30, D18, log 4); the word is no instruction
of the launch, and is recorded with its address (30_encoding R90, D13). -/
def Obligations.FetchStopsInOrder : Prop :=
  ∀ s : State, nextAct s = none → s.pc.toNat % 4 = 0 →
    ((∃ k < 4, byteOf s.params s.pc k ∈ s.storedTo) → step s = .fault (.fetchAfterStore s.pc)) ∧
    ((∀ k < 4, byteOf s.params s.pc k ∉ s.storedTo) →
      (¬Placed s.params s.pc 4 → step s = .refused (.unpopulated s.pc)) ∧
      (Placed s.params s.pc 4 →
        ((∃ k < 4, Memory.read (byteOf s.params s.pc k) s.mem = none) → step s = .fault (.readOfUnwritten s.pc)) ∧
        ∀ b0 b1 b2 b3 why, HoldsWord s s.pc b0 b1 b2 b3 →
          decodeFor s.params (BitVec.ofNat 32 (littleEndian [b0, b1, b2, b3])) = .error why →
          step s = .fault (.undefinedInstruction (BitVec.ofNat 32 (littleEndian [b0, b1, b2, b3])) s.pc why)))

/-- No step forgets that a byte was stored to, and right after a storing instruction no word that holds one of the bytes it
stored can be fetched (20_memory R60, D16, log 32). -/
def Obligations.StoredWordsDoNotFetch : Prop :=
  (∀ (s t : State) (n : Nat), step s = .next t → n ∈ s.storedTo → n ∈ t.storedTo) ∧
  ∀ (i : Instr) (s t : State) (width : Width) (a : Word), exec i s = .next t → storeTarget s i = some (width, a) →
    ∀ pc : Word, pc.toNat % 4 = 0 →
      (∃ n ∈ physBytes s.params .word pc, n ∈ physBytes s.params width a) →
      fetchWord (t.setPc pc) = .fault (.fetchAfterStore pc)

/-! ### Memory -/

/-- `MemRead(addr, n)` for `n` in 1, 2, 4 (20_memory R46): with `p = addr mod 2^PA_BITS`, the value whose bits 8k+7 : 8k are
the byte at `p + k`. It answers a value only, no state. Byte `k` is where `addr + k` reaches (R43, R44), which is `p + k`
wherever physical memory has `n` bytes; with `PA_BITS` = 1 a word has no `p + 2` and `p + 3` in memory, and that its bytes are
then 0, 1, 0, 1 is deduced from R43 and R44 (log 6). -/
def Obligations.MemReadRule : Prop :=
  (∀ (p : Params) (a : Word) (n k : Nat), n = 1 ∨ n = 2 ∨ n = 4 → n ≤ 2 ^ paBits p → a.toNat % n = 0 → k < n →
    byteOf p a k = a.toNat % 2 ^ paBits p + k) ∧
  ∀ (s : State) (a : Word) (b0 b1 b2 b3 : Byte),
    (a.toNat % 4 = 0 → Placed s.params a 4 → HoldsWord s a b0 b1 b2 b3 →
      loadWord a s = .next (BitVec.ofNat 32 (littleEndian [b0, b1, b2, b3]))) ∧
    (a.toNat % 2 = 0 → Placed s.params a 2 → HoldsByte s a 0 b0 → HoldsByte s a 1 b1 →
      loadHalf a s = .next (BitVec.ofNat 16 (littleEndian [b0, b1]))) ∧
    (Placed s.params a 1 → HoldsByte s a 0 b0 → loadByte a s = .next b0)

/-- `MemWrite(addr, n, v)` for `n` in 1, 2, 4 (20_memory R47, R43): the byte where `addr + k` reaches becomes bits 8k+7 : 8k of
the value for `k` < `n`; no other byte changes, and nothing else of the machine but the record of stored-to bytes, which
exactly those join (R60, D16, log 32). A register wider than the access gives its low bits. -/
def Obligations.MemWriteRule : Prop :=
  ∀ (width : Width) (a v : Word) (s : State), a.toNat % widthBytes width = 0 → Placed s.params a (widthBytes width) →
    ∃ t, store width a v s = .next t ∧
      MemoryGets s t a ((List.range (widthBytes width)).map fun k => BitVec.ofNat 8 (v.toNat / 2 ^ (8 * k))) ∧
      SameGprs s t ∧ t.pc = s.pc ∧ SameSpecial s t ∧ SameOutside s t

/-- Accesses of different widths see the bytes where little-endian order puts them (20_memory R42): after a word is stored,
its bytes and halfwords read back from inside it; after one byte is stored on top, the word reads back with that byte. With
`PA_BITS` = 1 the last of the bytes that share a place is what reads back (R43, R47; log 6). -/
def Obligations.NarrowAndWideAccesses : Prop :=
  ∀ (s t u : State) (a v x y : Word), store .word a v s = .next t → store .byte a x t = .next u →
    y = wordThroughMemory s.params v →
    loadByte a t = .next (BitVec.ofNat 8 y.toNat) ∧
    loadByte (a + 1#32) t = .next (BitVec.ofNat 8 (y.toNat / 2 ^ 8)) ∧
    loadByte (a + 2#32) t = .next (BitVec.ofNat 8 (y.toNat / 2 ^ 16)) ∧
    loadByte (a + 3#32) t = .next (BitVec.ofNat 8 (y.toNat / 2 ^ 24)) ∧
    loadHalf a t = .next (BitVec.ofNat 16 y.toNat) ∧
    loadHalf (a + 2#32) t = .next (BitVec.ofNat 16 (y.toNat / 2 ^ 16)) ∧
    loadWord a t = .next y ∧
    (2 ≤ paBits s.params → loadWord a u = .next (BitVec.ofNat 32 (v.toNat / 2 ^ 8 * 2 ^ 8 + x.toNat % 2 ^ 8)))

/-- Where a load, a store or an atomic stops: at a misaligned address (20_memory R48, D11); else where no memory was placed
(R45); else, if it reads, at a byte without a value (10_state R30, D18, log 4). It then changes nothing. -/
def Obligations.DataAccessStops : Prop :=
  ∀ (s : State) (rs rt rd : Reg) (imm : BitVec 16),
    (∀ a, a = effAddr rs imm s →
      (a.toNat % 4 ≠ 0 →
        exec (.lw rs rt imm) s = .fault (.misalignedData a) ∧ exec (.sw rs rt imm) s = .fault (.misalignedData a)) ∧
      (a.toNat % 4 = 0 → ¬Placed s.params a 4 →
        exec (.lw rs rt imm) s = .refused (.unpopulated a) ∧ exec (.sw rs rt imm) s = .refused (.unpopulated a)) ∧
      (a.toNat % 4 = 0 → Placed s.params a 4 → (∃ k < 4, Memory.read (byteOf s.params a k) s.mem = none) →
        exec (.lw rs rt imm) s = .fault (.readOfUnwritten a)) ∧
      (a.toNat % 2 ≠ 0 →
        exec (.lh rs rt imm) s = .fault (.misalignedData a) ∧ exec (.lhu rs rt imm) s = .fault (.misalignedData a) ∧
          exec (.sh rs rt imm) s = .fault (.misalignedData a)) ∧
      (a.toNat % 2 = 0 → ¬Placed s.params a 2 →
        exec (.lh rs rt imm) s = .refused (.unpopulated a) ∧ exec (.lhu rs rt imm) s = .refused (.unpopulated a) ∧
          exec (.sh rs rt imm) s = .refused (.unpopulated a)) ∧
      (a.toNat % 2 = 0 → Placed s.params a 2 → (∃ k < 2, Memory.read (byteOf s.params a k) s.mem = none) →
        exec (.lh rs rt imm) s = .fault (.readOfUnwritten a) ∧
          exec (.lhu rs rt imm) s = .fault (.readOfUnwritten a)) ∧
      (¬Placed s.params a 1 →
        exec (.lb rs rt imm) s = .refused (.unpopulated a) ∧ exec (.lbu rs rt imm) s = .refused (.unpopulated a) ∧
          exec (.sb rs rt imm) s = .refused (.unpopulated a)) ∧
      (Placed s.params a 1 → Memory.read (byteOf s.params a 0) s.mem = none →
        exec (.lb rs rt imm) s = .fault (.readOfUnwritten a) ∧
          exec (.lbu rs rt imm) s = .fault (.readOfUnwritten a))) ∧
    ∀ a i, a = s.gpr rs → (i = .amoAdd rs rt rd ∨ i = .amoAnd rs rt rd ∨ i = .amoOr rs rt rd) →
      (a.toNat % 4 ≠ 0 → exec i s = .fault (.misalignedData a)) ∧
      (a.toNat % 4 = 0 → ¬Placed s.params a 4 →
        exec i s = .refused (.unpopulated a)) ∧
      (a.toNat % 4 = 0 → Placed s.params a 4 → (∃ k < 4, Memory.read (byteOf s.params a k) s.mem = none) →
        exec i s = .fault (.readOfUnwritten a))

/-- After a `sw`, a `lw` whose address reaches the same bytes (it may differ above `PA_BITS`, 20_memory R44) completes and
reads the stored word (with `PA_BITS` = 1, what is left of it: log 6); a `lw` of four other bytes answers what it would have
answered before (R56). -/
def Obligations.LoadAfterStore : Prop :=
  ∀ (s t : State) (rs rt : Reg) (imm : BitVec 16) (b : Word), exec (.sw rs rt imm) s = .next t →
    (b.toNat % 4 = 0 → b.toNat % 2 ^ paBits s.params = (effAddr rs imm s).toNat % 2 ^ paBits s.params →
      loadWord b t = .next (wordThroughMemory s.params (s.gpr rt)) ∧
      ∀ (rs' rt' : Reg) (imm' : BitVec 16), effAddr rs' imm' t = b →
        ∃ u, exec (.lw rs' rt' imm') t = .next u ∧ Writes t u rt' (wordThroughMemory s.params (s.gpr rt))) ∧
    ((∀ j < 4, ∀ k < 4, byteOf s.params b j ≠ byteOf s.params (effAddr rs imm s) k) → loadWord b t = loadWord b s)

/-- How addresses are formed: the effective address (44_loads_stores R160), the branch target (46_branches R190), both modulo
2^32 (D22), and the jump target, its top four bits from `pc + 4` (45_jumps R181). -/
def Obligations.AddressFormation : Prop :=
  ∀ (s : State) (rs : Reg) (imm : BitVec 16) (target : BitVec 26),
    ((effAddr rs imm s).toNat : Int) = ((s.gpr rs).toNat + imm.toInt) % 2 ^ 32 ∧
    ((branchTarget imm s).toNat : Int) = (s.pc.toNat + 4 + imm.toInt * 4) % 2 ^ 32 ∧
    (jumpTarget target s).toNat = (s.pc.toNat + 4) % 2 ^ 32 / 2 ^ 28 * 2 ^ 28 + target.toNat * 4 ∧
    (s.pc.toNat % 4 = 0 → (branchTarget imm s).toNat % 4 = 0 ∧ (jumpTarget target s).toNat % 4 = 0)

/-! ### Loads and stores -/

/-- `lw` (44_loads_stores R161): its row, and on an aligned address over four placed bytes that hold values the word they
make, little-endian, goes to `rt`, from the base's old value, and nothing else changes. -/
def Obligations.LwResult : Prop :=
  IsRow 0xFC000000#32 0x8C000000#32 .parcV1 (fun w => .lw (fieldRs w) (fieldRt w) (fieldImm w)) ∧
  ∀ (rs rt : Reg) (imm : BitVec 16) (s : State) (b0 b1 b2 b3 : Byte), (effAddr rs imm s).toNat % 4 = 0 →
    Placed s.params (effAddr rs imm s) 4 → HoldsWord s (effAddr rs imm s) b0 b1 b2 b3 →
    ∃ t, exec (.lw rs rt imm) s = .next t ∧ Writes s t rt (BitVec.ofNat 32 (littleEndian [b0, b1, b2, b3]))

/-- `lh` and `lhu` (44_loads_stores R162, R163): their rows; the halfword goes to `rt`, as a signed value or as an unsigned
one, and nothing else changes. -/
def Obligations.LhLhuResults : Prop :=
  IsRow 0xFC000000#32 0x84000000#32 .parcV3 (fun w => .lh (fieldRs w) (fieldRt w) (fieldImm w)) ∧
  IsRow 0xFC000000#32 0x94000000#32 .parcV3 (fun w => .lhu (fieldRs w) (fieldRt w) (fieldImm w)) ∧
  ∀ (rs rt : Reg) (imm : BitVec 16) (s : State) (b0 b1 : Byte), (effAddr rs imm s).toNat % 2 = 0 →
    Placed s.params (effAddr rs imm s) 2 → HoldsByte s (effAddr rs imm s) 0 b0 → HoldsByte s (effAddr rs imm s) 1 b1 →
    (∃ t, exec (.lh rs rt imm) s = .next t ∧ Writes s t rt (BitVec.ofInt 32 (b0.toNat + 256 * b1.toInt))) ∧
    (∃ t, exec (.lhu rs rt imm) s = .next t ∧ Writes s t rt (BitVec.ofNat 32 (b0.toNat + 256 * b1.toNat)))

/-- `lb` and `lbu` (44_loads_stores R164, R165): their rows; the byte at any address goes to `rt`, as a signed value or as an
unsigned one, and nothing else changes. -/
def Obligations.LbLbuResults : Prop :=
  IsRow 0xFC000000#32 0x80000000#32 .parcV3 (fun w => .lb (fieldRs w) (fieldRt w) (fieldImm w)) ∧
  IsRow 0xFC000000#32 0x90000000#32 .parcV3 (fun w => .lbu (fieldRs w) (fieldRt w) (fieldImm w)) ∧
  ∀ (rs rt : Reg) (imm : BitVec 16) (s : State) (b : Byte),
    Placed s.params (effAddr rs imm s) 1 → HoldsByte s (effAddr rs imm s) 0 b →
    (∃ t, exec (.lb rs rt imm) s = .next t ∧ Writes s t rt (BitVec.ofInt 32 b.toInt)) ∧
    (∃ t, exec (.lbu rs rt imm) s = .next t ∧ Writes s t rt (BitVec.ofNat 32 b.toNat))

/-- `sw` (44_loads_stores R166): its row; on an aligned address over placed memory the four bytes of `x[rt]` are stored,
little-endian, and no other byte, register or other state changes. -/
def Obligations.SwStores : Prop :=
  IsRow 0xFC000000#32 0xAC000000#32 .parcV1 (fun w => .sw (fieldRs w) (fieldRt w) (fieldImm w)) ∧
  ∀ (rs rt : Reg) (imm : BitVec 16) (s : State), (effAddr rs imm s).toNat % 4 = 0 →
    Placed s.params (effAddr rs imm s) 4 →
    ∃ t, exec (.sw rs rt imm) s = .next t ∧
      Stores s t (effAddr rs imm s)
        [BitVec.ofNat 8 (s.gpr rt).toNat, BitVec.ofNat 8 ((s.gpr rt).toNat / 2 ^ 8),
          BitVec.ofNat 8 ((s.gpr rt).toNat / 2 ^ 16), BitVec.ofNat 8 ((s.gpr rt).toNat / 2 ^ 24)]

/-- `sh` and `sb` (44_loads_stores R167, R168): their rows; the low 16 or 8 bits of `x[rt]` are stored (D25, log 37), and no
other byte, register or other state changes. -/
def Obligations.ShSbStores : Prop :=
  IsRow 0xFC000000#32 0xA4000000#32 .parcV3 (fun w => .sh (fieldRs w) (fieldRt w) (fieldImm w)) ∧
  IsRow 0xFC000000#32 0xA0000000#32 .parcV3 (fun w => .sb (fieldRs w) (fieldRt w) (fieldImm w)) ∧
  ∀ (rs rt : Reg) (imm : BitVec 16) (s : State),
    ((effAddr rs imm s).toNat % 2 = 0 → Placed s.params (effAddr rs imm s) 2 →
      ∃ t, exec (.sh rs rt imm) s = .next t ∧
        Stores s t (effAddr rs imm s)
          [BitVec.ofNat 8 (s.gpr rt).toNat, BitVec.ofNat 8 ((s.gpr rt).toNat / 2 ^ 8)]) ∧
    (Placed s.params (effAddr rs imm s) 1 →
      ∃ t, exec (.sb rs rt imm) s = .next t ∧
        Stores s t (effAddr rs imm s) [BitVec.ofNat 8 (s.gpr rt).toNat])

/-! ### Arithmetic, logic, comparison, shifts -/

/-- `addu` and `subu` (41_reg_reg_arith R111, R112): their rows; the sum or the difference modulo 2^32 goes to `rd`, for every
operand, and nothing else changes. -/
def Obligations.AdduSubuResults : Prop :=
  IsRow 0xFC0007FF#32 0x00000021#32 .parcV1 (fun w => .addu (fieldRs w) (fieldRt w) (fieldRd w)) ∧
  IsRow 0xFC0007FF#32 0x00000023#32 .parcV2 (fun w => .subu (fieldRs w) (fieldRt w) (fieldRd w)) ∧
  ∀ (rs rt rd : Reg) (s : State),
    (∃ t, exec (.addu rs rt rd) s = .next t ∧
      Writes s t rd (BitVec.ofNat 32 ((s.gpr rs).toNat + (s.gpr rt).toNat))) ∧
    (∃ t, exec (.subu rs rt rd) s = .next t ∧
      Writes s t rd (BitVec.ofInt 32 ((s.gpr rs).toNat - (s.gpr rt).toNat)))

/-- `and`, `or`, `xor`, `nor` (41_reg_reg_arith R113 to R116): their rows; each bit of the result is the function of the two
source bits, and nothing else changes. -/
def Obligations.BitwiseResults : Prop :=
  IsRow 0xFC0007FF#32 0x00000024#32 .parcV2 (fun w => .and (fieldRs w) (fieldRt w) (fieldRd w)) ∧
  IsRow 0xFC0007FF#32 0x00000025#32 .parcV2 (fun w => .or (fieldRs w) (fieldRt w) (fieldRd w)) ∧
  IsRow 0xFC0007FF#32 0x00000026#32 .parcV2 (fun w => .xor (fieldRs w) (fieldRt w) (fieldRd w)) ∧
  IsRow 0xFC0007FF#32 0x00000027#32 .parcV2 (fun w => .nor (fieldRs w) (fieldRt w) (fieldRd w)) ∧
  ∀ (rs rt rd : Reg) (s : State),
    (∃ t v, exec (.and rs rt rd) s = .next t ∧ Writes s t rd v ∧
      ∀ k < 32, v.getLsbD k = ((s.gpr rs).getLsbD k && (s.gpr rt).getLsbD k)) ∧
    (∃ t v, exec (.or rs rt rd) s = .next t ∧ Writes s t rd v ∧
      ∀ k < 32, v.getLsbD k = ((s.gpr rs).getLsbD k || (s.gpr rt).getLsbD k)) ∧
    (∃ t v, exec (.xor rs rt rd) s = .next t ∧ Writes s t rd v ∧
      ∀ k < 32, v.getLsbD k = ((s.gpr rs).getLsbD k != (s.gpr rt).getLsbD k)) ∧
    (∃ t v, exec (.nor rs rt rd) s = .next t ∧ Writes s t rd v ∧
      ∀ k < 32, v.getLsbD k = !((s.gpr rs).getLsbD k || (s.gpr rt).getLsbD k))

/-- `slt`, `sltu`, `slti`, `sltiu` (41_reg_reg_arith R117, R118, 43_reg_imm_arith R145 to R147): their rows (from general
knowledge, log 10); the result is 1 where the comparison holds, else 0 (D24, log 23). Both immediates are sign-extended. -/
def Obligations.SetLessThanResults : Prop :=
  IsRow 0xFC0007FF#32 0x0000002A#32 .parcV2 (fun w => .slt (fieldRs w) (fieldRt w) (fieldRd w)) ∧
  IsRow 0xFC0007FF#32 0x0000002B#32 .parcV2 (fun w => .sltu (fieldRs w) (fieldRt w) (fieldRd w)) ∧
  IsRow 0xFC000000#32 0x28000000#32 .parcV2 (fun w => .slti (fieldRs w) (fieldRt w) (fieldImm w)) ∧
  IsRow 0xFC000000#32 0x2C000000#32 .parcV2 (fun w => .sltiu (fieldRs w) (fieldRt w) (fieldImm w)) ∧
  ∀ (rs rt rd : Reg) (imm : BitVec 16) (s : State),
    (∃ t, exec (.slt rs rt rd) s = .next t ∧ Writes s t rd (if (s.gpr rs).toInt < (s.gpr rt).toInt then 1 else 0)) ∧
    (∃ t, exec (.sltu rs rt rd) s = .next t ∧ Writes s t rd (if (s.gpr rs).toNat < (s.gpr rt).toNat then 1 else 0)) ∧
    (∃ t, exec (.slti rs rt imm) s = .next t ∧ Writes s t rt (if (s.gpr rs).toInt < imm.toInt then 1 else 0)) ∧
    (∃ t, exec (.sltiu rs rt imm) s = .next t ∧
      Writes s t rt (if ((s.gpr rs).toNat : Int) < imm.toInt % 2 ^ 32 then 1 else 0))

/-- `srlv`, `sllv`, `srl`, `sll` (41_reg_reg_arith R120, R121, 43_reg_imm_arith R149, R150): their rows; the value of `rt` is
divided or multiplied by 2^k and cut to 32 bits, k the low five bits of `x[rs]` or `sa`. The all-zero word has the bits of
the `sll` row; that the model names it `nop`, which does what `sll r0, r0, 0` does, is deduced from R151 and 30_encoding R96
(log 12). -/
def Obligations.LogicalShiftResults : Prop :=
  IsRow 0xFC0007FF#32 0x00000006#32 .parcV2 (fun w => .srlv (fieldRs w) (fieldRt w) (fieldRd w)) ∧
  IsRow 0xFC0007FF#32 0x00000004#32 .parcV2 (fun w => .sllv (fieldRs w) (fieldRt w) (fieldRd w)) ∧
  IsRow 0xFFE0003F#32 0x00000002#32 .parcV2 (fun w => .srl (fieldRt w) (fieldRd w) (fieldSa w)) ∧
  (∀ w : Word, w ≠ 0#32 →
    (decode w = .ok (.sll (fieldRt w) (fieldRd w) (fieldSa w)) ↔ w &&& 0xFFE0003F#32 = 0x00000000#32)) ∧
  (∀ rt rd sa, (Instr.sll rt rd sa).version = .parcV2) ∧
  decode 0#32 = .ok .nop ∧ (∀ s, exec .nop s = exec (.sll 0 0 0) s) ∧
  ∀ (rs rt rd sa : Reg) (s : State),
    (∃ t, exec (.srlv rs rt rd) s = .next t ∧
      Writes s t rd (BitVec.ofNat 32 ((s.gpr rt).toNat / 2 ^ ((s.gpr rs).toNat % 32)))) ∧
    (∃ t, exec (.sllv rs rt rd) s = .next t ∧
      Writes s t rd (BitVec.ofNat 32 ((s.gpr rt).toNat * 2 ^ ((s.gpr rs).toNat % 32)))) ∧
    (∃ t, exec (.srl rt rd sa) s = .next t ∧ Writes s t rd (BitVec.ofNat 32 ((s.gpr rt).toNat / 2 ^ sa.toNat))) ∧
    (∃ t, exec (.sll rt rd sa) s = .next t ∧ Writes s t rd (BitVec.ofNat 32 ((s.gpr rt).toNat * 2 ^ sa.toNat)))

/-- `srav` and `sra` (41_reg_reg_arith R119, 43_reg_imm_arith R148, both identified by inference): their rows; the signed
value of `rt` is divided by 2^k and rounded down, k the low five bits of `x[rs]` or `sa`. -/
def Obligations.ArithmeticShiftResults : Prop :=
  IsRow 0xFC0007FF#32 0x00000007#32 .parcV2 (fun w => .srav (fieldRs w) (fieldRt w) (fieldRd w)) ∧
  IsRow 0xFFE0003F#32 0x00000003#32 .parcV2 (fun w => .sra (fieldRt w) (fieldRd w) (fieldSa w)) ∧
  ∀ (rs rt rd sa : Reg) (s : State),
    (∃ t, exec (.srav rs rt rd) s = .next t ∧
      Writes s t rd (BitVec.ofInt 32 ⌊((s.gpr rt).toInt : ℚ) / 2 ^ ((s.gpr rs).toNat % 32)⌋)) ∧
    (∃ t, exec (.sra rt rd sa) s = .next t ∧ Writes s t rd (BitVec.ofInt 32 ⌊((s.gpr rt).toInt : ℚ) / 2 ^ sa.toNat⌋))

/-- `mul` (42_muldiv R130): its row; the product of the signed operands modulo 2^32 goes to `rd`, and that is the product of
the unsigned operands modulo 2^32 too; nothing else changes. -/
def Obligations.MulResult : Prop :=
  IsRow 0xFC0007FF#32 0x70000002#32 .parcV1 (fun w => .mul (fieldRs w) (fieldRt w) (fieldRd w)) ∧
  ∀ (rs rt rd : Reg) (s : State), ∃ t, exec (.mul rs rt rd) s = .next t ∧
    Writes s t rd (BitVec.ofInt 32 ((s.gpr rs).toInt * (s.gpr rt).toInt)) ∧
    Writes s t rd (BitVec.ofNat 32 ((s.gpr rs).toNat * (s.gpr rt).toNat))

/-- `div` and `rem` (42_muldiv R131, R133): their rows; the quotient without its fraction (D26, log 19) and the remainder it
leaves; with divisor 0, or -2^31 by -1, the free `DIV_CORNER` of the two operands (D8, log 18). They always complete. -/
def Obligations.DivRemResults : Prop :=
  IsRow 0xFC0007FF#32 0x9C000005#32 .parcV3 (fun w => .div (fieldRs w) (fieldRt w) (fieldRd w)) ∧
  IsRow 0xFC0007FF#32 0x9C000006#32 .parcV3 (fun w => .rem (fieldRs w) (fieldRt w) (fieldRd w)) ∧
  ∀ (rs rt rd : Reg) (s : State) (a b : Int), a = (s.gpr rs).toInt → b = (s.gpr rt).toInt →
    (∃ t, exec (.div rs rt rd) s = .next t ∧
      Writes s t rd (if b = 0 ∨ (a = -2 ^ 31 ∧ b = -1) then Config.divCorner .div (s.gpr rs) (s.gpr rt)
        else BitVec.ofInt 32 (truncQ ((a : ℚ) / b)))) ∧
    (∃ t, exec (.rem rs rt rd) s = .next t ∧
      Writes s t rd (if b = 0 ∨ (a = -2 ^ 31 ∧ b = -1) then Config.divCorner .rem (s.gpr rs) (s.gpr rt)
        else BitVec.ofInt 32 (a - b * truncQ ((a : ℚ) / b))))

/-- `divu` and `remu` (42_muldiv R132, R134): their rows; the quotient rounded down and the remainder of the unsigned
operands; with divisor 0 the free `DIV_CORNER` of the two operands (D8, log 18). They always complete. -/
def Obligations.DivuRemuResults : Prop :=
  IsRow 0xFC0007FF#32 0x9C000007#32 .parcV3 (fun w => .divu (fieldRs w) (fieldRt w) (fieldRd w)) ∧
  IsRow 0xFC0007FF#32 0x9C000008#32 .parcV3 (fun w => .remu (fieldRs w) (fieldRt w) (fieldRd w)) ∧
  ∀ (rs rt rd : Reg) (s : State) (a b : Nat), a = (s.gpr rs).toNat → b = (s.gpr rt).toNat →
    (∃ t, exec (.divu rs rt rd) s = .next t ∧
      Writes s t rd (if b = 0 then Config.divCorner .divu (s.gpr rs) (s.gpr rt) else BitVec.ofNat 32 (a / b))) ∧
    (∃ t, exec (.remu rs rt rd) s = .next t ∧
      Writes s t rd (if b = 0 then Config.divCorner .remu (s.gpr rs) (s.gpr rt) else BitVec.ofNat 32 (a % b)))

/-- Outside the corner cases `div` and `rem` satisfy `a = b * (a div b) + (a rem b)`, the remainder is smaller than the divisor
and has the sign of the dividend or is zero (42_muldiv R133, D26, log 19); so do `divu` and `remu`, unsigned (R134). -/
def Obligations.DivisionIdentity : Prop :=
  ∀ (rs rt rd : Reg) (s t u : State), rd ≠ 0#5 → (s.gpr rt).toNat ≠ 0 →
    (¬((s.gpr rs).toInt = -2 ^ 31 ∧ (s.gpr rt).toInt = -1) →
      exec (.div rs rt rd) s = .next t → exec (.rem rs rt rd) s = .next u →
      (s.gpr rs).toInt = (s.gpr rt).toInt * (t.gpr rd).toInt + (u.gpr rd).toInt ∧
        |(u.gpr rd).toInt| < |(s.gpr rt).toInt| ∧
        ((u.gpr rd).toInt = 0 ∨ ((u.gpr rd).toInt < 0 ↔ (s.gpr rs).toInt < 0))) ∧
    (exec (.divu rs rt rd) s = .next t → exec (.remu rs rt rd) s = .next u →
      (s.gpr rs).toNat = (s.gpr rt).toNat * (t.gpr rd).toNat + (u.gpr rd).toNat ∧
        (u.gpr rd).toNat < (s.gpr rt).toNat)

/-- `addiu` and `lui` (43_reg_imm_arith R140, R141): their rows; the sum with the sign-extended immediate modulo 2^32, or the
immediate in bits 31:16 over zeros, goes to `rt`; a `lui` word with `rs` not 00000 is no instruction. -/
def Obligations.AddiuLuiResults : Prop :=
  IsRow 0xFC000000#32 0x24000000#32 .parcV1 (fun w => .addiu (fieldRs w) (fieldRt w) (fieldImm w)) ∧
  IsRow 0xFFE00000#32 0x3C000000#32 .parcV2 (fun w => .lui (fieldRt w) (fieldImm w)) ∧
  (∀ w : Word, fieldOp w = 0b001111#6 → fieldRs w ≠ 0#5 → ∃ why, decode w = .error why) ∧
  ∀ (rs rt : Reg) (imm : BitVec 16) (s : State),
    (∃ t, exec (.addiu rs rt imm) s = .next t ∧ Writes s t rt (BitVec.ofInt 32 ((s.gpr rs).toNat + imm.toInt))) ∧
    (∃ t, exec (.lui rt imm) s = .next t ∧ Writes s t rt (BitVec.ofNat 32 (imm.toNat * 2 ^ 16)))

/-- `ori`, `andi`, `xori` (43_reg_imm_arith R142 to R144): their rows; the immediate is zero-extended: on bits 15:0 the result
is the function of the two bits; bits 31:16 pass unchanged, but for `andi`, which clears them. -/
def Obligations.LogicalImmediateResults : Prop :=
  IsRow 0xFC000000#32 0x34000000#32 .parcV2 (fun w => .ori (fieldRs w) (fieldRt w) (fieldImm w)) ∧
  IsRow 0xFC000000#32 0x30000000#32 .parcV2 (fun w => .andi (fieldRs w) (fieldRt w) (fieldImm w)) ∧
  IsRow 0xFC000000#32 0x38000000#32 .parcV2 (fun w => .xori (fieldRs w) (fieldRt w) (fieldImm w)) ∧
  ∀ (rs rt : Reg) (imm : BitVec 16) (s : State),
    (∃ t v, exec (.ori rs rt imm) s = .next t ∧ Writes s t rt v ∧ ∀ k < 32,
      v.getLsbD k = if k < 16 then (s.gpr rs).getLsbD k || imm.getLsbD k else (s.gpr rs).getLsbD k) ∧
    (∃ t v, exec (.andi rs rt imm) s = .next t ∧ Writes s t rt v ∧ ∀ k < 32,
      v.getLsbD k = if k < 16 then (s.gpr rs).getLsbD k && imm.getLsbD k else false) ∧
    (∃ t v, exec (.xori rs rt imm) s = .next t ∧ Writes s t rt v ∧ ∀ k < 32,
      v.getLsbD k = if k < 16 then (s.gpr rs).getLsbD k != imm.getLsbD k else (s.gpr rs).getLsbD k)

/-! ### Jumps and branches -/

/-- `j` and `jal` (45_jumps R180, R184): their rows; `pc` becomes the field shifted left by 2 under the top four bits of
`pc + 4`; `jal` also writes `pc + 4` to `r31`; nothing else changes. -/
def Obligations.JAndJalResults : Prop :=
  IsRow 0xFC000000#32 0x08000000#32 .parcV1 (fun w => .j (fieldTarget w)) ∧
  IsRow 0xFC000000#32 0x0C000000#32 .parcV1 (fun w => .jal (fieldTarget w)) ∧
  ∀ (target : BitVec 26) (s : State) (dest : Word),
    dest = BitVec.ofNat 32 ((s.pc.toNat + 4) % 2 ^ 32 / 2 ^ 28 * 2 ^ 28 + target.toNat * 4) →
    (∃ t, exec (.j target) s = .next t ∧ OnlyPc s t dest) ∧
    (∃ t, exec (.jal target) s = .next t ∧ t.pc = dest ∧
      GprBecomes s t 31#5 (BitVec.ofNat 32 (s.pc.toNat + 4)) ∧ SameSpecial s t ∧ SameMemory s t ∧ SameOutside s t)

/-- `jr` and `jalr` (45_jumps R182, R183): their rows; a jump to the register's value; `jalr` writes `pc + 4` to `rd`. Equal
registers fault first (D23, log 26), then a misaligned target, before anything changes (D12, log 25). -/
def Obligations.JrAndJalrResults : Prop :=
  IsRow 0xFC1FFFFF#32 0x00000008#32 .parcV1 (fun w => .jr (fieldRs w)) ∧
  IsRow 0xFC1F07FF#32 0x00000009#32 .parcV3 (fun w => .jalr (fieldRs w) (fieldRd w)) ∧
  ∀ (rs rd : Reg) (s : State),
    ((s.gpr rs).toNat % 4 = 0 → ∃ t, exec (.jr rs) s = .next t ∧ OnlyPc s t (s.gpr rs)) ∧
    ((s.gpr rs).toNat % 4 ≠ 0 → exec (.jr rs) s = .fault (.misalignedTarget (s.gpr rs))) ∧
    (rs = rd → exec (.jalr rs rd) s = .fault .jalrSameRegister) ∧
    (rs ≠ rd → (s.gpr rs).toNat % 4 ≠ 0 → exec (.jalr rs rd) s = .fault (.misalignedTarget (s.gpr rs))) ∧
    (rs ≠ rd → (s.gpr rs).toNat % 4 = 0 → ∃ t, exec (.jalr rs rd) s = .next t ∧ t.pc = s.gpr rs ∧
      GprBecomes s t rd (BitVec.ofNat 32 (s.pc.toNat + 4)) ∧ SameSpecial s t ∧ SameMemory s t ∧ SameOutside s t)

/-- `beq`, `bne`, `bgtz` (46_branches R191 to R193): their rows; `pc` becomes `pc + 4 + 4 * offset` modulo 2^32 where the
condition holds, else `pc + 4`; nothing else changes; a `bgtz` word with `rt` not 00000 is no instruction. -/
def Obligations.BeqBneBgtzResults : Prop :=
  IsRow 0xFC000000#32 0x10000000#32 .parcV2 (fun w => .beq (fieldRs w) (fieldRt w) (fieldImm w)) ∧
  IsRow 0xFC000000#32 0x14000000#32 .parcV1 (fun w => .bne (fieldRs w) (fieldRt w) (fieldImm w)) ∧
  IsRow 0xFC1F0000#32 0x1C000000#32 .parcV2 (fun w => .bgtz (fieldRs w) (fieldImm w)) ∧
  (∀ w : Word, fieldOp w = 0b000111#6 → fieldRt w ≠ 0#5 → ∃ why, decode w = .error why) ∧
  ∀ (rs rt : Reg) (imm : BitVec 16) (s : State) (target next : Word),
    target = BitVec.ofInt 32 (s.pc.toNat + 4 + imm.toInt * 4) → next = BitVec.ofNat 32 (s.pc.toNat + 4) →
    (∃ t, exec (.beq rs rt imm) s = .next t ∧ OnlyPc s t (if s.gpr rs = s.gpr rt then target else next)) ∧
    (∃ t, exec (.bne rs rt imm) s = .next t ∧ OnlyPc s t (if s.gpr rs ≠ s.gpr rt then target else next)) ∧
    (∃ t, exec (.bgtz rs imm) s = .next t ∧ OnlyPc s t (if 0 < (s.gpr rs).toInt then target else next))

/-- `bltz`, `bgez`, `blez` (46_branches R194 to R196, restored by inference; rows of `bltz` and `blez` from general knowledge,
log 10): taken for a negative, a non-negative, a non-positive signed value; nothing but `pc` changes. -/
def Obligations.BltzBgezBlezResults : Prop :=
  IsRow 0xFC1F0000#32 0x04000000#32 .parcV2 (fun w => .bltz (fieldRs w) (fieldImm w)) ∧
  IsRow 0xFC1F0000#32 0x04010000#32 .parcV2 (fun w => .bgez (fieldRs w) (fieldImm w)) ∧
  IsRow 0xFC1F0000#32 0x18000000#32 .parcV2 (fun w => .blez (fieldRs w) (fieldImm w)) ∧
  ∀ (rs : Reg) (imm : BitVec 16) (s : State) (target next : Word),
    target = BitVec.ofInt 32 (s.pc.toNat + 4 + imm.toInt * 4) → next = BitVec.ofNat 32 (s.pc.toNat + 4) →
    (∃ t, exec (.bltz rs imm) s = .next t ∧ OnlyPc s t (if (s.gpr rs).toInt < 0 then target else next)) ∧
    (∃ t, exec (.bgez rs imm) s = .next t ∧ OnlyPc s t (if 0 ≤ (s.gpr rs).toInt then target else next)) ∧
    (∃ t, exec (.blez rs imm) s = .next t ∧ OnlyPc s t (if (s.gpr rs).toInt ≤ 0 then target else next))

/-! ### Conditional moves, atomics, `nop` and `sync` -/

/-- `movn` and `movz` (47_cond_moves_amo_sync R200, R201, all from general knowledge, log 10, 11): their rows; where the
condition on `x[rt]` holds `rd` receives `x[rs]`, else only `pc` changes. -/
def Obligations.ConditionalMoveResults : Prop :=
  IsRow 0xFC0007FF#32 0x0000000B#32 .parcV3 (fun w => .movn (fieldRs w) (fieldRt w) (fieldRd w)) ∧
  IsRow 0xFC0007FF#32 0x0000000A#32 .parcV3 (fun w => .movz (fieldRs w) (fieldRt w) (fieldRd w)) ∧
  ∀ (rs rt rd : Reg) (s : State),
    ∃ t u, exec (.movn rs rt rd) s = .next t ∧ exec (.movz rs rt rd) s = .next u ∧
      (s.gpr rt ≠ 0#32 → Writes s t rd (s.gpr rs) ∧ OnlyPc s u (BitVec.ofNat 32 (s.pc.toNat + 4))) ∧
      (s.gpr rt = 0#32 → OnlyPc s t (BitVec.ofNat 32 (s.pc.toNat + 4)) ∧ Writes s u rd (s.gpr rs))

/-- `amo.add`, `amo.and`, `amo.or` (47_cond_moves_amo_sync R202 to R205, from recollection, log 9): their rows; on an aligned
address over four placed bytes that hold values the word becomes the function of its old value and `x[rt]`, `rd` receives
the old value, and nothing else changes. -/
def Obligations.AtomicUpdateResults : Prop :=
  IsRow 0xFC0007FF#32 0x9C000002#32 .parcV3 (fun w => .amoAdd (fieldRs w) (fieldRt w) (fieldRd w)) ∧
  IsRow 0xFC0007FF#32 0x9C000003#32 .parcV3 (fun w => .amoAnd (fieldRs w) (fieldRt w) (fieldRd w)) ∧
  IsRow 0xFC0007FF#32 0x9C000004#32 .parcV3 (fun w => .amoOr (fieldRs w) (fieldRt w) (fieldRd w)) ∧
  ∀ (rs rt rd : Reg) (s : State) (b0 b1 b2 b3 : Byte) (old : Word) (i : Instr) (new : Word),
    (s.gpr rs).toNat % 4 = 0 → Placed s.params (s.gpr rs) 4 →
    HoldsWord s (s.gpr rs) b0 b1 b2 b3 →
    old = BitVec.ofNat 32 (littleEndian [b0, b1, b2, b3]) →
    ((i = .amoAdd rs rt rd ∧ new = BitVec.ofNat 32 (old.toNat + (s.gpr rt).toNat)) ∨
      (i = .amoAnd rs rt rd ∧ new = old &&& s.gpr rt) ∨ (i = .amoOr rs rt rd ∧ new = old ||| s.gpr rt)) →
    ∃ t, exec i s = .next t ∧ GprBecomes s t rd old ∧ GoesOn s t ∧
      MemoryGets s t (s.gpr rs)
        [BitVec.ofNat 8 new.toNat, BitVec.ofNat 8 (new.toNat / 2 ^ 8), BitVec.ofNat 8 (new.toNat / 2 ^ 16),
          BitVec.ofNat 8 (new.toNat / 2 ^ 24)] ∧
      SameSpecial s t ∧ SameOutside s t

/-- `nop` (43_reg_imm_arith R151) and, on one core, `sync` (47_cond_moves_amo_sync R206, 20_memory R58, log 40): their rows;
only `pc` changes. -/
def Obligations.NopAndSyncOnlyAdvance : Prop :=
  IsRow 0xFFFFFFFF#32 0x00000000#32 .parcV1 (fun _ => .nop) ∧
  IsRow 0xFFFFFFFF#32 0x0000000F#32 .parcV3 (fun _ => .sync) ∧
  ∀ s : State,
    (∃ t, exec .nop s = .next t ∧ OnlyPc s t (BitVec.ofNat 32 (s.pc.toNat + 4))) ∧
    (∃ t, exec .sync s = .next t ∧ OnlyPc s t (BitVec.ofNat 32 (s.pc.toNat + 4)))

/-! ### Exceptions -/

/-- `syscall` takes the one exception (48_exception_instructions R215, 60_exceptions R263): `epc` receives what the launch's
`SYSCALL_EPC` says (D7), `pc` the launch's `EXC_VECTOR` (D6), nothing else changes; without either value it faults (D34, log
14 to 16). Its row is from general knowledge (log 10). -/
def Obligations.SyscallEntry : Prop :=
  IsRow 0xFFFFFFFF#32 0x0000000C#32 .parcV3 (fun _ => .syscall) ∧
  ∀ s : State,
    (∀ vector rule, s.params.excVector = some vector → s.params.syscallEpc = some rule →
      ∃ t, exec .syscall s = .next t ∧ t.pc.toNat = vector.toNat * 4 ∧
        (rule = .pc → t.epc = s.pc) ∧ (rule = .pcPlus4 → t.epc.toNat = (s.pc.toNat + 4) % 2 ^ 32) ∧
        SameGprs s t ∧ SameCp0 s t ∧ SameMemory s t ∧ SameOutside s t) ∧
    ((s.params.excVector = none ∨ s.params.syscallEpc = none) → exec .syscall s = .fault .syscallUnmodelled)

/-- `eret` returns to the address in `epc` and restores nothing else (60_exceptions R269, 48_exception_instructions R217,
where it is the spec's decision D36; log 17). -/
def Obligations.EretReturns : Prop :=
  ∀ s : State, s.epc.toNat % 4 = 0 → ∃ t, exec .eret s = .next t ∧ OnlyPc s t s.epc

/-- From an instruction boundary, `syscall` and then `eret` lead to the `syscall` or to the instruction after it, as
`SYSCALL_EPC` says (60_exceptions R263, R269, D7), with every general register, cpr, byte of memory and everything outside the
core as before; `epc` is not as before: it holds the address returned to (R263, 48_exception_instructions R217). And the row
of `eret` (from general knowledge, log 10), which faults on a misaligned `epc` (D12, log 17). -/
def Obligations.SyscallThenEret : Prop :=
  IsRow 0xFFFFFFFF#32 0x42000018#32 .parcV3 (fun _ => .eret) ∧
  (∀ s : State, s.epc.toNat % 4 ≠ 0 → exec .eret s = .fault (.misalignedTarget s.epc)) ∧
  ∀ (s t : State) (rule : SyscallEpc), s.pc.toNat % 4 = 0 → s.params.syscallEpc = some rule →
    exec .syscall s = .next t →
    ∃ u, exec .eret t = .next u ∧ (rule = .pc → u.pc = s.pc) ∧ (rule = .pcPlus4 → GoesOn s u) ∧
      u.epc = u.pc ∧ SameGprs s u ∧ SameCp0 s u ∧ SameMemory s u ∧ SameOutside s u

/-! ### Floating point -/

/-- The eight compares (49_float_accel R231 to R239): their rows; `x[ft]` is the left operand (D33), the values are binary32
(D27), and `fd` receives 1 where the condition holds, else 0 (D24; log 21, 23), also with a NaN. -/
def Obligations.CompareResults : Prop :=
  IsRow 0xFFE0003F#32 0x46000030#32 .parcV3 (fun w => .cFS (fieldRt w) (fieldRd w) (fieldSa w)) ∧
  IsRow 0xFFE0003F#32 0x46000031#32 .parcV3 (fun w => .cUnS (fieldRt w) (fieldRd w) (fieldSa w)) ∧
  IsRow 0xFFE0003F#32 0x46000032#32 .parcV3 (fun w => .cEqS (fieldRt w) (fieldRd w) (fieldSa w)) ∧
  IsRow 0xFFE0003F#32 0x4600003B#32 .parcV3 (fun w => .cNglS (fieldRt w) (fieldRd w) (fieldSa w)) ∧
  IsRow 0xFFE0003F#32 0x4600003C#32 .parcV3 (fun w => .cLtS (fieldRt w) (fieldRd w) (fieldSa w)) ∧
  IsRow 0xFFE0003F#32 0x4600003D#32 .parcV3 (fun w => .cNgeS (fieldRt w) (fieldRd w) (fieldSa w)) ∧
  IsRow 0xFFE0003F#32 0x4600003E#32 .parcV3 (fun w => .cLeS (fieldRt w) (fieldRd w) (fieldSa w)) ∧
  IsRow 0xFFE0003F#32 0x4600003F#32 .parcV3 (fun w => .cNgtS (fieldRt w) (fieldRd w) (fieldSa w)) ∧
  ∀ (ft fs fd : Reg) (s : State) (less equal unordered : Prop),
    (less ↔ FloatLess s.params.flushSubnormals (s.gpr ft) (s.gpr fs)) →
    (equal ↔ FloatEqual s.params.flushSubnormals (s.gpr ft) (s.gpr fs)) →
    (unordered ↔ FloatUnordered (s.gpr ft) (s.gpr fs)) →
    ∀ (i : Instr) (holds : Prop),
      ((i = .cFS ft fs fd ∧ (holds ↔ False)) ∨ (i = .cUnS ft fs fd ∧ (holds ↔ unordered)) ∨
        (i = .cEqS ft fs fd ∧ (holds ↔ equal)) ∨ (i = .cNglS ft fs fd ∧ (holds ↔ equal ∨ unordered)) ∨
        (i = .cLtS ft fs fd ∧ (holds ↔ less)) ∨ (i = .cNgeS ft fs fd ∧ (holds ↔ less ∨ unordered)) ∨
        (i = .cLeS ft fs fd ∧ (holds ↔ less ∨ equal)) ∨
        (i = .cNgtS ft fs fd ∧ (holds ↔ less ∨ equal ∨ unordered))) →
      ∃ t, exec i s = .next t ∧ (holds → Writes s t fd 1#32) ∧ (¬holds → Writes s t fd 0#32)

/-- `trunc.w.s` (49_float_accel R242, D27, log 21): its row; a value in `-2^31 <= v < 2^31` loses its fraction and goes to `fd`
in two's complement; a NaN, an infinity or a value out of range faults (D10, log 22). -/
def Obligations.TruncWSResult : Prop :=
  IsRow 0xFFFF003F#32 0x4400000D#32 .parcV3 (fun w => .truncWS (fieldRd w) (fieldSa w)) ∧
  ∀ (fs fd : Reg) (s : State),
    (FloatConverts s.params.flushSubnormals (s.gpr fs) →
      ∃ t, exec (.truncWS fs fd) s = .next t ∧
        Writes s t fd (BitVec.ofInt 32 (truncQ (floatValue s.params.flushSubnormals (s.gpr fs))))) ∧
    (¬FloatConverts s.params.flushSubnormals (s.gpr fs) →
      exec (.truncWS fs fd) s = .fault (.fpUnpredictable (s.gpr fs)))

/-- `cvt.w.s` (49_float_accel R240, D27, log 21): its row; a value in `-2^31 <= v < 2^31` rounds to an integer as the launch's
open `FP_CVT_W_S_ROUND` says (D9, log 20), so an integral value converts exactly under every direction; a NaN, an infinity
or a value out of range faults (D10, log 22). -/
def Obligations.CvtWSResult : Prop :=
  IsRow 0xFFFF003F#32 0x44000024#32 .parcV3 (fun w => .cvtWS (fieldRd w) (fieldSa w)) ∧
  ∀ (fs fd : Reg) (s : State),
    (FloatConverts s.params.flushSubnormals (s.gpr fs) →
      ∃ t n, exec (.cvtWS fs fd) s = .next t ∧ Writes s t fd (BitVec.ofInt 32 n) ∧ -2 ^ 31 ≤ n ∧ n < 2 ^ 31 ∧
        RoundsTo s.params.cvtWSRound (floatValue s.params.flushSubnormals (s.gpr fs)) n ∧
        ∀ m : Int, floatValue s.params.flushSubnormals (s.gpr fs) = m → n = m) ∧
    (¬FloatConverts s.params.flushSubnormals (s.gpr fs) →
      exec (.cvtWS fs fd) s = .fault (.fpUnpredictable (s.gpr fs)))

/-- `cvt.s.w` (49_float_accel R241, D27, log 21): its row; it completes for every integer; 0 gives +0; up to magnitude 2^24 the
result is exact; else the result's significand is the integer, in units of the last of 24 places, rounded as the launch's open
`FP_CVT_S_W_ROUND` says (D9, log 20). -/
def Obligations.CvtSWResult : Prop :=
  IsRow 0xFFFF003F#32 0x44000020#32 .parcV3 (fun w => .cvtSW (fieldRd w) (fieldSa w)) ∧
  ∀ (fs fd : Reg) (s : State) (n : Int), n = (s.gpr fs).toInt →
    ∃ t w, exec (.cvtSW fs fd) s = .next t ∧ Writes s t fd w ∧ ¬FloatIsNan w ∧ ¬FloatIsInf w ∧
      (n = 0 → w = 0#32) ∧ (|n| ≤ 2 ^ 24 → floatValue false w = n) ∧
      ∀ e : Nat, 23 ≤ e → (2 : Int) ^ e ≤ |n| → |n| < 2 ^ (e + 1) →
        ∃ m : Int, RoundsTo s.params.cvtSWRound ((n : ℚ) / 2 ^ (e - 23)) m ∧ floatValue false w = m * 2 ^ (e - 23)

/-! ### Coprocessor 0 and the manager -/

/-- `mfc0` (40_cop0_moves R100, 10_state R18, R20 to R22, R24): its row; cpr1 gives and removes the head of the manager's FIFO;
cpr16, cpr17, cpr21 give `NUMCORES`, `COREID`, `stats_en` from PARCv2 on; nothing else changes. In every launch of the spec
`numcores` is at least 1 and `coreid` is less than it (R22, D3, log 31). -/
def Obligations.Mfc0Results : Prop :=
  IsRow 0xFFE007FF#32 0x40000000#32 .parcV1 (fun w => .mfc0 (fieldRt w) (fieldRd w)) ∧
  ∀ (rt : Reg) (s : State),
    (∀ w rest, s.mngr2proc = w :: rest → ∃ t, exec (.mfc0 rt 1#5) s = .next t ∧ GprBecomes s t rt w ∧ GoesOn s t ∧
      t.mngr2proc = rest ∧ t.epc = s.epc ∧ t.statsEn = s.statsEn ∧ t.proc2mngr = s.proc2mngr ∧
      t.proc2mngrReady = s.proc2mngrReady ∧ t.received = s.received ∧ SameMemory s t ∧ SameOutside s t) ∧
    (s.params.version ≠ .parcV1 →
      (∃ t, exec (.mfc0 rt 16#5) s = .next t ∧ Writes s t rt s.params.numCores) ∧
      (∃ t, exec (.mfc0 rt 17#5) s = .next t ∧ Writes s t rt s.params.coreId) ∧
      (∃ t, exec (.mfc0 rt 21#5) s = .next t ∧ Writes s t rt s.statsEn)) ∧
    (s.params.coresInRange → s.params.version ≠ .parcV1 → rt ≠ 0#5 → ∀ t u, exec (.mfc0 rt 16#5) s = .next t →
      exec (.mfc0 rt 17#5) s = .next u → 1 ≤ (t.gpr rt).toNat ∧ (u.gpr rt).toNat < (t.gpr rt).toNat)

/-- `mtc0` (40_cop0_moves R101, 10_state R19, R20, R24): its row; a write of cpr2, when its FIFO is ready, appends `x[rt]` at
the tail; a write of cpr21, from PARCv2 on, stores `x[rt]`; nothing else changes. -/
def Obligations.Mtc0Results : Prop :=
  IsRow 0xFFE007FF#32 0x40800000#32 .parcV1 (fun w => .mtc0 (fieldRt w) (fieldRd w)) ∧
  ∀ (rt : Reg) (s : State),
    (s.proc2mngrReady = true → ∃ t, exec (.mtc0 rt 2#5) s = .next t ∧ t.proc2mngr = s.proc2mngr ++ [s.gpr rt] ∧
      GoesOn s t ∧ SameGprs s t ∧ t.epc = s.epc ∧ t.statsEn = s.statsEn ∧ t.mngr2proc = s.mngr2proc ∧
      t.proc2mngrReady = s.proc2mngrReady ∧ t.received = s.received ∧ SameMemory s t ∧ SameOutside s t) ∧
    (s.params.version ≠ .parcV1 → ∃ t, exec (.mtc0 rt 21#5) s = .next t ∧ t.statsEn = s.gpr rt ∧
      GoesOn s t ∧ SameGprs s t ∧ t.epc = s.epc ∧ t.mngr2proc = s.mngr2proc ∧ t.proc2mngr = s.proc2mngr ∧
      t.proc2mngrReady = s.proc2mngrReady ∧ t.received = s.received ∧ SameMemory s t ∧ SameOutside s t)

/-- The core waits at the manager's FIFOs (10_state R18, R19, 40_cop0_moves R103, 60_exceptions R279): a read of an empty
cpr1, a write of a cpr2 that is not ready, leaves the whole state as it is, and a core's step at it only takes the turn
(log 29). -/
def Obligations.ManagerStalls : Prop :=
  ∀ (rt : Reg) (s : State),
    (s.mngr2proc = [] → exec (.mfc0 rt 1#5) s = .next s ∧
      (nextAct s = none → fetchInstr s = .next (.mfc0 rt 1#5) → step s = .next s.takeTurn)) ∧
    (s.proc2mngrReady = false → exec (.mtc0 rt 2#5) s = .next s ∧
      (nextAct s = none → fetchInstr s = .next (.mtc0 rt 2#5) → step s = .next s.takeTurn))

/-- The undefined coprocessor-0 accesses fault (10_state R18, R19, R21 to R24, D20, D21, log 27): a read of any number but 1,
16, 17, 21, a write of any but 2, 21, and in PARCv1 of any but 1 and 2. -/
def Obligations.UndefinedCp0AccessFaults : Prop :=
  ∀ (rt n : Reg) (s : State),
    ((n ≠ 1#5 ∧ n ≠ 16#5 ∧ n ≠ 17#5 ∧ n ≠ 21#5) ∨ (s.params.version = .parcV1 ∧ n ≠ 1#5) →
      exec (.mfc0 rt n) s = .fault (.undefinedCp0Access n)) ∧
    ((n ≠ 2#5 ∧ n ≠ 21#5) ∨ (s.params.version = .parcV1 ∧ n ≠ 2#5) →
      exec (.mtc0 rt n) s = .fault (.undefinedCp0Access n))

/-! ### Accelerators -/

/-- `mtx` and `mfx` (49_float_accel R249 to R251): their rows; with the accelerator of the immediate id present and not making
the move wait, it makes `XcelWrite` or `XcelRead` of its register `rs` (what the accelerator does then is free, log 30), `mfx`
writes the returned word to `rt`, every other accelerator and the rest of the machine stay the same; without the accelerator
the move faults (D5, log 30). A move that the accelerator makes wait changes nothing (R249, log 30). -/
def Obligations.MtxMfxResults : Prop :=
  IsRow 0xFC00F800#32 0x48000000#32 .parcV3 (fun w => .mtx (fieldRs w) (fieldRt w) (fieldAccelId w)) ∧
  IsRow 0xFC00F800#32 0x48000800#32 .parcV3 (fun w => .mfx (fieldRs w) (fieldRt w) (fieldAccelId w)) ∧
  ∀ (rs rt : Reg) (accelId : BitVec 11) (id : Word) (s : State), id = BitVec.ofNat 32 accelId.toNat →
    (xcelFind id s.xcels = none → exec (.mtx rs rt accelId) s = .fault (.noSuchAccelerator id) ∧
      exec (.mfx rs rt accelId) s = .fault (.noSuchAccelerator id)) ∧
    ∀ st, xcelFind id s.xcels = some st →
      (st.writeWaits.getLsbD rs.toNat = true → exec (.mtx rs rt accelId) s = .next s) ∧
      (st.readWaits.getLsbD rs.toNat = true → exec (.mfx rs rt accelId) s = .next s) ∧
      (st.writeWaits.getLsbD rs.toNat = false → ∃ t, exec (.mtx rs rt accelId) s = .next t ∧
        xcelFind id t.xcels = some (Config.xcelWrite id st rs (s.gpr rt)) ∧
        (∀ q, q ≠ id → xcelFind q t.xcels = xcelFind q s.xcels) ∧ t.turns = s.turns ∧ t.params = s.params ∧
        GoesOn s t ∧ SameGprs s t ∧ SameSpecial s t ∧ SameMemory s t) ∧
      (st.readWaits.getLsbD rs.toNat = false → ∃ t, exec (.mfx rs rt accelId) s = .next t ∧
        xcelFind id t.xcels = some (Config.xcelReadEffect id st rs) ∧
        (∀ q, q ≠ id → xcelFind q t.xcels = xcelFind q s.xcels) ∧ t.turns = s.turns ∧ t.params = s.params ∧
        GoesOn s t ∧ GprBecomes s t rt (Config.xcelReadValue id st rs) ∧ SameSpecial s t ∧ SameMemory s t)

/-- `mtxr` and `mfxr` (49_float_accel R252, R253): their rows; the id is the whole value of `x[r_accel]` (D31, log 30), read
before `rt` is written; else as `mtx` and `mfx`. A move that the accelerator makes wait changes nothing (R249, log 30). -/
def Obligations.MtxrMfxrResults : Prop :=
  IsRow 0xFC00F83F#32 0x48001000#32 .parcV3 (fun w => .mtxr (fieldRs w) (fieldRt w) (fieldSa w)) ∧
  IsRow 0xFC00F83F#32 0x48001800#32 .parcV3 (fun w => .mfxr (fieldRs w) (fieldRt w) (fieldSa w)) ∧
  ∀ (rs rt rAccel : Reg) (id : Word) (s : State), id = s.gpr rAccel →
    (xcelFind id s.xcels = none → exec (.mtxr rs rt rAccel) s = .fault (.noSuchAccelerator id) ∧
      exec (.mfxr rs rt rAccel) s = .fault (.noSuchAccelerator id)) ∧
    ∀ st, xcelFind id s.xcels = some st →
      (st.writeWaits.getLsbD rs.toNat = true → exec (.mtxr rs rt rAccel) s = .next s) ∧
      (st.readWaits.getLsbD rs.toNat = true → exec (.mfxr rs rt rAccel) s = .next s) ∧
      (st.writeWaits.getLsbD rs.toNat = false → ∃ t, exec (.mtxr rs rt rAccel) s = .next t ∧
        xcelFind id t.xcels = some (Config.xcelWrite id st rs (s.gpr rt)) ∧
        (∀ q, q ≠ id → xcelFind q t.xcels = xcelFind q s.xcels) ∧ t.turns = s.turns ∧ t.params = s.params ∧
        GoesOn s t ∧ SameGprs s t ∧ SameSpecial s t ∧ SameMemory s t) ∧
      (st.readWaits.getLsbD rs.toNat = false → ∃ t, exec (.mfxr rs rt rAccel) s = .next t ∧
        xcelFind id t.xcels = some (Config.xcelReadEffect id st rs) ∧
        (∀ q, q ≠ id → xcelFind q t.xcels = xcelFind q s.xcels) ∧ t.turns = s.turns ∧ t.params = s.params ∧
        GoesOn s t ∧ GprBecomes s t rt (Config.xcelReadValue id st rs) ∧ SameSpecial s t ∧ SameMemory s t)

/-! ### The whole machine -/

/-- The state after reset (10_state R30, 70_reset_and_hazards R300, R301): `pc` at the reset vector, `r0` is 0, no byte of
memory holds a value (log 4), nothing was stored to, the FIFO to the manager is empty. The zeros of the other registers, of
`epc` and of `stats_en` are the model's (log 1, 2, 3). -/
def Obligations.ResetState : Prop :=
  State.reset.pc = 0x00001000#32 ∧ State.reset.gpr 0#5 = 0#32 ∧
    (∀ n : Nat, Memory.read n State.reset.mem = none) ∧ State.reset.storedTo = [] ∧ State.reset.proc2mngr = [] ∧
    State.reset.received = [] ∧ (∀ q : Reg, State.reset.gpr q = 0#32) ∧ State.reset.epc = 0#32 ∧
    State.reset.statsEn = 0#32

/-- The state after reset satisfies the invariant of `StepKeepsInvariant`. -/
def Obligations.ResetSatisfiesInvariant : Prop := Inv State.reset

/-- Every step, from every state, keeps the invariant: `pc` and `epc` stay multiples of 4 (10_state R15), memory stays in
canonical form and inside the physical memory (20_memory R44), the stored-to bytes stay in order and hold values (R60),
slot 0 of the register file stays 0 (10_state R11), the accelerators' ids stay distinct (R26), and `COREID` stays one of 0 ..
`NUMCORES` - 1 (R22, 60_exceptions R277, D3). -/
def Obligations.StepKeepsInvariant : Prop := ∀ s t : State, Inv s → step s = .next t → Inv t

/-- `epc` is written by `syscall` and by nothing else (10_state R16, 60_exceptions R261), and no step changes a parameter of
the run (70_reset_and_hazards R304). -/
def Obligations.EpcOnlyBySyscall : Prop :=
  ∀ s t : State, step s = .next t →
    t.params = s.params ∧ (t.epc = s.epc ∨ (nextAct s = none ∧ fetchInstr s = .next .syscall))

/-- Memory is written by the three stores and the three atomics, at the bytes each addresses, and by no other instruction
(10_state R27, 20_memory R47, R51). -/
def Obligations.MemoryOnlyByStores : Prop :=
  ∀ (i : Instr) (s t : State), exec i s = .next t →
    ∀ n : Nat, (∀ width a, storeTarget s i = some (width, a) → n ∉ physBytes s.params width a) →
      Memory.read n t.mem = Memory.read n s.mem ∧ (n ∈ t.storedTo ↔ n ∈ s.storedTo)

/-- An instruction writes only the general register its fields name as destination, and `jal` only `r31` (10_state R13);
and `r0` reads 0 after every instruction (R11). -/
def Obligations.OnlyDestinationWritten : Prop :=
  ∀ (i : Instr) (s t : State), exec i s = .next t →
    t.gpr 0#5 = 0#32 ∧ ∀ q : Reg, destinationOf i ≠ some q → t.gpr q = s.gpr q

/-- Every instruction but the jumps, branches and the two exception instructions sets the next `pc` to `pc + 4` modulo 2^32
(00_scope R5). One that must wait has not executed: the model answers the state unchanged (10_state R18, R19, 49_float_accel
R249; that form of a stall is the model's choice, log 29, 30), and no other instruction does. -/
def Obligations.OthersGoOn : Prop :=
  ∀ (i : Instr) (s t : State), exec i s = .next t →
    (MustWait s i ∧ t = s) ∨
      (¬MustWait s i ∧
        (GoesOn s t ∨ (∃ a, i = .j a) ∨ (∃ a, i = .jal a) ∨ (∃ rs, i = .jr rs) ∨ (∃ rs rd, i = .jalr rs rd) ∨
          (∃ rs rt imm, i = .beq rs rt imm) ∨ (∃ rs rt imm, i = .bne rs rt imm) ∨ (∃ rs imm, i = .bgtz rs imm) ∨
          (∃ rs imm, i = .bltz rs imm) ∨ (∃ rs imm, i = .bgez rs imm) ∨ (∃ rs imm, i = .blez rs imm) ∨
          i = .syscall ∨ i = .eret))

/-- Both channels to the manager are in order and lossless (40_cop0_moves R103, 10_state R18, R19): one step appends at most
one word to the sequence of words sent (those the manager took, then those still queued), and removes at most one word, the
oldest, from the words offered. So a run that ends by words received (70_reset_and_hazards R305) stays ended. -/
def Obligations.ManagerWordsInOrder : Prop :=
  ∀ s t : State, step s = .next t →
    (∃ sent : List Word, sent.length ≤ 1 ∧
      t.received ++ t.proc2mngr = (s.received ++ s.proc2mngr) ++ sent) ∧
    (∃ taken : List Word, taken.length ≤ 1 ∧ taken ++ t.mngr2proc = s.mngr2proc ++ offeredWords s) ∧
    ∀ n : Nat, endsByWords n s = true → endsByWords n t = true

/-- `stats_en` has no effect but what `mfc0` from cpr21 reads (10_state R20, D32, log 28): with another value in it every other
instruction completes, faults or is refused the same way, with the same next state up to `stats_en`. -/
def Obligations.StatsEnHasNoEffect : Prop :=
  ∀ (i : Instr) (s : State) (v : Word), (∀ rt, i ≠ .mfc0 rt 21#5) →
    (∀ t, exec i s = .next t →
      ∃ u, exec i (s.setStatsEn v) = .next u ∧ u.setStatsEn t.statsEn = t ∧
        (u.statsEn = v ∨ ∃ rt, i = .mtc0 rt 21#5 ∧ u = t)) ∧
    (∀ f, exec i s = .fault f → exec i (s.setStatsEn v) = .fault f) ∧
    (∀ r, exec i s = .refused r → exec i (s.setStatsEn v) = .refused r)

/-- A run that ends by `n` words received (70_reset_and_hazards R305(a), D17) ends at a state of the run: the step that makes
it end is the manager's taking of the oldest queued word, the manager then has exactly `n` words, and no register, no byte of
memory, no accelerator and no word for the core has changed. So no instruction executes, and none can fault, between the
`n`-th word and the state the run ends in (that each outside act is a step of its own is the model's choice, log 29, 33). -/
def Obligations.RunEndsAtTheWord : Prop :=
  ∀ (n : Nat) (s t : State), step s = .next t → endsByWords n s = false → endsByWords n t = true →
    nextAct s = some .take ∧ t.received.length = n ∧ s.received ++ s.proc2mngr = t.received ++ t.proc2mngr ∧
      SameGprs s t ∧ t.pc = s.pc ∧ t.epc = s.epc ∧ t.statsEn = s.statsEn ∧ t.mngr2proc = s.mngr2proc ∧
      SameMemory s t ∧ t.xcels = s.xcels ∧ t.params = s.params
end

