-- ==== Sys2Proof/Laws/Encoding.lean ====
section
/-! SUPPORT. The laws of the formats: the fields of an encoded word, the word of its fields, and when a word has a row's
fixed bits. -/

namespace Sys2Proof

/-! ### The fields of an encoded word -/

section R
variable (op : BitVec 6) (f25 f20 f15 f10 : BitVec 5) (cmd : BitVec 6)

@[simp] theorem fieldOp_encodeR : fieldOp (encodeR op f25 f20 f15 f10 cmd) = op := by
  ext i; simp [fieldOp, encodeR]; grind
@[simp] theorem fieldRs_encodeR : fieldRs (encodeR op f25 f20 f15 f10 cmd) = f25 := by
  ext i; simp [fieldRs, encodeR]; grind
@[simp] theorem fieldRt_encodeR : fieldRt (encodeR op f25 f20 f15 f10 cmd) = f20 := by
  ext i; simp [fieldRt, encodeR]; grind
@[simp] theorem fieldRd_encodeR : fieldRd (encodeR op f25 f20 f15 f10 cmd) = f15 := by
  ext i; simp [fieldRd, encodeR]; grind
@[simp] theorem fieldSa_encodeR : fieldSa (encodeR op f25 f20 f15 f10 cmd) = f10 := by
  ext i; simp [fieldSa, encodeR]; grind
@[simp] theorem fieldCmd_encodeR : fieldCmd (encodeR op f25 f20 f15 f10 cmd) = cmd := by
  ext i; simp [fieldCmd, encodeR]; grind
end R

section I
variable (op : BitVec 6) (rs rt : BitVec 5) (imm : BitVec 16)

@[simp] theorem fieldOp_encodeI : fieldOp (encodeI op rs rt imm) = op := by
  ext i; simp [fieldOp, encodeI]; grind
@[simp] theorem fieldRs_encodeI : fieldRs (encodeI op rs rt imm) = rs := by
  ext i; simp [fieldRs, encodeI]; grind
@[simp] theorem fieldRt_encodeI : fieldRt (encodeI op rs rt imm) = rt := by
  ext i; simp [fieldRt, encodeI]; grind
@[simp] theorem fieldImm_encodeI : fieldImm (encodeI op rs rt imm) = imm := by
  ext i; simp [fieldImm, encodeI]; grind
end I

section J
variable (op : BitVec 6) (target : BitVec 26)

@[simp] theorem fieldOp_encodeJ : fieldOp (encodeJ op target) = op := by
  ext i; simp [fieldOp, encodeJ]; grind
@[simp] theorem fieldTarget_encodeJ : fieldTarget (encodeJ op target) = target := by
  ext i; simp [fieldTarget, encodeJ]; grind
end J

section X
variable (op : BitVec 6) (rs rt mt : BitVec 5) (accelId : BitVec 11)

@[simp] theorem fieldOp_encodeX : fieldOp (encodeX op rs rt mt accelId) = op := by
  ext i; simp [fieldOp, encodeX]; grind
@[simp] theorem fieldRs_encodeX : fieldRs (encodeX op rs rt mt accelId) = rs := by
  ext i; simp [fieldRs, encodeX]; grind
@[simp] theorem fieldRt_encodeX : fieldRt (encodeX op rs rt mt accelId) = rt := by
  ext i; simp [fieldRt, encodeX]; grind
@[simp] theorem fieldRd_encodeX : fieldRd (encodeX op rs rt mt accelId) = mt := by
  ext i; simp [fieldRd, encodeX]; grind
@[simp] theorem fieldAccelId_encodeX : fieldAccelId (encodeX op rs rt mt accelId) = accelId := by
  ext i; simp [fieldAccelId, encodeX]; grind
end X

/-! ### The word of its fields -/

theorem encodeR_fields (w : Word) :
    encodeR (fieldOp w) (fieldRs w) (fieldRt w) (fieldRd w) (fieldSa w) (fieldCmd w) = w := by
  ext i; simp [fieldOp, fieldRs, fieldRt, fieldRd, fieldSa, fieldCmd, encodeR]; grind

theorem encodeI_fields (w : Word) : encodeI (fieldOp w) (fieldRs w) (fieldRt w) (fieldImm w) = w := by
  ext i; simp [fieldOp, fieldRs, fieldRt, fieldImm, encodeI]; grind

theorem encodeJ_fields (w : Word) : encodeJ (fieldOp w) (fieldTarget w) = w := by
  ext i; simp [fieldOp, fieldTarget, encodeJ]; grind

theorem encodeX_fields (w : Word) :
    encodeX (fieldOp w) (fieldRs w) (fieldRt w) (fieldRd w) (fieldAccelId w) = w := by
  ext i; simp [fieldOp, fieldRs, fieldRt, fieldRd, fieldAccelId, encodeX]; grind

/-! ### When a word has given fixed bits -/

/-- Two words of R-Type layout are equal exactly when their fields are. -/
theorem encodeR_inj {a a' : BitVec 6} {b b' c c' d d' e e' : BitVec 5} {f f' : BitVec 6} :
    encodeR a b c d e f = encodeR a' b' c' d' e' f' ↔ a = a' ∧ b = b' ∧ c = c' ∧ d = d' ∧ e = e' ∧ f = f' := by
  constructor
  · intro h
    refine ⟨?_, ?_, ?_, ?_, ?_, ?_⟩
    · simpa using congrArg fieldOp h
    · simpa using congrArg fieldRs h
    · simpa using congrArg fieldRt h
    · simpa using congrArg fieldRd h
    · simpa using congrArg fieldSa h
    · simpa using congrArg fieldCmd h
  · rintro ⟨rfl, rfl, rfl, rfl, rfl, rfl⟩; rfl

/-- Two words of I-Type layout are equal exactly when their fields are. -/
theorem encodeI_inj {a a' : BitVec 6} {b b' c c' : BitVec 5} {d d' : BitVec 16} :
    encodeI a b c d = encodeI a' b' c' d' ↔ a = a' ∧ b = b' ∧ c = c' ∧ d = d' := by
  constructor
  · intro h
    refine ⟨?_, ?_, ?_, ?_⟩
    · simpa using congrArg fieldOp h
    · simpa using congrArg fieldRs h
    · simpa using congrArg fieldRt h
    · simpa using congrArg fieldImm h
  · rintro ⟨rfl, rfl, rfl, rfl⟩; rfl

/-- Two words of J-Type layout are equal exactly when their fields are. -/
theorem encodeJ_inj {a a' : BitVec 6} {b b' : BitVec 26} : encodeJ a b = encodeJ a' b' ↔ a = a' ∧ b = b' := by
  constructor
  · intro h
    exact ⟨by simpa using congrArg fieldOp h, by simpa using congrArg fieldTarget h⟩
  · rintro ⟨rfl, rfl⟩; rfl

/-- Two words of COP2-Type layout are equal exactly when their fields are. -/
theorem encodeX_inj {a a' : BitVec 6} {b b' c c' d d' : BitVec 5} {e e' : BitVec 11} :
    encodeX a b c d e = encodeX a' b' c' d' e' ↔ a = a' ∧ b = b' ∧ c = c' ∧ d = d' ∧ e = e' := by
  constructor
  · intro h
    refine ⟨?_, ?_, ?_, ?_, ?_⟩
    · simpa using congrArg fieldOp h
    · simpa using congrArg fieldRs h
    · simpa using congrArg fieldRt h
    · simpa using congrArg fieldRd h
    · simpa using congrArg fieldAccelId h
  · rintro ⟨rfl, rfl, rfl, rfl, rfl⟩; rfl

/-- A mask over an R-Type word acts on each field. -/
theorem encodeR_and (a a' : BitVec 6) (b b' c c' d d' e e' : BitVec 5) (f f' : BitVec 6) :
    encodeR a b c d e f &&& encodeR a' b' c' d' e' f' =
      encodeR (a &&& a') (b &&& b') (c &&& c') (d &&& d') (e &&& e') (f &&& f') := by
  ext i; simp [encodeR]; grind

/-- A mask over an I-Type word acts on each field. -/
theorem encodeI_and (a a' : BitVec 6) (b b' c c' : BitVec 5) (d d' : BitVec 16) :
    encodeI a b c d &&& encodeI a' b' c' d' = encodeI (a &&& a') (b &&& b') (c &&& c') (d &&& d') := by
  ext i; simp [encodeI]; grind

/-- A mask over a J-Type word acts on each field. -/
theorem encodeJ_and (a a' : BitVec 6) (b b' : BitVec 26) :
    encodeJ a b &&& encodeJ a' b' = encodeJ (a &&& a') (b &&& b') := by
  ext i; simp [encodeJ]; grind

/-- A mask over a COP2-Type word acts on each field. -/
theorem encodeX_and (a a' : BitVec 6) (b b' c c' d d' : BitVec 5) (e e' : BitVec 11) :
    encodeX a b c d e &&& encodeX a' b' c' d' e' =
      encodeX (a &&& a') (b &&& b') (c &&& c') (d &&& d') (e &&& e') := by
  ext i; simp [encodeX]; grind

/-- A word has the fixed bits of an R-Type pattern exactly when each of its fields has that field's. -/
theorem and_eq_encodeR (w : Word) (a a' : BitVec 6) (b b' c c' d d' e e' : BitVec 5) (f f' : BitVec 6) :
    w &&& encodeR a b c d e f = encodeR a' b' c' d' e' f' ↔
      fieldOp w &&& a = a' ∧ fieldRs w &&& b = b' ∧ fieldRt w &&& c = c' ∧ fieldRd w &&& d = d' ∧
        fieldSa w &&& e = e' ∧ fieldCmd w &&& f = f' := by
  conv_lhs => rw [← encodeR_fields w, encodeR_and, encodeR_inj]

/-- A word has the fixed bits of an I-Type pattern exactly when each of its fields has that field's. -/
theorem and_eq_encodeI (w : Word) (a a' : BitVec 6) (b b' c c' : BitVec 5) (d d' : BitVec 16) :
    w &&& encodeI a b c d = encodeI a' b' c' d' ↔
      fieldOp w &&& a = a' ∧ fieldRs w &&& b = b' ∧ fieldRt w &&& c = c' ∧ fieldImm w &&& d = d' := by
  conv_lhs => rw [← encodeI_fields w, encodeI_and, encodeI_inj]

/-- A word has the fixed bits of a J-Type pattern exactly when each of its fields has that field's. -/
theorem and_eq_encodeJ (w : Word) (a a' : BitVec 6) (b b' : BitVec 26) :
    w &&& encodeJ a b = encodeJ a' b' ↔ fieldOp w &&& a = a' ∧ fieldTarget w &&& b = b' := by
  conv_lhs => rw [← encodeJ_fields w, encodeJ_and, encodeJ_inj]

/-- A word has the fixed bits of a COP2-Type pattern exactly when each of its fields has that field's. -/
theorem and_eq_encodeX (w : Word) (a a' : BitVec 6) (b b' c c' d d' : BitVec 5) (e e' : BitVec 11) :
    w &&& encodeX a b c d e = encodeX a' b' c' d' e' ↔
      fieldOp w &&& a = a' ∧ fieldRs w &&& b = b' ∧ fieldRt w &&& c = c' ∧ fieldRd w &&& d = d' ∧
        fieldAccelId w &&& e = e' := by
  conv_lhs => rw [← encodeX_fields w, encodeX_and, encodeX_inj]

/-! ### Reading a pattern -/

@[simp] theorem and_ones_six (x : BitVec 6) : x &&& 63#6 = x := by revert x; decide
@[simp] theorem and_ones_five (x : BitVec 5) : x &&& 31#5 = x := by revert x; decide

@[simp] theorem ifFixed_ok {b : Bool} {i j : Instr} : ifFixed b i = .ok j ↔ b = true ∧ i = j := by
  cases b <;> simp [ifFixed]

/-- The launch's decoder answers an instruction exactly when the word is that instruction's, the version has it and its row is
admitted. -/
theorem decodeFor_ok {p : Params} {w : Word} {i : Instr} :
    decodeFor p w = .ok i ↔ decode w = .ok i ∧ p.hasVersion i = true ∧ p.admitsRow i = true := by
  unfold decodeFor
  cases decode w with
  | error e => simp
  | ok j =>
    simp only [Except.ok.injEq]
    constructor
    · intro h
      split at h
      · cases h
      split at h
      · cases h
      · cases h
        simp_all
    · rintro ⟨rfl, hv, ha⟩
      simp [hv, ha]

end Sys2Proof
end

