-- ==== Sys2Proof/Laws/State.lean ====
section
/-! SUPPORT. One lemma per field per update of the state, true by rfl, so that no proof unfolds a record update; and what the
accessors read after each update. -/

namespace Sys2Proof.Machine

open Sys2Proof

variable (s : State)

@[simp] theorem State.setGpr_pc (r : Reg) (v : Word) : (s.setGpr r v).pc = s.pc := rfl
@[simp] theorem State.setGpr_epc (r : Reg) (v : Word) : (s.setGpr r v).epc = s.epc := rfl
@[simp] theorem State.setGpr_statsEn (r : Reg) (v : Word) : (s.setGpr r v).statsEn = s.statsEn := rfl
@[simp] theorem State.setGpr_mngr2proc (r : Reg) (v : Word) : (s.setGpr r v).mngr2proc = s.mngr2proc := rfl
@[simp] theorem State.setGpr_proc2mngr (r : Reg) (v : Word) : (s.setGpr r v).proc2mngr = s.proc2mngr := rfl
@[simp] theorem State.setGpr_proc2mngrReady (r : Reg) (v : Word) : (s.setGpr r v).proc2mngrReady = s.proc2mngrReady := rfl
@[simp] theorem State.setGpr_received (r : Reg) (v : Word) : (s.setGpr r v).received = s.received := rfl
@[simp] theorem State.setGpr_mem (r : Reg) (v : Word) : (s.setGpr r v).mem = s.mem := rfl
@[simp] theorem State.setGpr_storedTo (r : Reg) (v : Word) : (s.setGpr r v).storedTo = s.storedTo := rfl
@[simp] theorem State.setGpr_xcels (r : Reg) (v : Word) : (s.setGpr r v).xcels = s.xcels := rfl
@[simp] theorem State.setGpr_turns (r : Reg) (v : Word) : (s.setGpr r v).turns = s.turns := rfl
@[simp] theorem State.setGpr_params (r : Reg) (v : Word) : (s.setGpr r v).params = s.params := rfl

@[simp] theorem State.setPc_regs (t : Word) : (s.setPc t).regs = s.regs := rfl
@[simp] theorem State.setPc_pc (t : Word) : (s.setPc t).pc = t := rfl
@[simp] theorem State.setPc_epc (t : Word) : (s.setPc t).epc = s.epc := rfl
@[simp] theorem State.setPc_statsEn (t : Word) : (s.setPc t).statsEn = s.statsEn := rfl
@[simp] theorem State.setPc_mngr2proc (t : Word) : (s.setPc t).mngr2proc = s.mngr2proc := rfl
@[simp] theorem State.setPc_proc2mngr (t : Word) : (s.setPc t).proc2mngr = s.proc2mngr := rfl
@[simp] theorem State.setPc_proc2mngrReady (t : Word) : (s.setPc t).proc2mngrReady = s.proc2mngrReady := rfl
@[simp] theorem State.setPc_received (t : Word) : (s.setPc t).received = s.received := rfl
@[simp] theorem State.setPc_mem (t : Word) : (s.setPc t).mem = s.mem := rfl
@[simp] theorem State.setPc_storedTo (t : Word) : (s.setPc t).storedTo = s.storedTo := rfl
@[simp] theorem State.setPc_xcels (t : Word) : (s.setPc t).xcels = s.xcels := rfl
@[simp] theorem State.setPc_turns (t : Word) : (s.setPc t).turns = s.turns := rfl
@[simp] theorem State.setPc_params (t : Word) : (s.setPc t).params = s.params := rfl

@[simp] theorem State.advance_regs : (s.advance).regs = s.regs := rfl
@[simp] theorem State.advance_pc : (s.advance).pc = s.pcPlus4 := rfl
@[simp] theorem State.advance_epc : (s.advance).epc = s.epc := rfl
@[simp] theorem State.advance_statsEn : (s.advance).statsEn = s.statsEn := rfl
@[simp] theorem State.advance_mngr2proc : (s.advance).mngr2proc = s.mngr2proc := rfl
@[simp] theorem State.advance_proc2mngr : (s.advance).proc2mngr = s.proc2mngr := rfl
@[simp] theorem State.advance_proc2mngrReady : (s.advance).proc2mngrReady = s.proc2mngrReady := rfl
@[simp] theorem State.advance_received : (s.advance).received = s.received := rfl
@[simp] theorem State.advance_mem : (s.advance).mem = s.mem := rfl
@[simp] theorem State.advance_storedTo : (s.advance).storedTo = s.storedTo := rfl
@[simp] theorem State.advance_xcels : (s.advance).xcels = s.xcels := rfl
@[simp] theorem State.advance_turns : (s.advance).turns = s.turns := rfl
@[simp] theorem State.advance_params : (s.advance).params = s.params := rfl

@[simp] theorem State.setMngr2proc_regs (rest : List Word) : (s.setMngr2proc rest).regs = s.regs := rfl
@[simp] theorem State.setMngr2proc_pc (rest : List Word) : (s.setMngr2proc rest).pc = s.pc := rfl
@[simp] theorem State.setMngr2proc_epc (rest : List Word) : (s.setMngr2proc rest).epc = s.epc := rfl
@[simp] theorem State.setMngr2proc_statsEn (rest : List Word) : (s.setMngr2proc rest).statsEn = s.statsEn := rfl
@[simp] theorem State.setMngr2proc_mngr2proc (rest : List Word) : (s.setMngr2proc rest).mngr2proc = rest := rfl
@[simp] theorem State.setMngr2proc_proc2mngr (rest : List Word) : (s.setMngr2proc rest).proc2mngr = s.proc2mngr := rfl
@[simp] theorem State.setMngr2proc_proc2mngrReady (rest : List Word) : (s.setMngr2proc rest).proc2mngrReady = s.proc2mngrReady := rfl
@[simp] theorem State.setMngr2proc_received (rest : List Word) : (s.setMngr2proc rest).received = s.received := rfl
@[simp] theorem State.setMngr2proc_mem (rest : List Word) : (s.setMngr2proc rest).mem = s.mem := rfl
@[simp] theorem State.setMngr2proc_storedTo (rest : List Word) : (s.setMngr2proc rest).storedTo = s.storedTo := rfl
@[simp] theorem State.setMngr2proc_xcels (rest : List Word) : (s.setMngr2proc rest).xcels = s.xcels := rfl
@[simp] theorem State.setMngr2proc_turns (rest : List Word) : (s.setMngr2proc rest).turns = s.turns := rfl
@[simp] theorem State.setMngr2proc_params (rest : List Word) : (s.setMngr2proc rest).params = s.params := rfl

@[simp] theorem State.enqueue_regs (w : Word) : (s.enqueue w).regs = s.regs := rfl
@[simp] theorem State.enqueue_pc (w : Word) : (s.enqueue w).pc = s.pc := rfl
@[simp] theorem State.enqueue_epc (w : Word) : (s.enqueue w).epc = s.epc := rfl
@[simp] theorem State.enqueue_statsEn (w : Word) : (s.enqueue w).statsEn = s.statsEn := rfl
@[simp] theorem State.enqueue_mngr2proc (w : Word) : (s.enqueue w).mngr2proc = s.mngr2proc := rfl
@[simp] theorem State.enqueue_proc2mngr (w : Word) : (s.enqueue w).proc2mngr = s.proc2mngr ++ [w] := rfl
@[simp] theorem State.enqueue_proc2mngrReady (w : Word) : (s.enqueue w).proc2mngrReady = s.proc2mngrReady := rfl
@[simp] theorem State.enqueue_received (w : Word) : (s.enqueue w).received = s.received := rfl
@[simp] theorem State.enqueue_mem (w : Word) : (s.enqueue w).mem = s.mem := rfl
@[simp] theorem State.enqueue_storedTo (w : Word) : (s.enqueue w).storedTo = s.storedTo := rfl
@[simp] theorem State.enqueue_xcels (w : Word) : (s.enqueue w).xcels = s.xcels := rfl
@[simp] theorem State.enqueue_turns (w : Word) : (s.enqueue w).turns = s.turns := rfl
@[simp] theorem State.enqueue_params (w : Word) : (s.enqueue w).params = s.params := rfl

@[simp] theorem State.setStatsEn_regs (v : Word) : (s.setStatsEn v).regs = s.regs := rfl
@[simp] theorem State.setStatsEn_pc (v : Word) : (s.setStatsEn v).pc = s.pc := rfl
@[simp] theorem State.setStatsEn_epc (v : Word) : (s.setStatsEn v).epc = s.epc := rfl
@[simp] theorem State.setStatsEn_statsEn (v : Word) : (s.setStatsEn v).statsEn = v := rfl
@[simp] theorem State.setStatsEn_mngr2proc (v : Word) : (s.setStatsEn v).mngr2proc = s.mngr2proc := rfl
@[simp] theorem State.setStatsEn_proc2mngr (v : Word) : (s.setStatsEn v).proc2mngr = s.proc2mngr := rfl
@[simp] theorem State.setStatsEn_proc2mngrReady (v : Word) : (s.setStatsEn v).proc2mngrReady = s.proc2mngrReady := rfl
@[simp] theorem State.setStatsEn_received (v : Word) : (s.setStatsEn v).received = s.received := rfl
@[simp] theorem State.setStatsEn_mem (v : Word) : (s.setStatsEn v).mem = s.mem := rfl
@[simp] theorem State.setStatsEn_storedTo (v : Word) : (s.setStatsEn v).storedTo = s.storedTo := rfl
@[simp] theorem State.setStatsEn_xcels (v : Word) : (s.setStatsEn v).xcels = s.xcels := rfl
@[simp] theorem State.setStatsEn_turns (v : Word) : (s.setStatsEn v).turns = s.turns := rfl
@[simp] theorem State.setStatsEn_params (v : Word) : (s.setStatsEn v).params = s.params := rfl

@[simp] theorem State.setEpc_regs (v : Word) : (s.setEpc v).regs = s.regs := rfl
@[simp] theorem State.setEpc_pc (v : Word) : (s.setEpc v).pc = s.pc := rfl
@[simp] theorem State.setEpc_epc (v : Word) : (s.setEpc v).epc = v := rfl
@[simp] theorem State.setEpc_statsEn (v : Word) : (s.setEpc v).statsEn = s.statsEn := rfl
@[simp] theorem State.setEpc_mngr2proc (v : Word) : (s.setEpc v).mngr2proc = s.mngr2proc := rfl
@[simp] theorem State.setEpc_proc2mngr (v : Word) : (s.setEpc v).proc2mngr = s.proc2mngr := rfl
@[simp] theorem State.setEpc_proc2mngrReady (v : Word) : (s.setEpc v).proc2mngrReady = s.proc2mngrReady := rfl
@[simp] theorem State.setEpc_received (v : Word) : (s.setEpc v).received = s.received := rfl
@[simp] theorem State.setEpc_mem (v : Word) : (s.setEpc v).mem = s.mem := rfl
@[simp] theorem State.setEpc_storedTo (v : Word) : (s.setEpc v).storedTo = s.storedTo := rfl
@[simp] theorem State.setEpc_xcels (v : Word) : (s.setEpc v).xcels = s.xcels := rfl
@[simp] theorem State.setEpc_turns (v : Word) : (s.setEpc v).turns = s.turns := rfl
@[simp] theorem State.setEpc_params (v : Word) : (s.setEpc v).params = s.params := rfl

@[simp] theorem State.setXcel_regs (id : Word) (st : XcelState) : (s.setXcel id st).regs = s.regs := rfl
@[simp] theorem State.setXcel_pc (id : Word) (st : XcelState) : (s.setXcel id st).pc = s.pc := rfl
@[simp] theorem State.setXcel_epc (id : Word) (st : XcelState) : (s.setXcel id st).epc = s.epc := rfl
@[simp] theorem State.setXcel_statsEn (id : Word) (st : XcelState) : (s.setXcel id st).statsEn = s.statsEn := rfl
@[simp] theorem State.setXcel_mngr2proc (id : Word) (st : XcelState) : (s.setXcel id st).mngr2proc = s.mngr2proc := rfl
@[simp] theorem State.setXcel_proc2mngr (id : Word) (st : XcelState) : (s.setXcel id st).proc2mngr = s.proc2mngr := rfl
@[simp] theorem State.setXcel_proc2mngrReady (id : Word) (st : XcelState) : (s.setXcel id st).proc2mngrReady = s.proc2mngrReady := rfl
@[simp] theorem State.setXcel_received (id : Word) (st : XcelState) : (s.setXcel id st).received = s.received := rfl
@[simp] theorem State.setXcel_mem (id : Word) (st : XcelState) : (s.setXcel id st).mem = s.mem := rfl
@[simp] theorem State.setXcel_storedTo (id : Word) (st : XcelState) : (s.setXcel id st).storedTo = s.storedTo := rfl
@[simp] theorem State.setXcel_xcels (id : Word) (st : XcelState) : (s.setXcel id st).xcels = xcelPut id st s.xcels := rfl
@[simp] theorem State.setXcel_turns (id : Word) (st : XcelState) : (s.setXcel id st).turns = s.turns := rfl
@[simp] theorem State.setXcel_params (id : Word) (st : XcelState) : (s.setXcel id st).params = s.params := rfl

@[simp] theorem State.storeByte_regs (n : Nat) (b : Byte) : (s.storeByte n b).regs = s.regs := rfl
@[simp] theorem State.storeByte_pc (n : Nat) (b : Byte) : (s.storeByte n b).pc = s.pc := rfl
@[simp] theorem State.storeByte_epc (n : Nat) (b : Byte) : (s.storeByte n b).epc = s.epc := rfl
@[simp] theorem State.storeByte_statsEn (n : Nat) (b : Byte) : (s.storeByte n b).statsEn = s.statsEn := rfl
@[simp] theorem State.storeByte_mngr2proc (n : Nat) (b : Byte) : (s.storeByte n b).mngr2proc = s.mngr2proc := rfl
@[simp] theorem State.storeByte_proc2mngr (n : Nat) (b : Byte) : (s.storeByte n b).proc2mngr = s.proc2mngr := rfl
@[simp] theorem State.storeByte_proc2mngrReady (n : Nat) (b : Byte) : (s.storeByte n b).proc2mngrReady = s.proc2mngrReady := rfl
@[simp] theorem State.storeByte_received (n : Nat) (b : Byte) : (s.storeByte n b).received = s.received := rfl
@[simp] theorem State.storeByte_mem (n : Nat) (b : Byte) : (s.storeByte n b).mem = Memory.write n b s.mem := rfl
@[simp] theorem State.storeByte_storedTo (n : Nat) (b : Byte) : (s.storeByte n b).storedTo = insertAddr n s.storedTo := rfl
@[simp] theorem State.storeByte_xcels (n : Nat) (b : Byte) : (s.storeByte n b).xcels = s.xcels := rfl
@[simp] theorem State.storeByte_turns (n : Nat) (b : Byte) : (s.storeByte n b).turns = s.turns := rfl
@[simp] theorem State.storeByte_params (n : Nat) (b : Byte) : (s.storeByte n b).params = s.params := rfl

@[simp] theorem State.storeHalf_regs (a v : Word) : (s.storeHalf a v).regs = s.regs := rfl
@[simp] theorem State.storeHalf_pc (a v : Word) : (s.storeHalf a v).pc = s.pc := rfl
@[simp] theorem State.storeHalf_epc (a v : Word) : (s.storeHalf a v).epc = s.epc := rfl
@[simp] theorem State.storeHalf_statsEn (a v : Word) : (s.storeHalf a v).statsEn = s.statsEn := rfl
@[simp] theorem State.storeHalf_mngr2proc (a v : Word) : (s.storeHalf a v).mngr2proc = s.mngr2proc := rfl
@[simp] theorem State.storeHalf_proc2mngr (a v : Word) : (s.storeHalf a v).proc2mngr = s.proc2mngr := rfl
@[simp] theorem State.storeHalf_proc2mngrReady (a v : Word) : (s.storeHalf a v).proc2mngrReady = s.proc2mngrReady := rfl
@[simp] theorem State.storeHalf_received (a v : Word) : (s.storeHalf a v).received = s.received := rfl
@[simp] theorem State.storeHalf_xcels (a v : Word) : (s.storeHalf a v).xcels = s.xcels := rfl
@[simp] theorem State.storeHalf_turns (a v : Word) : (s.storeHalf a v).turns = s.turns := rfl
@[simp] theorem State.storeHalf_params (a v : Word) : (s.storeHalf a v).params = s.params := rfl

@[simp] theorem State.storeWord_regs (a v : Word) : (s.storeWord a v).regs = s.regs := rfl
@[simp] theorem State.storeWord_pc (a v : Word) : (s.storeWord a v).pc = s.pc := rfl
@[simp] theorem State.storeWord_epc (a v : Word) : (s.storeWord a v).epc = s.epc := rfl
@[simp] theorem State.storeWord_statsEn (a v : Word) : (s.storeWord a v).statsEn = s.statsEn := rfl
@[simp] theorem State.storeWord_mngr2proc (a v : Word) : (s.storeWord a v).mngr2proc = s.mngr2proc := rfl
@[simp] theorem State.storeWord_proc2mngr (a v : Word) : (s.storeWord a v).proc2mngr = s.proc2mngr := rfl
@[simp] theorem State.storeWord_proc2mngrReady (a v : Word) : (s.storeWord a v).proc2mngrReady = s.proc2mngrReady := rfl
@[simp] theorem State.storeWord_received (a v : Word) : (s.storeWord a v).received = s.received := rfl
@[simp] theorem State.storeWord_xcels (a v : Word) : (s.storeWord a v).xcels = s.xcels := rfl
@[simp] theorem State.storeWord_turns (a v : Word) : (s.storeWord a v).turns = s.turns := rfl
@[simp] theorem State.storeWord_params (a v : Word) : (s.storeWord a v).params = s.params := rfl

@[simp] theorem State.placeByte_regs (n : Nat) (b : Byte) : (s.placeByte n b).regs = s.regs := rfl
@[simp] theorem State.placeByte_pc (n : Nat) (b : Byte) : (s.placeByte n b).pc = s.pc := rfl
@[simp] theorem State.placeByte_epc (n : Nat) (b : Byte) : (s.placeByte n b).epc = s.epc := rfl
@[simp] theorem State.placeByte_statsEn (n : Nat) (b : Byte) : (s.placeByte n b).statsEn = s.statsEn := rfl
@[simp] theorem State.placeByte_mngr2proc (n : Nat) (b : Byte) : (s.placeByte n b).mngr2proc = s.mngr2proc := rfl
@[simp] theorem State.placeByte_proc2mngr (n : Nat) (b : Byte) : (s.placeByte n b).proc2mngr = s.proc2mngr := rfl
@[simp] theorem State.placeByte_proc2mngrReady (n : Nat) (b : Byte) : (s.placeByte n b).proc2mngrReady = s.proc2mngrReady := rfl
@[simp] theorem State.placeByte_received (n : Nat) (b : Byte) : (s.placeByte n b).received = s.received := rfl
@[simp] theorem State.placeByte_mem (n : Nat) (b : Byte) : (s.placeByte n b).mem = Memory.write n b s.mem := rfl
@[simp] theorem State.placeByte_storedTo (n : Nat) (b : Byte) : (s.placeByte n b).storedTo = s.storedTo.filter (fun x => x != n) := rfl
@[simp] theorem State.placeByte_xcels (n : Nat) (b : Byte) : (s.placeByte n b).xcels = s.xcels := rfl
@[simp] theorem State.placeByte_turns (n : Nat) (b : Byte) : (s.placeByte n b).turns = s.turns := rfl
@[simp] theorem State.placeByte_params (n : Nat) (b : Byte) : (s.placeByte n b).params = s.params := rfl

@[simp] theorem State.placeWord_regs (a v : Word) : (s.placeWord a v).regs = s.regs := rfl
@[simp] theorem State.placeWord_pc (a v : Word) : (s.placeWord a v).pc = s.pc := rfl
@[simp] theorem State.placeWord_epc (a v : Word) : (s.placeWord a v).epc = s.epc := rfl
@[simp] theorem State.placeWord_statsEn (a v : Word) : (s.placeWord a v).statsEn = s.statsEn := rfl
@[simp] theorem State.placeWord_mngr2proc (a v : Word) : (s.placeWord a v).mngr2proc = s.mngr2proc := rfl
@[simp] theorem State.placeWord_proc2mngr (a v : Word) : (s.placeWord a v).proc2mngr = s.proc2mngr := rfl
@[simp] theorem State.placeWord_proc2mngrReady (a v : Word) : (s.placeWord a v).proc2mngrReady = s.proc2mngrReady := rfl
@[simp] theorem State.placeWord_received (a v : Word) : (s.placeWord a v).received = s.received := rfl
@[simp] theorem State.placeWord_xcels (a v : Word) : (s.placeWord a v).xcels = s.xcels := rfl
@[simp] theorem State.placeWord_turns (a v : Word) : (s.placeWord a v).turns = s.turns := rfl
@[simp] theorem State.placeWord_params (a v : Word) : (s.placeWord a v).params = s.params := rfl

@[simp] theorem State.takeTurn_regs : s.takeTurn.regs = s.regs := rfl
@[simp] theorem State.takeTurn_pc : s.takeTurn.pc = s.pc := rfl
@[simp] theorem State.takeTurn_epc : s.takeTurn.epc = s.epc := rfl
@[simp] theorem State.takeTurn_statsEn : s.takeTurn.statsEn = s.statsEn := rfl
@[simp] theorem State.takeTurn_mngr2proc : s.takeTurn.mngr2proc = s.mngr2proc := rfl
@[simp] theorem State.takeTurn_proc2mngr : s.takeTurn.proc2mngr = s.proc2mngr := rfl
@[simp] theorem State.takeTurn_proc2mngrReady : s.takeTurn.proc2mngrReady = s.proc2mngrReady := rfl
@[simp] theorem State.takeTurn_received : s.takeTurn.received = s.received := rfl
@[simp] theorem State.takeTurn_mem : s.takeTurn.mem = s.mem := rfl
@[simp] theorem State.takeTurn_storedTo : s.takeTurn.storedTo = s.storedTo := rfl
@[simp] theorem State.takeTurn_xcels : s.takeTurn.xcels = s.xcels := rfl
@[simp] theorem State.takeTurn_params : s.takeTurn.params = s.params := rfl
@[simp] theorem State.takeTurn_turns : s.takeTurn.turns = s.turns.tail := rfl

@[simp] theorem State.coreNext_regs : s.coreNext.regs = s.regs := rfl
@[simp] theorem State.coreNext_pc : s.coreNext.pc = s.pc := rfl
@[simp] theorem State.coreNext_epc : s.coreNext.epc = s.epc := rfl
@[simp] theorem State.coreNext_statsEn : s.coreNext.statsEn = s.statsEn := rfl
@[simp] theorem State.coreNext_mngr2proc : s.coreNext.mngr2proc = s.mngr2proc := rfl
@[simp] theorem State.coreNext_proc2mngr : s.coreNext.proc2mngr = s.proc2mngr := rfl
@[simp] theorem State.coreNext_proc2mngrReady : s.coreNext.proc2mngrReady = s.proc2mngrReady := rfl
@[simp] theorem State.coreNext_received : s.coreNext.received = s.received := rfl
@[simp] theorem State.coreNext_mem : s.coreNext.mem = s.mem := rfl
@[simp] theorem State.coreNext_storedTo : s.coreNext.storedTo = s.storedTo := rfl
@[simp] theorem State.coreNext_xcels : s.coreNext.xcels = s.xcels := rfl
@[simp] theorem State.coreNext_params : s.coreNext.params = s.params := rfl

/-! What the accessors read after an update of another field. -/

@[simp] theorem State.setGpr_pcPlus4 (r : Reg) (v : Word) : (s.setGpr r v).pcPlus4 = s.pcPlus4 := rfl
@[simp] theorem State.setGpr_byteAt (r : Reg) (v : Word) (x : Word) : (s.setGpr r v).byteAt x = s.byteAt x := rfl
@[simp] theorem State.setGpr_halfAt (r : Reg) (v : Word) (x : Word) : (s.setGpr r v).halfAt x = s.halfAt x := rfl
@[simp] theorem State.setGpr_wordAt (r : Reg) (v : Word) (x : Word) : (s.setGpr r v).wordAt x = s.wordAt x := rfl
@[simp] theorem State.setPc_gpr (t : Word) (q : Reg) : (s.setPc t).gpr q = s.gpr q := rfl
@[simp] theorem State.setPc_byteAt (t : Word) (x : Word) : (s.setPc t).byteAt x = s.byteAt x := rfl
@[simp] theorem State.setPc_halfAt (t : Word) (x : Word) : (s.setPc t).halfAt x = s.halfAt x := rfl
@[simp] theorem State.setPc_wordAt (t : Word) (x : Word) : (s.setPc t).wordAt x = s.wordAt x := rfl
@[simp] theorem State.advance_gpr (q : Reg) : (s.advance).gpr q = s.gpr q := rfl
@[simp] theorem State.advance_byteAt (x : Word) : (s.advance).byteAt x = s.byteAt x := rfl
@[simp] theorem State.advance_halfAt (x : Word) : (s.advance).halfAt x = s.halfAt x := rfl
@[simp] theorem State.advance_wordAt (x : Word) : (s.advance).wordAt x = s.wordAt x := rfl
@[simp] theorem State.setMngr2proc_gpr (rest : List Word) (q : Reg) : (s.setMngr2proc rest).gpr q = s.gpr q := rfl
@[simp] theorem State.setMngr2proc_pcPlus4 (rest : List Word) : (s.setMngr2proc rest).pcPlus4 = s.pcPlus4 := rfl
@[simp] theorem State.setMngr2proc_byteAt (rest : List Word) (x : Word) : (s.setMngr2proc rest).byteAt x = s.byteAt x := rfl
@[simp] theorem State.setMngr2proc_halfAt (rest : List Word) (x : Word) : (s.setMngr2proc rest).halfAt x = s.halfAt x := rfl
@[simp] theorem State.setMngr2proc_wordAt (rest : List Word) (x : Word) : (s.setMngr2proc rest).wordAt x = s.wordAt x := rfl
@[simp] theorem State.enqueue_gpr (w : Word) (q : Reg) : (s.enqueue w).gpr q = s.gpr q := rfl
@[simp] theorem State.enqueue_pcPlus4 (w : Word) : (s.enqueue w).pcPlus4 = s.pcPlus4 := rfl
@[simp] theorem State.enqueue_byteAt (w : Word) (x : Word) : (s.enqueue w).byteAt x = s.byteAt x := rfl
@[simp] theorem State.enqueue_halfAt (w : Word) (x : Word) : (s.enqueue w).halfAt x = s.halfAt x := rfl
@[simp] theorem State.enqueue_wordAt (w : Word) (x : Word) : (s.enqueue w).wordAt x = s.wordAt x := rfl
@[simp] theorem State.setStatsEn_gpr (v : Word) (q : Reg) : (s.setStatsEn v).gpr q = s.gpr q := rfl
@[simp] theorem State.setStatsEn_pcPlus4 (v : Word) : (s.setStatsEn v).pcPlus4 = s.pcPlus4 := rfl
@[simp] theorem State.setStatsEn_byteAt (v : Word) (x : Word) : (s.setStatsEn v).byteAt x = s.byteAt x := rfl
@[simp] theorem State.setStatsEn_halfAt (v : Word) (x : Word) : (s.setStatsEn v).halfAt x = s.halfAt x := rfl
@[simp] theorem State.setStatsEn_wordAt (v : Word) (x : Word) : (s.setStatsEn v).wordAt x = s.wordAt x := rfl
@[simp] theorem State.setEpc_gpr (v : Word) (q : Reg) : (s.setEpc v).gpr q = s.gpr q := rfl
@[simp] theorem State.setEpc_pcPlus4 (v : Word) : (s.setEpc v).pcPlus4 = s.pcPlus4 := rfl
@[simp] theorem State.setEpc_byteAt (v : Word) (x : Word) : (s.setEpc v).byteAt x = s.byteAt x := rfl
@[simp] theorem State.setEpc_halfAt (v : Word) (x : Word) : (s.setEpc v).halfAt x = s.halfAt x := rfl
@[simp] theorem State.setEpc_wordAt (v : Word) (x : Word) : (s.setEpc v).wordAt x = s.wordAt x := rfl
@[simp] theorem State.setXcel_gpr (id : Word) (st : XcelState) (q : Reg) : (s.setXcel id st).gpr q = s.gpr q := rfl
@[simp] theorem State.setXcel_pcPlus4 (id : Word) (st : XcelState) : (s.setXcel id st).pcPlus4 = s.pcPlus4 := rfl
@[simp] theorem State.setXcel_byteAt (id : Word) (st : XcelState) (x : Word) : (s.setXcel id st).byteAt x = s.byteAt x := rfl
@[simp] theorem State.setXcel_halfAt (id : Word) (st : XcelState) (x : Word) : (s.setXcel id st).halfAt x = s.halfAt x := rfl
@[simp] theorem State.setXcel_wordAt (id : Word) (st : XcelState) (x : Word) : (s.setXcel id st).wordAt x = s.wordAt x := rfl
@[simp] theorem State.storeByte_gpr (n : Nat) (b : Byte) (q : Reg) : (s.storeByte n b).gpr q = s.gpr q := rfl
@[simp] theorem State.storeByte_pcPlus4 (n : Nat) (b : Byte) : (s.storeByte n b).pcPlus4 = s.pcPlus4 := rfl
@[simp] theorem State.storeHalf_gpr (a v : Word) (q : Reg) : (s.storeHalf a v).gpr q = s.gpr q := rfl
@[simp] theorem State.storeHalf_pcPlus4 (a v : Word) : (s.storeHalf a v).pcPlus4 = s.pcPlus4 := rfl
@[simp] theorem State.storeWord_gpr (a v : Word) (q : Reg) : (s.storeWord a v).gpr q = s.gpr q := rfl
@[simp] theorem State.storeWord_pcPlus4 (a v : Word) : (s.storeWord a v).pcPlus4 = s.pcPlus4 := rfl
@[simp] theorem State.placeByte_gpr (n : Nat) (b : Byte) (q : Reg) : (s.placeByte n b).gpr q = s.gpr q := rfl
@[simp] theorem State.placeByte_pcPlus4 (n : Nat) (b : Byte) : (s.placeByte n b).pcPlus4 = s.pcPlus4 := rfl
@[simp] theorem State.placeWord_gpr (a v : Word) (q : Reg) : (s.placeWord a v).gpr q = s.gpr q := rfl
@[simp] theorem State.placeWord_pcPlus4 (a v : Word) : (s.placeWord a v).pcPlus4 = s.pcPlus4 := rfl

@[simp] theorem State.takeTurn_gpr (q : Reg) : s.takeTurn.gpr q = s.gpr q := rfl
@[simp] theorem State.takeTurn_pcPlus4 : s.takeTurn.pcPlus4 = s.pcPlus4 := rfl
@[simp] theorem State.takeTurn_byteAt (x : Word) : s.takeTurn.byteAt x = s.byteAt x := rfl
@[simp] theorem State.takeTurn_halfAt (x : Word) : s.takeTurn.halfAt x = s.halfAt x := rfl
@[simp] theorem State.takeTurn_wordAt (x : Word) : s.takeTurn.wordAt x = s.wordAt x := rfl
@[simp] theorem State.coreNext_gpr (q : Reg) : s.coreNext.gpr q = s.gpr q := rfl
@[simp] theorem State.coreNext_pcPlus4 : s.coreNext.pcPlus4 = s.pcPlus4 := rfl
@[simp] theorem State.coreNext_byteAt (x : Word) : s.coreNext.byteAt x = s.byteAt x := rfl
@[simp] theorem State.coreNext_halfAt (x : Word) : s.coreNext.halfAt x = s.halfAt x := rfl
@[simp] theorem State.coreNext_wordAt (x : Word) : s.coreNext.wordAt x = s.wordAt x := rfl

/-! `put` is one of the three stores, so it keeps every field that they keep. -/

@[simp] theorem State.put_regs (w : Width) (a v : Word) : (s.put w a v).regs = s.regs := by cases w <;> rfl
@[simp] theorem State.put_pc (w : Width) (a v : Word) : (s.put w a v).pc = s.pc := by cases w <;> rfl
@[simp] theorem State.put_epc (w : Width) (a v : Word) : (s.put w a v).epc = s.epc := by cases w <;> rfl
@[simp] theorem State.put_statsEn (w : Width) (a v : Word) : (s.put w a v).statsEn = s.statsEn := by cases w <;> rfl
@[simp] theorem State.put_mngr2proc (w : Width) (a v : Word) : (s.put w a v).mngr2proc = s.mngr2proc := by cases w <;> rfl
@[simp] theorem State.put_proc2mngr (w : Width) (a v : Word) : (s.put w a v).proc2mngr = s.proc2mngr := by cases w <;> rfl
@[simp] theorem State.put_proc2mngrReady (w : Width) (a v : Word) : (s.put w a v).proc2mngrReady = s.proc2mngrReady := by cases w <;> rfl
@[simp] theorem State.put_received (w : Width) (a v : Word) : (s.put w a v).received = s.received := by cases w <;> rfl
@[simp] theorem State.put_xcels (w : Width) (a v : Word) : (s.put w a v).xcels = s.xcels := by cases w <;> rfl
@[simp] theorem State.put_turns (w : Width) (a v : Word) : (s.put w a v).turns = s.turns := by cases w <;> rfl
@[simp] theorem State.put_params (w : Width) (a v : Word) : (s.put w a v).params = s.params := by cases w <;> rfl
@[simp] theorem State.put_gpr (w : Width) (a v : Word) (q : Reg) : (s.put w a v).gpr q = s.gpr q := by cases w <;> rfl
@[simp] theorem State.put_pcPlus4 (w : Width) (a v : Word) : (s.put w a v).pcPlus4 = s.pcPlus4 := by cases w <;> rfl

end Sys2Proof.Machine
end

