-- ==== Sys2Proof/Laws/Registers.lean ====
section
/-! SUPPORT. What the register accessors and the word results can do: one law per operation. -/

namespace Sys2Proof.Machine

open Sys2Proof

@[simp] theorem State.gpr_zero (s : State) : s.gpr 0#5 = 0#32 := by simp [State.gpr]

/-- A register after a write: the value written, but for `r0`, which stays 0. -/
theorem State.setGpr_gpr (s : State) (r : Reg) (v : Word) (q : Reg) :
    (s.setGpr r v).gpr q = if q = 0#5 then 0#32 else if q = r then v else s.gpr q := by
  unfold State.gpr State.setGpr
  by_cases hq : q = 0#5
  · simp [hq]
  by_cases hr : r = 0#5
  · simp [hq, hr]
  simp only [hq, hr, if_false, Vector.get_eq_getElem]
  rw [Vector.getElem_set]
  simp [BitVec.toNat_inj, eq_comm]

@[simp] theorem State.setGpr_zero (s : State) (v : Word) : s.setGpr 0#5 v = s := by simp [State.setGpr]

/-- Slot 0 of the register file is reached by no write. -/
@[simp] theorem State.setGpr_slot_zero (s : State) (r : Reg) (v : Word) : (s.setGpr r v).regs[0] = s.regs[0] := by
  unfold State.setGpr
  by_cases hr : r = 0#5
  · simp [hr]
  · have h0 : r.toNat ≠ 0 := fun h => hr (BitVec.eq_of_toNat_eq h)
    rw [if_neg hr]
    exact (Vector.getElem_set (i := r.toNat) (j := 0) r.isLt (by decide)).trans (if_neg h0)

/-- `writeBack` always completes, with one register written and `pc` advanced. -/
@[simp] theorem writeBack_next (r : Reg) (v : Word) (s : State) : writeBack r v s = .next (s.setGpr r v).advance := rfl

@[simp] theorem stall_next (s : State) : stall s = .next s := rfl

/-- A jump completes exactly when its target is aligned; then only `pc` changes. -/
theorem jumpTo_next {t : Word} {s s' : State} : jumpTo t s = .next s' ↔ isAligned 4 t = true ∧ s' = s.setPc t := by
  unfold jumpTo
  split
  · simp_all only [Host.Outcome.next.injEq, true_and]; exact eq_comm
  · simp_all

/-- What a jump to a register target answers. -/
theorem jumpTo_eq (t : Word) (s : State) :
    jumpTo t s = if isAligned 4 t then .next (s.setPc t) else .fault (.misalignedTarget t) := rfl

/-- The answer of a sequence is a next state exactly when both parts complete. -/
theorem andThen_next {α β : Type} {o : Answer α} {k : α → Answer β} {b : β} :
    andThen o k = .next b ↔ ∃ a, o = .next a ∧ k a = .next b := by
  cases o <;> simp [andThen]

@[simp] theorem andThen_of_next {α β : Type} (a : α) (k : α → Answer β) : andThen (.next a) k = k a := rfl

@[simp] theorem andThen_of_fault {α β : Type} (f : Fault) (k : α → Answer β) :
    andThen (.fault f : Answer α) k = .fault f := rfl

@[simp] theorem andThen_of_refused {α β : Type} (r : Refusal) (k : α → Answer β) :
    andThen (.refused r : Answer α) k = .refused r := rfl

end Sys2Proof.Machine
end

