-- ==== Sys2Proof/Laws/Memory.lean ====
section
/-! SUPPORT. The laws of memory: read after write, the canonical form kept by every operation, the set of stored-to
addresses, and what loads, stores and fetches can do. -/

namespace Sys2Proof.Machine

open Sys2Proof

/-! ### The list of cells -/

@[simp] theorem Memory.read_nil (n : Nat) : Memory.read n [] = none := rfl

/-- A read after a write: the byte written at its address, every other address as before. -/
@[simp] theorem Memory.read_write (m : Memory) (a : Nat) (b : Byte) (n : Nat) :
    Memory.read n (Memory.write a b m) = if n = a then some b else Memory.read n m := by
  induction m with
  | nil => simp [Memory.write, Memory.read]
  | cons c rest ih =>
    obtain ⟨x, y⟩ := c
    simp only [Memory.write]
    split
    · simp [Memory.read]
    split
    · subst_vars
      simp only [Memory.read]
      split <;> rfl
    · simp only [Memory.read, ih]
      split
      · subst_vars
        split <;> simp_all
      · rfl

/-- The addresses listed after a write. -/
theorem Memory.address_write {m : Memory} {a : Nat} {b : Byte} {c : Host.Cell} (h : c ∈ Memory.write a b m) :
    c.1 = a ∨ c ∈ m := by
  induction m with
  | nil => simp_all [Memory.write]
  | cons d rest ih =>
    obtain ⟨x, y⟩ := d
    simp only [Memory.write] at h
    split at h
    · simp at h ⊢; rcases h with h | h | h <;> simp_all
    split at h
    · simp at h ⊢; rcases h with h | h <;> simp_all
    · simp at h ⊢
      rcases h with h | h
      · simp_all
      · rcases ih h with h | h <;> simp_all

/-- A write keeps the canonical form. -/
theorem Memory.wf_write {m : Memory} (h : Memory.wf m) (a : Nat) (b : Byte) : Memory.wf (Memory.write a b m) := by
  induction m with
  | nil => simp [Memory.write]
  | cons c rest ih =>
    obtain ⟨x, y⟩ := c
    have ⟨hx, hr⟩ := List.pairwise_cons.1 h
    simp only [Memory.write]
    split
    · rename_i hlt
      refine List.pairwise_cons.2 ⟨?_, h⟩
      intro d hd
      rcases List.mem_cons.1 hd with rfl | hd
      · exact hlt
      · exact lt_trans hlt (hx d hd)
    split
    · subst_vars
      exact List.pairwise_cons.2 ⟨fun d hd => hx d hd, hr⟩
    · refine List.pairwise_cons.2 ⟨?_, ih hr⟩
      intro d hd
      rcases Memory.address_write hd with hd | hd
      · simp only [hd]; omega
      · exact hx d hd

/-- Reset's memory is in canonical form. -/
theorem reset_mem_wf : Memory.wf State.reset.mem := List.Pairwise.nil

/-! ### The set of stored-to addresses -/

@[simp] theorem mem_insertAddr {l : List Nat} {a n : Nat} : n ∈ insertAddr a l ↔ n = a ∨ n ∈ l := by
  induction l with
  | nil => simp [insertAddr]
  | cons x rest ih =>
    simp only [insertAddr]
    split
    · simp
    split
    · subst_vars; simp
    · simp [ih, or_left_comm]

/-- Putting an address in keeps the list rising. -/
theorem insertAddr_rising {l : List Nat} (h : l.Pairwise (· < ·)) (a : Nat) : (insertAddr a l).Pairwise (· < ·) := by
  induction l with
  | nil => simp [insertAddr]
  | cons x rest ih =>
    have ⟨hx, hr⟩ := List.pairwise_cons.1 h
    simp only [insertAddr]
    split
    · rename_i hlt
      refine List.pairwise_cons.2 ⟨?_, h⟩
      intro d hd
      rcases List.mem_cons.1 hd with rfl | hd
      · exact hlt
      · exact lt_trans hlt (hx d hd)
    split
    · exact h
    · refine List.pairwise_cons.2 ⟨?_, ih hr⟩
      intro d hd
      rcases mem_insertAddr.1 hd with rfl | hd
      · omega
      · exact hx d hd

/-! ### Stores -/

/-- Byte `k` of what a store of width `width` and value `v` writes, and at which physical address: the pairs it writes,
in order (20_memory R47). -/
def putBytes (p : Params) (width : Width) (a v : Word) : List Host.Cell :=
  match width with
  | .byte => [(physAddr p a, byteOfWord v 0)]
  | .half => [(physAddr p a, byteOfWord v 0), (physAddr p (a + 1#32), byteOfWord v 1)]
  | .word =>
    [(physAddr p a, byteOfWord v 0), (physAddr p (a + 1#32), byteOfWord v 1), (physAddr p (a + 2#32), byteOfWord v 2),
      (physAddr p (a + 3#32), byteOfWord v 3)]

/-- A store is its byte stores, one after the other. -/
theorem State.put_eq_foldl (s : State) (width : Width) (a v : Word) :
    s.put width a v = (putBytes s.params width a v).foldl (fun t c => t.storeByte c.1 c.2) s := by
  cases width <;> rfl

/-- A byte of memory after a store: outside the stored bytes, as before. -/
theorem State.put_read_other (s : State) (width : Width) (a v : Word) {n : Nat} (h : n ∉ physBytes s.params width a) :
    Memory.read n (s.put width a v).mem = Memory.read n s.mem := by
  cases width <;> simp_all [State.put, physBytes, State.storeHalf, State.storeWord]

/-- The address of byte `k` of a store holds byte `k` of the value, if no later byte of the store has the same address. -/
theorem State.put_read_byte (s : State) (width : Width) (a v : Word) {k : Nat} (h : k < widthBytes width)
    (hl : ∀ j, k < j → j < widthBytes width →
      physAddr s.params (a + BitVec.ofNat 32 j) ≠ physAddr s.params (a + BitVec.ofNat 32 k)) :
    Memory.read (physAddr s.params (a + BitVec.ofNat 32 k)) (s.put width a v).mem = some (byteOfWord v k) := by
  cases width
  · have : k = 0 := by simp [widthBytes] at h; omega
    subst this; simp [State.put]
  · have : k = 0 ∨ k = 1 := by simp [widthBytes] at h; omega
    rcases this with rfl | rfl
    · have h1 := hl 1 (by omega) (by simp [widthBytes])
      simp_all [State.put, State.storeHalf, eq_comm]
    · simp [State.put, State.storeHalf]
  · have : k = 0 ∨ k = 1 ∨ k = 2 ∨ k = 3 := by simp [widthBytes] at h; omega
    rcases this with rfl | rfl | rfl | rfl
    · have h1 := hl 1 (by omega) (by simp [widthBytes])
      have h2 := hl 2 (by omega) (by simp [widthBytes])
      have h3 := hl 3 (by omega) (by simp [widthBytes])
      simp only [BitVec.add_zero] at h1 h2 h3 ⊢
      simp [State.put, State.storeWord, h1.symm, h2.symm, h3.symm]
    · have h2 := hl 2 (by omega) (by simp [widthBytes])
      have h3 := hl 3 (by omega) (by simp [widthBytes])
      simp [State.put, State.storeWord, h2.symm, h3.symm]
    · have h3 := hl 3 (by omega) (by simp [widthBytes])
      simp [State.put, State.storeWord, h3.symm]
    · simp [State.put, State.storeWord]

/-- The stored-to addresses after a store: those before and the stored bytes (20_memory R60). -/
@[simp] theorem State.mem_put_storedTo (s : State) (width : Width) (a v : Word) (n : Nat) :
    n ∈ (s.put width a v).storedTo ↔ n ∈ physBytes s.params width a ∨ n ∈ s.storedTo := by
  cases width <;>
    simp [State.put, physBytes, State.storeHalf, State.storeWord, or_comm, or_assoc]

/-- A store keeps the canonical form. -/
theorem State.put_mem_wf {s : State} (h : Memory.wf s.mem) (width : Width) (a v : Word) :
    Memory.wf (s.put width a v).mem := by
  cases width <;> simp only [State.put, State.storeHalf, State.storeWord, State.storeByte_mem] <;>
    repeat (first | exact h | apply Memory.wf_write)

/-- A placed word keeps the canonical form. -/
theorem State.placeWord_mem_wf {s : State} (h : Memory.wf s.mem) (a v : Word) :
    Memory.wf (s.placeWord a v).mem := by
  simp only [State.placeWord, State.placeByte_mem]
  repeat (first | exact h | apply Memory.wf_write)

/-- A store keeps the stored-to addresses rising. -/
theorem State.put_storedTo_rising {s : State} (h : s.storedTo.Pairwise (· < ·)) (width : Width) (a v : Word) :
    (s.put width a v).storedTo.Pairwise (· < ·) := by
  cases width <;> simp only [State.put, State.storeHalf, State.storeWord, State.storeByte_storedTo] <;>
    repeat (first | exact h | apply insertAddr_rising)

/-- Every address listed after a store was listed before or is a stored byte's. -/
theorem State.put_address {s : State} {width : Width} {a v : Word} {c : Host.Cell} (h : c ∈ (s.put width a v).mem) :
    c.1 ∈ physBytes s.params width a ∨ c ∈ s.mem := by
  cases width
  · simp only [State.put, State.storeByte_mem] at h
    rcases Memory.address_write h with h | h <;> simp [physBytes, h]
  · simp only [State.put, State.storeHalf, State.storeByte_mem] at h
    rcases Memory.address_write h with h | h
    · simp [physBytes, h]
    rcases Memory.address_write h with h | h <;> simp [physBytes, h]
  · simp only [State.put, State.storeWord, State.storeByte_mem] at h
    rcases Memory.address_write h with h | h
    · simp [physBytes, h]
    rcases Memory.address_write h with h | h
    · simp [physBytes, h]
    rcases Memory.address_write h with h | h
    · simp [physBytes, h]
    rcases Memory.address_write h with h | h <;> simp [physBytes, h]

/-- A byte that held a value still holds one after a store. -/
theorem State.put_holds {s : State} {width : Width} {a v : Word} {n : Nat} (h : (Memory.read n s.mem).isSome) :
    (Memory.read n (s.put width a v).mem).isSome := by
  cases width <;> simp only [State.put, State.storeHalf, State.storeWord, State.storeByte_mem, Memory.read_write] <;>
    repeat (first | exact h | split | rfl)

/-- A stored byte holds a value after the store. -/
theorem State.put_holds_stored {s : State} {width : Width} {a v : Word} {n : Nat}
    (h : n ∈ physBytes s.params width a) : (Memory.read n (s.put width a v).mem).isSome := by
  cases width <;> simp only [physBytes, List.mem_cons, List.not_mem_nil, or_false] at h <;>
    simp only [State.put, State.storeHalf, State.storeWord, State.storeByte_mem, Memory.read_write]
  · simp [h]
  · rcases h with rfl | rfl <;> simp [apply_ite Option.isSome]
  · rcases h with rfl | rfl | rfl | rfl <;> simp [apply_ite Option.isSome]

/-! ### Data accesses -/

/-- A data access completes exactly when it is aligned, has memory under it, and its body completes. -/
theorem dataAccess_next {α : Type} {width : Width} {a : Word} {s : State} {k : Answer α} {x : α} :
    dataAccess width a s k = .next x ↔
      isAligned (widthBytes width) a = true ∧ isBacked s.params width a = true ∧ k = .next x := by
  unfold dataAccess
  split
  · split <;> simp_all
  · simp_all

/-- A misaligned data access faults, whatever its body. -/
theorem dataAccess_misaligned {α : Type} {width : Width} {a : Word} (s : State) (k : Answer α)
    (h : isAligned (widthBytes width) a = false) : dataAccess width a s k = .fault (.misalignedData a) := by
  simp [dataAccess, h]

/-- An aligned data access with no memory under it is refused, whatever its body. -/
theorem dataAccess_unpopulated {α : Type} {width : Width} {a : Word} (s : State) (k : Answer α)
    (h : isAligned (widthBytes width) a = true) (hb : isBacked s.params width a = false) :
    dataAccess width a s k = .refused (.unpopulated a) := by
  simp [dataAccess, h, hb]

/-- An aligned data access with memory under it is its body. -/
theorem dataAccess_ok {α : Type} {width : Width} {a : Word} (s : State) (k : Answer α)
    (h : isAligned (widthBytes width) a = true) (hb : isBacked s.params width a = true) :
    dataAccess width a s k = k := by
  simp [dataAccess, h, hb]

theorem valueOr_next {α : Type} {a : Word} {v : Option α} {x : α} : valueOr a v = .next x ↔ v = some x := by
  cases v <;> simp [valueOr]

/-- All that a word load can complete with. -/
theorem loadWord_next {a : Word} {s : State} {w : Word} :
    loadWord a s = .next w ↔ isAligned 4 a = true ∧ isBacked s.params .word a = true ∧ s.wordAt a = some w := by
  simp [loadWord, dataAccess_next, valueOr_next, widthBytes]

/-- All that a halfword load can complete with. -/
theorem loadHalf_next {a : Word} {s : State} {h : Half} :
    loadHalf a s = .next h ↔ isAligned 2 a = true ∧ isBacked s.params .half a = true ∧ s.halfAt a = some h := by
  simp [loadHalf, dataAccess_next, valueOr_next, widthBytes]

/-- All that a byte load can complete with. -/
theorem loadByte_next {a : Word} {s : State} {b : Byte} :
    loadByte a s = .next b ↔ isBacked s.params .byte a = true ∧ s.byteAt a = some b := by
  simp [loadByte, dataAccess_next, valueOr_next, widthBytes, isAligned, Nat.mod_one]

/-- All that a store can complete with. -/
theorem store_next {width : Width} {a v : Word} {s t : State} :
    store width a v s = .next t ↔
      isAligned (widthBytes width) a = true ∧ isBacked s.params width a = true ∧ t = s.put width a v := by
  unfold store
  rw [dataAccess_next, Host.Outcome.next.injEq, eq_comm (a := s.put width a v)]

/-- A word of memory has a value exactly when its four bytes do. -/
theorem State.wordAt_some {s : State} {a w : Word} :
    s.wordAt a = some w ↔ ∃ b0 b1 b2 b3, s.byteAt a = some b0 ∧ s.byteAt (a + 1#32) = some b1 ∧
      s.byteAt (a + 2#32) = some b2 ∧ s.byteAt (a + 3#32) = some b3 ∧ w = wordOfBytes b0 b1 b2 b3 := by
  unfold State.wordAt
  split
  · rename_i h0 h1 h2 h3
    simp only [h0, h1, h2, h3, Option.some.injEq, exists_and_left, exists_eq_left']
    exact eq_comm
  · rename_i h
    constructor
    · simp
    · rintro ⟨b0, b1, b2, b3, h0, h1, h2, h3, -⟩
      exact absurd h3 (h b0 b1 b2 b3 h0 h1 h2)

/-- A halfword of memory has a value exactly when its two bytes do. -/
theorem State.halfAt_some {s : State} {a : Word} {h : Half} :
    s.halfAt a = some h ↔ ∃ b0 b1, s.byteAt a = some b0 ∧ s.byteAt (a + 1#32) = some b1 ∧ h = halfOfBytes b0 b1 := by
  unfold State.halfAt
  split
  · rename_i h0 h1
    simp only [h0, h1, Option.some.injEq, exists_and_left, exists_eq_left']
    exact eq_comm
  · rename_i hn
    constructor
    · simp
    · rintro ⟨b0, b1, h0, h1, -⟩
      exact absurd h1 (hn b0 b1 h0)

end Sys2Proof.Machine
end

