-- ==== Sys2Proof/Laws/Ops.lean ====
section
/-! SUPPORT. What each shared operation can do, said once: if it answers a next state, which one and when. -/

namespace Sys2Proof.Machine

open Sys2Proof

/-! ### Coprocessor 0 -/

/-- The registers that coprocessor 0 names: five, three of them from PARCv2 on. -/
theorem cp0Named_some {v : Version} {n : Reg} {c : Cp0} :
    cp0Named v n = some c ↔
      (n = 1#5 ∧ c = .mngr2proc) ∨ (n = 2#5 ∧ c = .proc2mngr) ∨
        (Version.le .parcV2 v = true ∧
          ((n = 16#5 ∧ c = .numcores) ∨ (n = 17#5 ∧ c = .coreid) ∨ (n = 21#5 ∧ c = .statsEn))) := by
  unfold cp0Named
  split
  case h_6 h1 h2 h16 h17 h21 =>
    constructor
    · intro h; cases h
    · rintro (⟨h, -⟩ | ⟨h, -⟩ | ⟨-, ⟨h, -⟩ | ⟨h, -⟩ | ⟨h, -⟩⟩)
      exacts [absurd h h1, absurd h h2, absurd h h16, absurd h h17, absurd h h21]
  all_goals cases Version.le .parcV2 v <;> simp [eq_comm (b := c)]

/-- All that a coprocessor-0 read can complete with. -/
theorem readCp0_next {rt n : Reg} {s t : State} :
    readCp0 rt n s = .next t ↔
      (cp0Named s.params.version n = some .mngr2proc ∧ s.mngr2proc = [] ∧ t = s) ∨
        (∃ w rest, cp0Named s.params.version n = some .mngr2proc ∧ s.mngr2proc = w :: rest ∧
          t = ((s.setMngr2proc rest).setGpr rt w).advance) ∨
        (cp0Named s.params.version n = some .numcores ∧ t = (s.setGpr rt s.params.numCores).advance) ∨
        (cp0Named s.params.version n = some .coreid ∧ t = (s.setGpr rt s.params.coreId).advance) ∨
        (cp0Named s.params.version n = some .statsEn ∧ t = (s.setGpr rt s.statsEn).advance) := by
  unfold readCp0
  split
  · split <;> simp_all [stall, eq_comm (b := t)]
  all_goals simp_all [eq_comm (b := t)]

/-- All that a coprocessor-0 write can complete with. -/
theorem writeCp0_next {rt n : Reg} {s t : State} :
    writeCp0 rt n s = .next t ↔
      (cp0Named s.params.version n = some .proc2mngr ∧ s.proc2mngrReady = true ∧
          t = (s.enqueue (s.gpr rt)).advance) ∨
        (cp0Named s.params.version n = some .proc2mngr ∧ s.proc2mngrReady = false ∧ t = s) ∨
        (cp0Named s.params.version n = some .statsEn ∧ t = (s.setStatsEn (s.gpr rt)).advance) := by
  unfold writeCp0
  split
  · split <;> simp_all [stall, eq_comm (b := t)]
  all_goals simp_all [eq_comm (b := t)]

/-! ### Jumps, branches, exceptions -/

/-- A branch always completes; only `pc` changes. -/
theorem branchIf_eq (taken : Bool) (imm : BitVec 16) (s : State) :
    branchIf taken imm s = .next (s.setPc (if taken then branchTarget imm s else s.pcPlus4)) := by
  cases taken <;> rfl

/-- The exception vector is a multiple of 4. -/
@[simp] theorem vectorAddress_aligned (v : BitVec 30) : (vectorAddress v).toNat % 4 = 0 := by
  change (v ++ 0#2 : BitVec (30 + 2)).toNat % 4 = 0
  rw [BitVec.toNat_append]
  simp [Nat.shiftLeft_eq]

/-- All that taking an exception does. -/
theorem takeException_eq (v : BitVec 30) (rule : SyscallEpc) (s : State) :
    takeException v rule s =
      { s with pc := vectorAddress v, epc := match rule with | .pc => s.pc | .pcPlus4 => s.pcPlus4 } := by
  cases rule <;> rfl

/-- All that a return from an exception can complete with. -/
theorem returnFromException_next {s t : State} :
    returnFromException s = .next t ↔ isAligned 4 s.epc = true ∧ t = s.setPc s.epc := jumpTo_next

/-- All that `syscall` can complete with. -/
theorem execSyscall_next {s t : State} :
    execSyscall s = .next t ↔
      ∃ v rule, s.params.excVector = some v ∧ s.params.syscallEpc = some rule ∧ t = takeException v rule s := by
  unfold execSyscall
  split <;> simp_all [eq_comm (b := t)]

/-! ### Atomics and compares -/

/-- All that an atomic update can complete with. -/
theorem atomicUpdate_next {f : Word → Word → Word} {rs rt rd : Reg} {s t : State} :
    atomicUpdate f rs rt rd s = .next t ↔
      ∃ old, isAligned 4 (s.gpr rs) = true ∧ isBacked s.params .word (s.gpr rs) = true ∧
        s.wordAt (s.gpr rs) = some old ∧
        t = ((s.put .word (s.gpr rs) (f old (s.gpr rt))).setGpr rd old).advance := by
  unfold atomicUpdate
  simp only [andThen_next, loadWord_next, writeBack_next, Host.Outcome.next.injEq, and_assoc, eq_comm (b := t)]

/-- The last step of a load: all that it can complete with. -/
theorem loadInto_next {α : Type} {o : Answer α} {f : α → Word} {rt : Reg} {s t : State} :
    (andThen o fun v => writeBack rt (f v) s) = .next t ↔ ∃ v, o = .next v ∧ t = (s.setGpr rt (f v)).advance := by
  simp only [andThen_next, writeBack_next, Host.Outcome.next.injEq, eq_comm (b := t)]

/-- All that a store instruction can complete with. -/
theorem storeThen_next {width : Width} {a v : Word} {s t : State} :
    (andThen (store width a v s) fun u => .next u.advance) = .next t ↔
      isAligned (widthBytes width) a = true ∧ isBacked s.params width a = true ∧ t = (s.put width a v).advance := by
  simp only [andThen_next, store_next, Host.Outcome.next.injEq]
  constructor
  · rintro ⟨u, ⟨ha, hb, rfl⟩, h⟩; exact ⟨ha, hb, h.symm⟩
  · rintro ⟨ha, hb, rfl⟩; exact ⟨_, ⟨ha, hb, rfl⟩, rfl⟩

/-- A floating-point compare always completes, with one register written. -/
theorem compareFloat_eq (holds : Relation → Bool) (ft fs fd : Reg) (s : State) :
    compareFloat holds ft fs fd s = .next (s.setGpr fd (boolWord (holds (floatRelation s ft fs)))).advance := rfl

/-- All that a conversion to an integer can complete with. -/
theorem floatToInt_next {mode : Rounding} {flush : Bool} {w v : Word} :
    floatToInt mode flush w = .next v ↔
      ∃ neg units, fval flush w = .finite neg units ∧ outOfIntRange neg units = false ∧
        v = BitVec.ofInt 32 (signedInt neg (roundQuotient mode neg units unitsPerOne)) := by
  unfold floatToInt
  split
  · simp_all
  · simp_all
  · rename_i neg units h
    split
    · simp_all
    · rename_i hr
      simp only [Bool.not_eq_true] at hr
      simp only [Host.Outcome.next.injEq]
      constructor
      · rintro rfl; exact ⟨neg, units, h, hr, rfl⟩
      · rintro ⟨_, _, h', -, rfl⟩
        rw [h, FVal.finite.injEq] at h'
        rw [h'.1, h'.2]

/-! ### Accelerators -/

/-- Replacing the state of one accelerator keeps the ids. -/
@[simp] theorem xcelPut_ids (id : Word) (st : XcelState) (l : List Xcel) :
    (xcelPut id st l).map (·.id) = l.map (·.id) := by
  induction l with
  | nil => rfl
  | cons x rest ih =>
    simp only [xcelPut]
    split
    · simp_all
    · simp [ih]

/-- An accelerator's state after one of them was replaced. -/
theorem xcelFind_xcelPut (id : Word) (st : XcelState) (l : List Xcel) (q : Word) :
    xcelFind q (xcelPut id st l) = if q = id then (xcelFind id l).map (fun _ => st) else xcelFind q l := by
  induction l with
  | nil => simp [xcelPut, xcelFind]
  | cons x rest ih =>
    simp only [xcelPut]
    split
    · rename_i h
      subst h
      simp only [xcelFind]
      split <;> simp_all
    · rename_i h
      simp only [xcelFind, ih]
      split
      · rename_i hq
        subst hq
        simp_all [eq_comm]
      · simp

/-- All that a move to an accelerator can complete with. -/
theorem writeXcel_next {id : Word} {i : Reg} {v : Word} {s t : State} :
    writeXcel id i v s = .next t ↔
      ∃ st, xcelFind id s.xcels = some st ∧
        ((st.writeWaits.getLsbD i.toNat = true ∧ t = s) ∨
          (st.writeWaits.getLsbD i.toNat = false ∧ t = (s.setXcel id (Config.xcelWrite id st i v)).advance)) := by
  unfold writeXcel
  split
  · simp_all
  · split <;> simp_all [stall, eq_comm (b := t)]

/-- All that a move from an accelerator can complete with. -/
theorem readXcel_next {id : Word} {i rt : Reg} {s t : State} :
    readXcel id i rt s = .next t ↔
      ∃ st, xcelFind id s.xcels = some st ∧
        ((st.readWaits.getLsbD i.toNat = true ∧ t = s) ∨
          (st.readWaits.getLsbD i.toNat = false ∧
            t = ((s.setXcel id (Config.xcelReadEffect id st i)).setGpr rt (Config.xcelReadValue id st i)).advance)) := by
  unfold readXcel
  split
  · simp_all
  · split <;> simp_all [stall, eq_comm (b := t)]

/-! ### Outside agents -/

/-- No outside act touches the core: its registers, `pc`, `epc`, cpr21, or the parameters. -/
theorem applyInput_core (s : State) (x : Input) :
    (applyInput s x).regs = s.regs ∧ (applyInput s x).pc = s.pc ∧ (applyInput s x).epc = s.epc ∧
      (applyInput s x).statsEn = s.statsEn ∧ (applyInput s x).params = s.params ∧
      (applyInput s x).turns = s.turns := by
  cases x with
  | offer w => exact ⟨rfl, rfl, rfl, rfl, rfl, rfl⟩
  | take => simp only [applyInput]; split <;> simp
  | setReady r => exact ⟨rfl, rfl, rfl, rfl, rfl, rfl⟩
  | otherStore width a v => simp only [applyInput]; split <;> simp
  | xcelActs id st => exact ⟨rfl, rfl, rfl, rfl, rfl, rfl⟩

@[simp] theorem applyInput_regs (s : State) (x : Input) : (applyInput s x).regs = s.regs := (applyInput_core s x).1
@[simp] theorem applyInput_pc (s : State) (x : Input) : (applyInput s x).pc = s.pc := (applyInput_core s x).2.1
@[simp] theorem applyInput_epc (s : State) (x : Input) : (applyInput s x).epc = s.epc := (applyInput_core s x).2.2.1
@[simp] theorem applyInput_statsEn (s : State) (x : Input) : (applyInput s x).statsEn = s.statsEn :=
  (applyInput_core s x).2.2.2.1
@[simp] theorem applyInput_params (s : State) (x : Input) : (applyInput s x).params = s.params :=
  (applyInput_core s x).2.2.2.2.1
@[simp] theorem applyInput_turns (s : State) (x : Input) : (applyInput s x).turns = s.turns :=
  (applyInput_core s x).2.2.2.2.2
@[simp] theorem applyInput_gpr (s : State) (x : Input) (r : Reg) : (applyInput s x).gpr r = s.gpr r := by
  simp [State.gpr]

/-- A turn taken where none is listed changes nothing. -/
theorem takeTurn_of_no_turns {s : State} (h : s.turns = []) : s.takeTurn = s := by
  cases s; simp_all [State.takeTurn]

@[simp] theorem nextAct_of_no_turns {s : State} (h : s.turns = []) : nextAct s = none := by simp [nextAct, h]

/-- After `coreNext` the core's turn is next. -/
@[simp] theorem nextAct_coreNext (s : State) : nextAct s.coreNext = none := by
  obtain ⟨_, _, _, _, _, _, _, _, _, _, _, ts, _⟩ := s
  rcases ts with _ | ⟨_ | x, rest⟩ <;> rfl

/-- Where the core's turn is next, `coreNext` changes nothing. -/
theorem coreNext_of_core {s : State} (h : nextAct s = none) : s.coreNext = s := by
  simp [State.coreNext, h]

/-! ### Fetch and step -/

/-- A fetch completes exactly at an aligned `pc` over memory that was not stored to and holds a word. -/
theorem fetchWord_next {s : State} {w : Word} :
    fetchWord s = .next w ↔
      isAligned 4 s.pc = true ∧ (∀ n ∈ physBytes s.params .word s.pc, n ∉ s.storedTo) ∧
        isBacked s.params .word s.pc = true ∧ s.wordAt s.pc = some w := by
  unfold fetchWord
  split
  · simp_all
  split
  · simp_all
  split
  · simp_all
  · simp_all [valueOr_next]

/-- The instruction at `pc` is the decoded word at `pc`. -/
theorem fetchInstr_next {s : State} {i : Instr} :
    fetchInstr s = .next i ↔ ∃ w, fetchWord s = .next w ∧ decodeFor s.params w = .ok i := by
  unfold fetchInstr
  rw [andThen_next]
  refine exists_congr fun w => and_congr_right fun _ => ?_
  cases decodeFor s.params w <;> simp

/-- A fetch does not look at whose turn it is. -/
@[simp] theorem fetchInstr_takeTurn (s : State) : fetchInstr s.takeTurn = fetchInstr s := rfl

/-- All that the core's step can complete with: what the fetched instruction completes with. -/
theorem coreStep_next {s t : State} :
    coreStep s = .next t ↔ ∃ i, fetchInstr s = .next i ∧ exec i s = .next t := by
  unfold coreStep
  rw [andThen_next]

/-- All that a step can complete with: one outside act, or the core's step. -/
theorem step_next {s t : State} :
    step s = .next t ↔
      (∃ x, nextAct s = some x ∧ t = applyInput s.takeTurn x) ∨
        (nextAct s = none ∧ ∃ i, fetchInstr s = .next i ∧ exec i s.takeTurn = .next t) := by
  unfold step
  split
  · rename_i h; simp [h, eq_comm (b := t)]
  · rename_i h; simp [h, coreStep_next]

/-- A byte of memory after a word was placed. -/
theorem placeWord_read (s : State) (a v : Word) (n : Nat) :
    Memory.read n (s.placeWord a v).mem =
      if n = physAddr s.params (a + 3#32) then some (byteOfWord v 3)
      else if n = physAddr s.params (a + 2#32) then some (byteOfWord v 2)
      else if n = physAddr s.params (a + 1#32) then some (byteOfWord v 1)
      else if n = physAddr s.params a then some (byteOfWord v 0) else Memory.read n s.mem := by
  simp [State.placeWord]

/-- The bytes of a word make the word. -/
@[simp] theorem wordOfBytes_byteOfWord (w : Word) :
    wordOfBytes (byteOfWord w 0) (byteOfWord w 1) (byteOfWord w 2) (byteOfWord w 3) = w := by
  ext i; simp [wordOfBytes, byteOfWord]; grind

@[simp] theorem byteOfWord_wordOfBytes_zero (b0 b1 b2 b3 : Byte) : byteOfWord (wordOfBytes b0 b1 b2 b3) 0 = b0 := by
  ext i; simp [wordOfBytes, byteOfWord]; grind
@[simp] theorem byteOfWord_wordOfBytes_one (b0 b1 b2 b3 : Byte) : byteOfWord (wordOfBytes b0 b1 b2 b3) 1 = b1 := by
  ext i; simp [wordOfBytes, byteOfWord]; grind
@[simp] theorem byteOfWord_wordOfBytes_two (b0 b1 b2 b3 : Byte) : byteOfWord (wordOfBytes b0 b1 b2 b3) 2 = b2 := by
  ext i; simp [wordOfBytes, byteOfWord]; grind
@[simp] theorem byteOfWord_wordOfBytes_three (b0 b1 b2 b3 : Byte) : byteOfWord (wordOfBytes b0 b1 b2 b3) 3 = b3 := by
  ext i; simp [wordOfBytes, byteOfWord]; grind

end Sys2Proof.Machine
end

