-- ==== Sys2Proof/Laws/Frames.lean ====
section
/-! SUPPORT. What each kind of next state satisfies: the frames of Safety.lean from the state updates of Ops.lean. -/

namespace Sys2Proof.Machine

open Sys2Proof

/-! ### Parts of a frame -/

@[simp] theorem SameGprs.of_regs {s t : State} (h : t.regs = s.regs) : SameGprs s t := fun q => by
  simp [State.gpr, h]

theorem SameCp0.refl (s : State) : SameCp0 s s := ⟨rfl, rfl, rfl, rfl, rfl⟩

theorem SameSpecial.refl (s : State) : SameSpecial s s := ⟨rfl, SameCp0.refl s⟩

theorem SameMemory.refl (s : State) : SameMemory s s := ⟨fun _ => rfl, rfl⟩

theorem SameOutside.refl (s : State) : SameOutside s s := ⟨rfl, rfl, rfl⟩

/-- The address after `pc`, as a number. -/
theorem pcPlus4_toNat (s : State) : s.pcPlus4.toNat = (s.pc.toNat + 4) % 2 ^ 32 := by
  simp [State.pcPlus4, BitVec.toNat_add]

theorem pcPlus4_eq (s : State) : s.pcPlus4 = BitVec.ofNat 32 (s.pc.toNat + 4) := by
  apply BitVec.eq_of_toNat_eq
  simp [pcPlus4_toNat]

/-- A written register. -/
theorem GprBecomes.setGpr (s : State) (d : Reg) (v : Word) : GprBecomes s (s.setGpr d v) d v :=
  fun q => State.setGpr_gpr s d v q

/-- The end of every instruction that writes one register. -/
theorem Writes.writeBack (s : State) (d : Reg) (v : Word) : Writes s (s.setGpr d v).advance d v where
  gprs := fun q => State.setGpr_gpr s d v q
  pc := pcPlus4_toNat s
  special := ⟨rfl, rfl, rfl, rfl, rfl, rfl⟩
  memory := ⟨fun _ => rfl, rfl⟩
  outside := ⟨rfl, rfl, rfl⟩

/-- A jump. -/
theorem OnlyPc.setPc (s : State) (target : Word) : OnlyPc s (s.setPc target) target where
  pc := rfl
  gprs := fun _ => rfl
  special := ⟨rfl, rfl, rfl, rfl, rfl, rfl⟩
  memory := ⟨fun _ => rfl, rfl⟩
  outside := ⟨rfl, rfl, rfl⟩

/-! ### Memory that is there -/

/-- The physical address of a sum of an address and a number, as a number. -/
theorem physAddr_add (p : Params) (a : Word) (k : Nat) : physAddr p (a + BitVec.ofNat 32 k) = byteOf p a k := by
  have hd : 2 ^ paBits p ∣ 2 ^ 32 := Nat.pow_dvd_pow 2 (by have := p.paBitsPred.isLt; unfold paBits; omega)
  simp only [physAddr, byteOf, BitVec.toNat_add, BitVec.toNat_ofNat]
  rw [Nat.mod_mod_of_dvd _ hd, Nat.add_mod, Nat.mod_mod_of_dvd _ hd, ← Nat.add_mod]

theorem physAddr_eq (p : Params) (a : Word) : physAddr p a = byteOf p a 0 := rfl

theorem byteOf_lt (p : Params) (a : Word) (k : Nat) : byteOf p a k < 2 ^ paBits p := Nat.mod_lt _ (Nat.two_pow_pos _)

/-- The physical addresses of an access are those of its bytes. -/
theorem mem_physBytes {p : Params} {width : Width} {a : Word} {n : Nat} :
    n ∈ physBytes p width a ↔ ∃ k < widthBytes width, byteOf p a k = n := by
  have h1 := physAddr_add p a 1
  have h2 := physAddr_add p a 2
  have h3 := physAddr_add p a 3
  cases width <;> simp only [physBytes, widthBytes, List.mem_cons, List.not_mem_nil, or_false, h1, h2, h3, physAddr_eq] <;>
    constructor
  · rintro rfl; exact ⟨0, by omega, rfl⟩
  · rintro ⟨k, hk, rfl⟩; rw [show k = 0 by omega]
  · rintro (rfl | rfl)
    exacts [⟨0, by omega, rfl⟩, ⟨1, by omega, rfl⟩]
  · rintro ⟨k, hk, rfl⟩
    rcases (by omega : k = 0 ∨ k = 1) with rfl | rfl <;> simp
  · rintro (rfl | rfl | rfl | rfl)
    exacts [⟨0, by omega, rfl⟩, ⟨1, by omega, rfl⟩, ⟨2, by omega, rfl⟩, ⟨3, by omega, rfl⟩]
  · rintro ⟨k, hk, rfl⟩
    rcases (by omega : k = 0 ∨ k = 1 ∨ k = 2 ∨ k = 3) with rfl | rfl | rfl | rfl <;> simp

/-- The bytes of an aligned access that physical memory can hold at once are consecutive. -/
theorem byteOf_aligned {p : Params} {a : Word} {n k : Nat} (hd : n ∣ 2 ^ paBits p) (ha : a.toNat % n = 0) (hk : k < n) :
    byteOf p a k = a.toNat % 2 ^ paBits p + k := by
  obtain ⟨c, hc⟩ := hd
  have hn : 0 < n := by omega
  have hm : a.toNat % 2 ^ paBits p % n = 0 := by rw [hc, Nat.mod_mul_right_mod, ha]
  have hlt : a.toNat % 2 ^ paBits p < 2 ^ paBits p := Nat.mod_lt _ (Nat.two_pow_pos _)
  obtain ⟨m, hm⟩ := Nat.dvd_of_mod_eq_zero hm
  have : m < c := by
    by_contra h
    have := Nat.mul_le_mul_left n (Nat.le_of_not_lt h)
    omega
  have h4 : n * (m + 1) ≤ n * c := Nat.mul_le_mul_left n this
  unfold byteOf
  rw [Nat.add_mod, Nat.mod_eq_of_lt (a := k) (by rw [hc]; nlinarith), Nat.mod_eq_of_lt]
  rw [hm, hc]; rw [Nat.mul_add] at h4; omega

/-- `PA_BITS` is 1, or physical memory has room for a word. -/
theorem paBits_cases (p : Params) : paBits p = 1 ∨ 2 ≤ paBits p := by unfold paBits; omega

/-- With `PA_BITS` = 1 the bytes of a word are the bytes 0, 1, 0, 1 of memory. -/
theorem byteOf_one_bit {p : Params} (h : paBits p = 1) {a : Word} (ha : a.toNat % 4 = 0) (k : Nat) :
    byteOf p a k = k % 2 := by
  unfold byteOf
  rw [h]
  omega

/-- Else the four bytes of a word are different bytes of memory. -/
theorem byteOf_injective {p : Params} (h : 2 ≤ paBits p) {a : Word} (ha : a.toNat % 4 = 0) {j k : Nat} (hj : j < 4)
    (hk : k < 4) (he : byteOf p a j = byteOf p a k) : j = k := by
  have hd : 4 ∣ 2 ^ paBits p := Nat.pow_dvd_pow 2 h
  rw [byteOf_aligned hd ha hj, byteOf_aligned hd ha hk] at he
  omega

/-- What a word put into memory, byte by byte in rising order, reads back as. -/
theorem holdsWord_of_reads {m : Memory} {s : State} {a v : Word} (ha : a.toNat % 4 = 0)
    (hm : ∀ n, Memory.read n s.mem =
      if n = byteOf s.params a 3 then some (byteOfWord v 3) else if n = byteOf s.params a 2 then some (byteOfWord v 2)
      else if n = byteOf s.params a 1 then some (byteOfWord v 1)
      else if n = byteOf s.params a 0 then some (byteOfWord v 0) else Memory.read n m) :
    HoldsWord s a (byteOfWord (wordThroughMemory s.params v) 0) (byteOfWord (wordThroughMemory s.params v) 1)
      (byteOfWord (wordThroughMemory s.params v) 2) (byteOfWord (wordThroughMemory s.params v) 3) := by
  unfold HoldsWord HoldsByte
  rcases paBits_cases s.params with h | h
  · simp only [hm, byteOf_one_bit h ha, wordThroughMemory, h, if_true]
    refine ⟨?_, ?_, ?_, ?_⟩ <;> simp <;> (ext i; simp [byteOfWord]; grind)
  · have b : ∀ j k, j < 4 → k < 4 → j ≠ k → byteOf s.params a j ≠ byteOf s.params a k :=
      fun j k hj hk hne he => hne (byteOf_injective h ha hj hk he)
    have h1 : ¬paBits s.params = 1 := by omega
    have h01 := b 0 1 (by omega) (by omega) (by omega)
    have h02 := b 0 2 (by omega) (by omega) (by omega)
    have h03 := b 0 3 (by omega) (by omega) (by omega)
    have h12 := b 1 2 (by omega) (by omega) (by omega)
    have h13 := b 1 3 (by omega) (by omega) (by omega)
    have h23 := b 2 3 (by omega) (by omega) (by omega)
    simp only [hm, wordThroughMemory, if_neg h1, h01, h02, h03, h12, h13, h23, if_true, if_false, and_self]

/-- Memory is placed under an access exactly when it is at each of its bytes. -/
theorem isBacked_iff {p : Params} {width : Width} {a : Word} :
    isBacked p width a = true ↔ Placed p a (widthBytes width) := by
  simp only [isBacked, List.all_eq_true, Placed]
  exact ⟨fun h k hk => h _ (mem_physBytes.2 ⟨k, hk, rfl⟩), fun h n hn => by
    obtain ⟨k, hk, rfl⟩ := mem_physBytes.1 hn
    exact h k hk⟩

theorem isAligned_iff {n : Nat} {a : Word} : isAligned n a = true ↔ a.toNat % n = 0 := by
  simp [isAligned]

theorem isAligned_false_iff {n : Nat} {a : Word} : isAligned n a = false ↔ a.toNat % n ≠ 0 := by
  simp [isAligned]

/-- A word as the number its bytes make. -/
theorem wordOfBytes_eq (b0 b1 b2 b3 : Byte) :
    wordOfBytes b0 b1 b2 b3 = BitVec.ofNat 32 (littleEndian [b0, b1, b2, b3]) := by
  apply BitVec.eq_of_toNat_eq
  change (b3 ++ b2 ++ b1 ++ b0 : BitVec (8 + 8 + 8 + 8)).toNat = _
  have h0 := b0.isLt
  have h1 := b1.isLt
  have h2 := b2.isLt
  have h3 := b3.isLt
  simp only [BitVec.toNat_append, littleEndian, BitVec.toNat_ofNat]
  rw [← Nat.shiftLeft_add_eq_or_of_lt h0, ← Nat.shiftLeft_add_eq_or_of_lt h1, ← Nat.shiftLeft_add_eq_or_of_lt h2]
  simp only [Nat.shiftLeft_eq]
  omega

/-- A halfword as the number its bytes make. -/
theorem halfOfBytes_eq (b0 b1 : Byte) : halfOfBytes b0 b1 = BitVec.ofNat 16 (littleEndian [b0, b1]) := by
  apply BitVec.eq_of_toNat_eq
  change (b1 ++ b0 : BitVec (8 + 8)).toNat = _
  have h0 := b0.isLt
  have h1 := b1.isLt
  simp only [BitVec.toNat_append, littleEndian, BitVec.toNat_ofNat]
  rw [← Nat.shiftLeft_add_eq_or_of_lt h0]
  simp only [Nat.shiftLeft_eq]
  omega

/-- A byte of a word as a number. -/
theorem byteOfWord_eq (w : Word) (k : Nat) : byteOfWord w k = BitVec.ofNat 8 (w.toNat / 2 ^ (8 * k)) := by
  apply BitVec.eq_of_toNat_eq
  simp [byteOfWord, BitVec.extractLsb'_toNat, Nat.shiftRight_eq_div_pow]

/-- The byte that `a + k` reaches, as an access at that address reads it. -/
theorem byteAt_add (s : State) (a : Word) (k : Nat) :
    s.byteAt (a + BitVec.ofNat 32 k) = Memory.read (byteOf s.params a k) s.mem := by
  rw [State.byteAt, physAddr_add]

/-- The word at an address whose four bytes hold values. -/
theorem HoldsWord.wordAt {s : State} {a : Word} {b0 b1 b2 b3 : Byte} (h : HoldsWord s a b0 b1 b2 b3) :
    s.wordAt a = some (BitVec.ofNat 32 (littleEndian [b0, b1, b2, b3])) := by
  obtain ⟨h0, h1, h2, h3⟩ := h
  rw [← wordOfBytes_eq]
  exact State.wordAt_some.2 ⟨b0, b1, b2, b3, h0, (byteAt_add s a 1).trans h1, (byteAt_add s a 2).trans h2,
    (byteAt_add s a 3).trans h3, rfl⟩

/-- A word holds a value exactly when its four bytes do. -/
theorem wordAt_some_iff {s : State} {a w : Word} :
    s.wordAt a = some w ↔ ∃ b0 b1 b2 b3, HoldsWord s a b0 b1 b2 b3 ∧ w = BitVec.ofNat 32 (littleEndian [b0, b1, b2, b3]) := by
  constructor
  · intro h
    obtain ⟨b0, b1, b2, b3, h0, h1, h2, h3, rfl⟩ := State.wordAt_some.1 h
    exact ⟨b0, b1, b2, b3, ⟨h0, (byteAt_add s a 1).symm.trans h1, (byteAt_add s a 2).symm.trans h2,
      (byteAt_add s a 3).symm.trans h3⟩, wordOfBytes_eq _ _ _ _⟩
  · rintro ⟨b0, b1, b2, b3, h, rfl⟩
    exact h.wordAt

/-- The halfword at an address whose two bytes hold values. -/
theorem halfAt_of_holds {s : State} {a : Word} {b0 b1 : Byte} (h0 : HoldsByte s a 0 b0) (h1 : HoldsByte s a 1 b1) :
    s.halfAt a = some (BitVec.ofNat 16 (littleEndian [b0, b1])) := by
  rw [← halfOfBytes_eq]
  exact State.halfAt_some.2 ⟨b0, b1, h0, (byteAt_add s a 1).trans h1, rfl⟩

/-! ### Stores -/

/-- The bytes that a store of this width takes from a register. -/
def storedBytes (width : Width) (v : Word) : List Byte :=
  (List.range (widthBytes width)).map fun k => BitVec.ofNat 8 (v.toNat / 2 ^ (8 * k))

@[simp] theorem storedBytes_length (width : Width) (v : Word) : (storedBytes width v).length = widthBytes width := by
  simp [storedBytes]

/-- What a store does to memory. -/
theorem MemoryGets.put (s : State) (width : Width) (a v : Word) :
    MemoryGets s (s.put width a v) a (storedBytes width v) where
  stored k h hl := by
    rw [storedBytes_length] at h
    rw [← physAddr_add, State.put_read_byte s width a v h, byteOfWord_eq]
    · simp [storedBytes]
    · intro j hj hw
      rw [physAddr_add, physAddr_add]
      exact hl j hj (by rwa [storedBytes_length])
  others n h := by
    rw [storedBytes_length] at h
    refine State.put_read_other s width a v fun hn => ?_
    obtain ⟨k, hk, e⟩ := mem_physBytes.1 hn
    exact h k hk e
  storedTo n := by
    rw [storedBytes_length, State.mem_put_storedTo, mem_physBytes]

/-- All that a store changes. -/
theorem put_frame (s : State) (width : Width) (a v : Word) :
    SameGprs s (s.put width a v) ∧ (s.put width a v).pc = s.pc ∧ SameSpecial s (s.put width a v) ∧
      SameOutside s (s.put width a v) := by
  cases width <;>
    exact ⟨fun _ => rfl, rfl, ⟨rfl, rfl, rfl, rfl, rfl, rfl⟩, ⟨rfl, rfl, rfl⟩⟩

/-- The end of every store instruction. -/
theorem Stores.put (s : State) (width : Width) (a v : Word) :
    Stores s (s.put width a v).advance a (storedBytes width v) where
  memory := by
    have h := MemoryGets.put s width a v
    exact ⟨h.stored, h.others, h.storedTo⟩
  gprs := (put_frame s width a v).1
  pc := by
    rw [GoesOn, State.advance_pc, pcPlus4_toNat, (put_frame s width a v).2.1]
  special := by
    have h := (put_frame s width a v).2.2.1
    exact ⟨h.epc, h.cp0.statsEn, h.cp0.mngr2proc, h.cp0.proc2mngr, h.cp0.proc2mngrReady, h.cp0.received⟩
  outside := by
    have h := (put_frame s width a v).2.2.2
    exact ⟨h.xcels, h.turns, h.params⟩

end Sys2Proof.Machine
end

