-- ==== Sys2Proof/Laws/PerInstr.lean ====
section
/-! SUPPORT. The family `EncodingPattern`: the word of every instruction has the fixed bits of its row of
spec/opcode_table.json (30_encoding R83, R84). -/

namespace Sys2Proof.Laws

open Sys2Proof

/-- `mask` and `match` of an instruction's row (30_encoding R84). -/
def rowOf : Instr → Word × Word
  | .mfc0 _ _ => (0xFFE007FF#32, 0x40000000#32)
  | .mtc0 _ _ => (0xFFE007FF#32, 0x40800000#32)
  | .addu _ _ _ => (0xFC0007FF#32, 0x00000021#32)
  | .subu _ _ _ => (0xFC0007FF#32, 0x00000023#32)
  | .and _ _ _ => (0xFC0007FF#32, 0x00000024#32)
  | .or _ _ _ => (0xFC0007FF#32, 0x00000025#32)
  | .xor _ _ _ => (0xFC0007FF#32, 0x00000026#32)
  | .nor _ _ _ => (0xFC0007FF#32, 0x00000027#32)
  | .slt _ _ _ => (0xFC0007FF#32, 0x0000002A#32)
  | .sltu _ _ _ => (0xFC0007FF#32, 0x0000002B#32)
  | .srav _ _ _ => (0xFC0007FF#32, 0x00000007#32)
  | .srlv _ _ _ => (0xFC0007FF#32, 0x00000006#32)
  | .sllv _ _ _ => (0xFC0007FF#32, 0x00000004#32)
  | .mul _ _ _ => (0xFC0007FF#32, 0x70000002#32)
  | .div _ _ _ => (0xFC0007FF#32, 0x9C000005#32)
  | .divu _ _ _ => (0xFC0007FF#32, 0x9C000007#32)
  | .rem _ _ _ => (0xFC0007FF#32, 0x9C000006#32)
  | .remu _ _ _ => (0xFC0007FF#32, 0x9C000008#32)
  | .addiu _ _ _ => (0xFC000000#32, 0x24000000#32)
  | .lui _ _ => (0xFFE00000#32, 0x3C000000#32)
  | .ori _ _ _ => (0xFC000000#32, 0x34000000#32)
  | .andi _ _ _ => (0xFC000000#32, 0x30000000#32)
  | .xori _ _ _ => (0xFC000000#32, 0x38000000#32)
  | .slti _ _ _ => (0xFC000000#32, 0x28000000#32)
  | .sltiu _ _ _ => (0xFC000000#32, 0x2C000000#32)
  | .sra _ _ _ => (0xFFE0003F#32, 0x00000003#32)
  | .srl _ _ _ => (0xFFE0003F#32, 0x00000002#32)
  | .sll _ _ _ => (0xFFE0003F#32, 0x00000000#32)
  | .lw _ _ _ => (0xFC000000#32, 0x8C000000#32)
  | .lh _ _ _ => (0xFC000000#32, 0x84000000#32)
  | .lhu _ _ _ => (0xFC000000#32, 0x94000000#32)
  | .lb _ _ _ => (0xFC000000#32, 0x80000000#32)
  | .lbu _ _ _ => (0xFC000000#32, 0x90000000#32)
  | .sw _ _ _ => (0xFC000000#32, 0xAC000000#32)
  | .sh _ _ _ => (0xFC000000#32, 0xA4000000#32)
  | .sb _ _ _ => (0xFC000000#32, 0xA0000000#32)
  | .j _ => (0xFC000000#32, 0x08000000#32)
  | .jr _ => (0xFC1FFFFF#32, 0x00000008#32)
  | .jalr _ _ => (0xFC1F07FF#32, 0x00000009#32)
  | .jal _ => (0xFC000000#32, 0x0C000000#32)
  | .beq _ _ _ => (0xFC000000#32, 0x10000000#32)
  | .bne _ _ _ => (0xFC000000#32, 0x14000000#32)
  | .bgtz _ _ => (0xFC1F0000#32, 0x1C000000#32)
  | .bltz _ _ => (0xFC1F0000#32, 0x04000000#32)
  | .bgez _ _ => (0xFC1F0000#32, 0x04010000#32)
  | .blez _ _ => (0xFC1F0000#32, 0x18000000#32)
  | .movn _ _ _ => (0xFC0007FF#32, 0x0000000B#32)
  | .movz _ _ _ => (0xFC0007FF#32, 0x0000000A#32)
  | .amoAdd _ _ _ => (0xFC0007FF#32, 0x9C000002#32)
  | .amoAnd _ _ _ => (0xFC0007FF#32, 0x9C000003#32)
  | .amoOr _ _ _ => (0xFC0007FF#32, 0x9C000004#32)
  | .sync => (0xFFFFFFFF#32, 0x0000000F#32)
  | .syscall => (0xFFFFFFFF#32, 0x0000000C#32)
  | .eret => (0xFFFFFFFF#32, 0x42000018#32)
  | .cFS _ _ _ => (0xFFE0003F#32, 0x46000030#32)
  | .cUnS _ _ _ => (0xFFE0003F#32, 0x46000031#32)
  | .cEqS _ _ _ => (0xFFE0003F#32, 0x46000032#32)
  | .cNglS _ _ _ => (0xFFE0003F#32, 0x4600003B#32)
  | .cLtS _ _ _ => (0xFFE0003F#32, 0x4600003C#32)
  | .cNgeS _ _ _ => (0xFFE0003F#32, 0x4600003D#32)
  | .cLeS _ _ _ => (0xFFE0003F#32, 0x4600003E#32)
  | .cNgtS _ _ _ => (0xFFE0003F#32, 0x4600003F#32)
  | .cvtWS _ _ => (0xFFFF003F#32, 0x44000024#32)
  | .cvtSW _ _ => (0xFFFF003F#32, 0x44000020#32)
  | .truncWS _ _ => (0xFFFF003F#32, 0x4400000D#32)
  | .mtx _ _ _ => (0xFC00F800#32, 0x48000000#32)
  | .mfx _ _ _ => (0xFC00F800#32, 0x48000800#32)
  | .mtxr _ _ _ => (0xFC00F83F#32, 0x48001000#32)
  | .mfxr _ _ _ => (0xFC00F83F#32, 0x48001800#32)
  | .nop => (0xFFFFFFFF#32, 0x00000000#32)

/-- The word of the instruction has the fixed bits of its row. -/
def EncodingPattern.Statement (i : Instr) : Prop := encode i &&& (rowOf i).1 = (rowOf i).2

theorem EncodingPattern.mfc0 (rt rd : Reg) : EncodingPattern.Statement (.mfc0 rt rd) := by
  have h : (rowOf (.mfc0 rt rd)).1 = encodeR 0x3f#6 0x1f#5 0x0#5 0x0#5 0x1f#5 0x3f#6 := rfl
  rw [EncodingPattern.Statement, h, encode, encodeR_and]
  simp [rowOf]
  rfl

theorem EncodingPattern.mtc0 (rt rd : Reg) : EncodingPattern.Statement (.mtc0 rt rd) := by
  have h : (rowOf (.mtc0 rt rd)).1 = encodeR 0x3f#6 0x1f#5 0x0#5 0x0#5 0x1f#5 0x3f#6 := rfl
  rw [EncodingPattern.Statement, h, encode, encodeR_and]
  simp [rowOf]
  rfl

theorem EncodingPattern.addu (rs rt rd : Reg) : EncodingPattern.Statement (.addu rs rt rd) := by
  have h : (rowOf (.addu rs rt rd)).1 = encodeR 0x3f#6 0x0#5 0x0#5 0x0#5 0x1f#5 0x3f#6 := rfl
  rw [EncodingPattern.Statement, h, encode, encodeR_and]
  simp [rowOf]
  rfl

theorem EncodingPattern.subu (rs rt rd : Reg) : EncodingPattern.Statement (.subu rs rt rd) := by
  have h : (rowOf (.subu rs rt rd)).1 = encodeR 0x3f#6 0x0#5 0x0#5 0x0#5 0x1f#5 0x3f#6 := rfl
  rw [EncodingPattern.Statement, h, encode, encodeR_and]
  simp [rowOf]
  rfl

theorem EncodingPattern.and (rs rt rd : Reg) : EncodingPattern.Statement (.and rs rt rd) := by
  have h : (rowOf (.and rs rt rd)).1 = encodeR 0x3f#6 0x0#5 0x0#5 0x0#5 0x1f#5 0x3f#6 := rfl
  rw [EncodingPattern.Statement, h, encode, encodeR_and]
  simp [rowOf]
  rfl

theorem EncodingPattern.or (rs rt rd : Reg) : EncodingPattern.Statement (.or rs rt rd) := by
  have h : (rowOf (.or rs rt rd)).1 = encodeR 0x3f#6 0x0#5 0x0#5 0x0#5 0x1f#5 0x3f#6 := rfl
  rw [EncodingPattern.Statement, h, encode, encodeR_and]
  simp [rowOf]
  rfl

theorem EncodingPattern.xor (rs rt rd : Reg) : EncodingPattern.Statement (.xor rs rt rd) := by
  have h : (rowOf (.xor rs rt rd)).1 = encodeR 0x3f#6 0x0#5 0x0#5 0x0#5 0x1f#5 0x3f#6 := rfl
  rw [EncodingPattern.Statement, h, encode, encodeR_and]
  simp [rowOf]
  rfl

theorem EncodingPattern.nor (rs rt rd : Reg) : EncodingPattern.Statement (.nor rs rt rd) := by
  have h : (rowOf (.nor rs rt rd)).1 = encodeR 0x3f#6 0x0#5 0x0#5 0x0#5 0x1f#5 0x3f#6 := rfl
  rw [EncodingPattern.Statement, h, encode, encodeR_and]
  simp [rowOf]
  rfl

theorem EncodingPattern.slt (rs rt rd : Reg) : EncodingPattern.Statement (.slt rs rt rd) := by
  have h : (rowOf (.slt rs rt rd)).1 = encodeR 0x3f#6 0x0#5 0x0#5 0x0#5 0x1f#5 0x3f#6 := rfl
  rw [EncodingPattern.Statement, h, encode, encodeR_and]
  simp [rowOf]
  rfl

theorem EncodingPattern.sltu (rs rt rd : Reg) : EncodingPattern.Statement (.sltu rs rt rd) := by
  have h : (rowOf (.sltu rs rt rd)).1 = encodeR 0x3f#6 0x0#5 0x0#5 0x0#5 0x1f#5 0x3f#6 := rfl
  rw [EncodingPattern.Statement, h, encode, encodeR_and]
  simp [rowOf]
  rfl

theorem EncodingPattern.srav (rs rt rd : Reg) : EncodingPattern.Statement (.srav rs rt rd) := by
  have h : (rowOf (.srav rs rt rd)).1 = encodeR 0x3f#6 0x0#5 0x0#5 0x0#5 0x1f#5 0x3f#6 := rfl
  rw [EncodingPattern.Statement, h, encode, encodeR_and]
  simp [rowOf]
  rfl

theorem EncodingPattern.srlv (rs rt rd : Reg) : EncodingPattern.Statement (.srlv rs rt rd) := by
  have h : (rowOf (.srlv rs rt rd)).1 = encodeR 0x3f#6 0x0#5 0x0#5 0x0#5 0x1f#5 0x3f#6 := rfl
  rw [EncodingPattern.Statement, h, encode, encodeR_and]
  simp [rowOf]
  rfl

theorem EncodingPattern.sllv (rs rt rd : Reg) : EncodingPattern.Statement (.sllv rs rt rd) := by
  have h : (rowOf (.sllv rs rt rd)).1 = encodeR 0x3f#6 0x0#5 0x0#5 0x0#5 0x1f#5 0x3f#6 := rfl
  rw [EncodingPattern.Statement, h, encode, encodeR_and]
  simp [rowOf]
  rfl

theorem EncodingPattern.mul (rs rt rd : Reg) : EncodingPattern.Statement (.mul rs rt rd) := by
  have h : (rowOf (.mul rs rt rd)).1 = encodeR 0x3f#6 0x0#5 0x0#5 0x0#5 0x1f#5 0x3f#6 := rfl
  rw [EncodingPattern.Statement, h, encode, encodeR_and]
  simp [rowOf]
  rfl

theorem EncodingPattern.div (rs rt rd : Reg) : EncodingPattern.Statement (.div rs rt rd) := by
  have h : (rowOf (.div rs rt rd)).1 = encodeR 0x3f#6 0x0#5 0x0#5 0x0#5 0x1f#5 0x3f#6 := rfl
  rw [EncodingPattern.Statement, h, encode, encodeR_and]
  simp [rowOf]
  rfl

theorem EncodingPattern.divu (rs rt rd : Reg) : EncodingPattern.Statement (.divu rs rt rd) := by
  have h : (rowOf (.divu rs rt rd)).1 = encodeR 0x3f#6 0x0#5 0x0#5 0x0#5 0x1f#5 0x3f#6 := rfl
  rw [EncodingPattern.Statement, h, encode, encodeR_and]
  simp [rowOf]
  rfl

theorem EncodingPattern.rem (rs rt rd : Reg) : EncodingPattern.Statement (.rem rs rt rd) := by
  have h : (rowOf (.rem rs rt rd)).1 = encodeR 0x3f#6 0x0#5 0x0#5 0x0#5 0x1f#5 0x3f#6 := rfl
  rw [EncodingPattern.Statement, h, encode, encodeR_and]
  simp [rowOf]
  rfl

theorem EncodingPattern.remu (rs rt rd : Reg) : EncodingPattern.Statement (.remu rs rt rd) := by
  have h : (rowOf (.remu rs rt rd)).1 = encodeR 0x3f#6 0x0#5 0x0#5 0x0#5 0x1f#5 0x3f#6 := rfl
  rw [EncodingPattern.Statement, h, encode, encodeR_and]
  simp [rowOf]
  rfl

theorem EncodingPattern.addiu (rs rt : Reg) (imm : BitVec 16) : EncodingPattern.Statement (.addiu rs rt imm) := by
  have h : (rowOf (.addiu rs rt imm)).1 = encodeI 0x3f#6 0x0#5 0x0#5 0x0#16 := rfl
  rw [EncodingPattern.Statement, h, encode, encodeI_and]
  simp [rowOf]
  rfl

theorem EncodingPattern.lui (rt : Reg) (imm : BitVec 16) : EncodingPattern.Statement (.lui rt imm) := by
  have h : (rowOf (.lui rt imm)).1 = encodeI 0x3f#6 0x1f#5 0x0#5 0x0#16 := rfl
  rw [EncodingPattern.Statement, h, encode, encodeI_and]
  simp [rowOf]
  rfl

theorem EncodingPattern.ori (rs rt : Reg) (imm : BitVec 16) : EncodingPattern.Statement (.ori rs rt imm) := by
  have h : (rowOf (.ori rs rt imm)).1 = encodeI 0x3f#6 0x0#5 0x0#5 0x0#16 := rfl
  rw [EncodingPattern.Statement, h, encode, encodeI_and]
  simp [rowOf]
  rfl

theorem EncodingPattern.andi (rs rt : Reg) (imm : BitVec 16) : EncodingPattern.Statement (.andi rs rt imm) := by
  have h : (rowOf (.andi rs rt imm)).1 = encodeI 0x3f#6 0x0#5 0x0#5 0x0#16 := rfl
  rw [EncodingPattern.Statement, h, encode, encodeI_and]
  simp [rowOf]
  rfl

theorem EncodingPattern.xori (rs rt : Reg) (imm : BitVec 16) : EncodingPattern.Statement (.xori rs rt imm) := by
  have h : (rowOf (.xori rs rt imm)).1 = encodeI 0x3f#6 0x0#5 0x0#5 0x0#16 := rfl
  rw [EncodingPattern.Statement, h, encode, encodeI_and]
  simp [rowOf]
  rfl

theorem EncodingPattern.slti (rs rt : Reg) (imm : BitVec 16) : EncodingPattern.Statement (.slti rs rt imm) := by
  have h : (rowOf (.slti rs rt imm)).1 = encodeI 0x3f#6 0x0#5 0x0#5 0x0#16 := rfl
  rw [EncodingPattern.Statement, h, encode, encodeI_and]
  simp [rowOf]
  rfl

theorem EncodingPattern.sltiu (rs rt : Reg) (imm : BitVec 16) : EncodingPattern.Statement (.sltiu rs rt imm) := by
  have h : (rowOf (.sltiu rs rt imm)).1 = encodeI 0x3f#6 0x0#5 0x0#5 0x0#16 := rfl
  rw [EncodingPattern.Statement, h, encode, encodeI_and]
  simp [rowOf]
  rfl

theorem EncodingPattern.sra (rt rd : Reg) (sa : BitVec 5) : EncodingPattern.Statement (.sra rt rd sa) := by
  have h : (rowOf (.sra rt rd sa)).1 = encodeR 0x3f#6 0x1f#5 0x0#5 0x0#5 0x0#5 0x3f#6 := rfl
  rw [EncodingPattern.Statement, h, encode, encodeR_and]
  simp [rowOf]
  rfl

theorem EncodingPattern.srl (rt rd : Reg) (sa : BitVec 5) : EncodingPattern.Statement (.srl rt rd sa) := by
  have h : (rowOf (.srl rt rd sa)).1 = encodeR 0x3f#6 0x1f#5 0x0#5 0x0#5 0x0#5 0x3f#6 := rfl
  rw [EncodingPattern.Statement, h, encode, encodeR_and]
  simp [rowOf]
  rfl

theorem EncodingPattern.sll (rt rd : Reg) (sa : BitVec 5) : EncodingPattern.Statement (.sll rt rd sa) := by
  have h : (rowOf (.sll rt rd sa)).1 = encodeR 0x3f#6 0x1f#5 0x0#5 0x0#5 0x0#5 0x3f#6 := rfl
  rw [EncodingPattern.Statement, h, encode, encodeR_and]
  simp [rowOf]
  rfl

theorem EncodingPattern.lw (rs rt : Reg) (imm : BitVec 16) : EncodingPattern.Statement (.lw rs rt imm) := by
  have h : (rowOf (.lw rs rt imm)).1 = encodeI 0x3f#6 0x0#5 0x0#5 0x0#16 := rfl
  rw [EncodingPattern.Statement, h, encode, encodeI_and]
  simp [rowOf]
  rfl

theorem EncodingPattern.lh (rs rt : Reg) (imm : BitVec 16) : EncodingPattern.Statement (.lh rs rt imm) := by
  have h : (rowOf (.lh rs rt imm)).1 = encodeI 0x3f#6 0x0#5 0x0#5 0x0#16 := rfl
  rw [EncodingPattern.Statement, h, encode, encodeI_and]
  simp [rowOf]
  rfl

theorem EncodingPattern.lhu (rs rt : Reg) (imm : BitVec 16) : EncodingPattern.Statement (.lhu rs rt imm) := by
  have h : (rowOf (.lhu rs rt imm)).1 = encodeI 0x3f#6 0x0#5 0x0#5 0x0#16 := rfl
  rw [EncodingPattern.Statement, h, encode, encodeI_and]
  simp [rowOf]
  rfl

theorem EncodingPattern.lb (rs rt : Reg) (imm : BitVec 16) : EncodingPattern.Statement (.lb rs rt imm) := by
  have h : (rowOf (.lb rs rt imm)).1 = encodeI 0x3f#6 0x0#5 0x0#5 0x0#16 := rfl
  rw [EncodingPattern.Statement, h, encode, encodeI_and]
  simp [rowOf]
  rfl

theorem EncodingPattern.lbu (rs rt : Reg) (imm : BitVec 16) : EncodingPattern.Statement (.lbu rs rt imm) := by
  have h : (rowOf (.lbu rs rt imm)).1 = encodeI 0x3f#6 0x0#5 0x0#5 0x0#16 := rfl
  rw [EncodingPattern.Statement, h, encode, encodeI_and]
  simp [rowOf]
  rfl

theorem EncodingPattern.sw (rs rt : Reg) (imm : BitVec 16) : EncodingPattern.Statement (.sw rs rt imm) := by
  have h : (rowOf (.sw rs rt imm)).1 = encodeI 0x3f#6 0x0#5 0x0#5 0x0#16 := rfl
  rw [EncodingPattern.Statement, h, encode, encodeI_and]
  simp [rowOf]
  rfl

theorem EncodingPattern.sh (rs rt : Reg) (imm : BitVec 16) : EncodingPattern.Statement (.sh rs rt imm) := by
  have h : (rowOf (.sh rs rt imm)).1 = encodeI 0x3f#6 0x0#5 0x0#5 0x0#16 := rfl
  rw [EncodingPattern.Statement, h, encode, encodeI_and]
  simp [rowOf]
  rfl

theorem EncodingPattern.sb (rs rt : Reg) (imm : BitVec 16) : EncodingPattern.Statement (.sb rs rt imm) := by
  have h : (rowOf (.sb rs rt imm)).1 = encodeI 0x3f#6 0x0#5 0x0#5 0x0#16 := rfl
  rw [EncodingPattern.Statement, h, encode, encodeI_and]
  simp [rowOf]
  rfl

theorem EncodingPattern.j (target : BitVec 26) : EncodingPattern.Statement (.j target) := by
  have h : (rowOf (.j target)).1 = encodeJ 0x3f#6 0x0#26 := rfl
  rw [EncodingPattern.Statement, h, encode, encodeJ_and]
  simp [rowOf]
  rfl

theorem EncodingPattern.jr (rs : Reg) : EncodingPattern.Statement (.jr rs) := by
  have h : (rowOf (.jr rs)).1 = encodeR 0x3f#6 0x0#5 0x1f#5 0x1f#5 0x1f#5 0x3f#6 := rfl
  rw [EncodingPattern.Statement, h, encode, encodeR_and]
  simp [rowOf]
  rfl

theorem EncodingPattern.jalr (rs rd : Reg) : EncodingPattern.Statement (.jalr rs rd) := by
  have h : (rowOf (.jalr rs rd)).1 = encodeR 0x3f#6 0x0#5 0x1f#5 0x0#5 0x1f#5 0x3f#6 := rfl
  rw [EncodingPattern.Statement, h, encode, encodeR_and]
  simp [rowOf]
  rfl

theorem EncodingPattern.jal (target : BitVec 26) : EncodingPattern.Statement (.jal target) := by
  have h : (rowOf (.jal target)).1 = encodeJ 0x3f#6 0x0#26 := rfl
  rw [EncodingPattern.Statement, h, encode, encodeJ_and]
  simp [rowOf]
  rfl

theorem EncodingPattern.beq (rs rt : Reg) (imm : BitVec 16) : EncodingPattern.Statement (.beq rs rt imm) := by
  have h : (rowOf (.beq rs rt imm)).1 = encodeI 0x3f#6 0x0#5 0x0#5 0x0#16 := rfl
  rw [EncodingPattern.Statement, h, encode, encodeI_and]
  simp [rowOf]
  rfl

theorem EncodingPattern.bne (rs rt : Reg) (imm : BitVec 16) : EncodingPattern.Statement (.bne rs rt imm) := by
  have h : (rowOf (.bne rs rt imm)).1 = encodeI 0x3f#6 0x0#5 0x0#5 0x0#16 := rfl
  rw [EncodingPattern.Statement, h, encode, encodeI_and]
  simp [rowOf]
  rfl

theorem EncodingPattern.bgtz (rs : Reg) (imm : BitVec 16) : EncodingPattern.Statement (.bgtz rs imm) := by
  have h : (rowOf (.bgtz rs imm)).1 = encodeI 0x3f#6 0x0#5 0x1f#5 0x0#16 := rfl
  rw [EncodingPattern.Statement, h, encode, encodeI_and]
  simp [rowOf]
  rfl

theorem EncodingPattern.bltz (rs : Reg) (imm : BitVec 16) : EncodingPattern.Statement (.bltz rs imm) := by
  have h : (rowOf (.bltz rs imm)).1 = encodeI 0x3f#6 0x0#5 0x1f#5 0x0#16 := rfl
  rw [EncodingPattern.Statement, h, encode, encodeI_and]
  simp [rowOf]
  rfl

theorem EncodingPattern.bgez (rs : Reg) (imm : BitVec 16) : EncodingPattern.Statement (.bgez rs imm) := by
  have h : (rowOf (.bgez rs imm)).1 = encodeI 0x3f#6 0x0#5 0x1f#5 0x0#16 := rfl
  rw [EncodingPattern.Statement, h, encode, encodeI_and]
  simp [rowOf]
  rfl

theorem EncodingPattern.blez (rs : Reg) (imm : BitVec 16) : EncodingPattern.Statement (.blez rs imm) := by
  have h : (rowOf (.blez rs imm)).1 = encodeI 0x3f#6 0x0#5 0x1f#5 0x0#16 := rfl
  rw [EncodingPattern.Statement, h, encode, encodeI_and]
  simp [rowOf]
  rfl

theorem EncodingPattern.movn (rs rt rd : Reg) : EncodingPattern.Statement (.movn rs rt rd) := by
  have h : (rowOf (.movn rs rt rd)).1 = encodeR 0x3f#6 0x0#5 0x0#5 0x0#5 0x1f#5 0x3f#6 := rfl
  rw [EncodingPattern.Statement, h, encode, encodeR_and]
  simp [rowOf]
  rfl

theorem EncodingPattern.movz (rs rt rd : Reg) : EncodingPattern.Statement (.movz rs rt rd) := by
  have h : (rowOf (.movz rs rt rd)).1 = encodeR 0x3f#6 0x0#5 0x0#5 0x0#5 0x1f#5 0x3f#6 := rfl
  rw [EncodingPattern.Statement, h, encode, encodeR_and]
  simp [rowOf]
  rfl

theorem EncodingPattern.amoAdd (rs rt rd : Reg) : EncodingPattern.Statement (.amoAdd rs rt rd) := by
  have h : (rowOf (.amoAdd rs rt rd)).1 = encodeR 0x3f#6 0x0#5 0x0#5 0x0#5 0x1f#5 0x3f#6 := rfl
  rw [EncodingPattern.Statement, h, encode, encodeR_and]
  simp [rowOf]
  rfl

theorem EncodingPattern.amoAnd (rs rt rd : Reg) : EncodingPattern.Statement (.amoAnd rs rt rd) := by
  have h : (rowOf (.amoAnd rs rt rd)).1 = encodeR 0x3f#6 0x0#5 0x0#5 0x0#5 0x1f#5 0x3f#6 := rfl
  rw [EncodingPattern.Statement, h, encode, encodeR_and]
  simp [rowOf]
  rfl

theorem EncodingPattern.amoOr (rs rt rd : Reg) : EncodingPattern.Statement (.amoOr rs rt rd) := by
  have h : (rowOf (.amoOr rs rt rd)).1 = encodeR 0x3f#6 0x0#5 0x0#5 0x0#5 0x1f#5 0x3f#6 := rfl
  rw [EncodingPattern.Statement, h, encode, encodeR_and]
  simp [rowOf]
  rfl

theorem EncodingPattern.sync : EncodingPattern.Statement .sync := by
  have h : (rowOf .sync).1 = encodeR 0x3f#6 0x1f#5 0x1f#5 0x1f#5 0x1f#5 0x3f#6 := rfl
  rw [EncodingPattern.Statement, h, encode, encodeR_and]
  simp [rowOf]
  rfl

theorem EncodingPattern.syscall : EncodingPattern.Statement .syscall := by
  have h : (rowOf .syscall).1 = encodeR 0x3f#6 0x1f#5 0x1f#5 0x1f#5 0x1f#5 0x3f#6 := rfl
  rw [EncodingPattern.Statement, h, encode, encodeR_and]
  simp [rowOf]
  rfl

theorem EncodingPattern.eret : EncodingPattern.Statement .eret := by
  have h : (rowOf .eret).1 = encodeR 0x3f#6 0x1f#5 0x1f#5 0x1f#5 0x1f#5 0x3f#6 := rfl
  rw [EncodingPattern.Statement, h, encode, encodeR_and]
  simp [rowOf]
  rfl

theorem EncodingPattern.cFS (ft fs fd : Reg) : EncodingPattern.Statement (.cFS ft fs fd) := by
  have h : (rowOf (.cFS ft fs fd)).1 = encodeR 0x3f#6 0x1f#5 0x0#5 0x0#5 0x0#5 0x3f#6 := rfl
  rw [EncodingPattern.Statement, h, encode, encodeR_and]
  simp [rowOf]
  rfl

theorem EncodingPattern.cUnS (ft fs fd : Reg) : EncodingPattern.Statement (.cUnS ft fs fd) := by
  have h : (rowOf (.cUnS ft fs fd)).1 = encodeR 0x3f#6 0x1f#5 0x0#5 0x0#5 0x0#5 0x3f#6 := rfl
  rw [EncodingPattern.Statement, h, encode, encodeR_and]
  simp [rowOf]
  rfl

theorem EncodingPattern.cEqS (ft fs fd : Reg) : EncodingPattern.Statement (.cEqS ft fs fd) := by
  have h : (rowOf (.cEqS ft fs fd)).1 = encodeR 0x3f#6 0x1f#5 0x0#5 0x0#5 0x0#5 0x3f#6 := rfl
  rw [EncodingPattern.Statement, h, encode, encodeR_and]
  simp [rowOf]
  rfl

theorem EncodingPattern.cNglS (ft fs fd : Reg) : EncodingPattern.Statement (.cNglS ft fs fd) := by
  have h : (rowOf (.cNglS ft fs fd)).1 = encodeR 0x3f#6 0x1f#5 0x0#5 0x0#5 0x0#5 0x3f#6 := rfl
  rw [EncodingPattern.Statement, h, encode, encodeR_and]
  simp [rowOf]
  rfl

theorem EncodingPattern.cLtS (ft fs fd : Reg) : EncodingPattern.Statement (.cLtS ft fs fd) := by
  have h : (rowOf (.cLtS ft fs fd)).1 = encodeR 0x3f#6 0x1f#5 0x0#5 0x0#5 0x0#5 0x3f#6 := rfl
  rw [EncodingPattern.Statement, h, encode, encodeR_and]
  simp [rowOf]
  rfl

theorem EncodingPattern.cNgeS (ft fs fd : Reg) : EncodingPattern.Statement (.cNgeS ft fs fd) := by
  have h : (rowOf (.cNgeS ft fs fd)).1 = encodeR 0x3f#6 0x1f#5 0x0#5 0x0#5 0x0#5 0x3f#6 := rfl
  rw [EncodingPattern.Statement, h, encode, encodeR_and]
  simp [rowOf]
  rfl

theorem EncodingPattern.cLeS (ft fs fd : Reg) : EncodingPattern.Statement (.cLeS ft fs fd) := by
  have h : (rowOf (.cLeS ft fs fd)).1 = encodeR 0x3f#6 0x1f#5 0x0#5 0x0#5 0x0#5 0x3f#6 := rfl
  rw [EncodingPattern.Statement, h, encode, encodeR_and]
  simp [rowOf]
  rfl

theorem EncodingPattern.cNgtS (ft fs fd : Reg) : EncodingPattern.Statement (.cNgtS ft fs fd) := by
  have h : (rowOf (.cNgtS ft fs fd)).1 = encodeR 0x3f#6 0x1f#5 0x0#5 0x0#5 0x0#5 0x3f#6 := rfl
  rw [EncodingPattern.Statement, h, encode, encodeR_and]
  simp [rowOf]
  rfl

theorem EncodingPattern.cvtWS (fs fd : Reg) : EncodingPattern.Statement (.cvtWS fs fd) := by
  have h : (rowOf (.cvtWS fs fd)).1 = encodeR 0x3f#6 0x1f#5 0x1f#5 0x0#5 0x0#5 0x3f#6 := rfl
  rw [EncodingPattern.Statement, h, encode, encodeR_and]
  simp [rowOf]
  rfl

theorem EncodingPattern.cvtSW (fs fd : Reg) : EncodingPattern.Statement (.cvtSW fs fd) := by
  have h : (rowOf (.cvtSW fs fd)).1 = encodeR 0x3f#6 0x1f#5 0x1f#5 0x0#5 0x0#5 0x3f#6 := rfl
  rw [EncodingPattern.Statement, h, encode, encodeR_and]
  simp [rowOf]
  rfl

theorem EncodingPattern.truncWS (fs fd : Reg) : EncodingPattern.Statement (.truncWS fs fd) := by
  have h : (rowOf (.truncWS fs fd)).1 = encodeR 0x3f#6 0x1f#5 0x1f#5 0x0#5 0x0#5 0x3f#6 := rfl
  rw [EncodingPattern.Statement, h, encode, encodeR_and]
  simp [rowOf]
  rfl

theorem EncodingPattern.mtx (rs rt : Reg) (accelId : BitVec 11) : EncodingPattern.Statement (.mtx rs rt accelId) := by
  have h : (rowOf (.mtx rs rt accelId)).1 = encodeX 0x3f#6 0x0#5 0x0#5 0x1f#5 0x0#11 := rfl
  rw [EncodingPattern.Statement, h, encode, encodeX_and]
  simp [rowOf]
  rfl

theorem EncodingPattern.mfx (rs rt : Reg) (accelId : BitVec 11) : EncodingPattern.Statement (.mfx rs rt accelId) := by
  have h : (rowOf (.mfx rs rt accelId)).1 = encodeX 0x3f#6 0x0#5 0x0#5 0x1f#5 0x0#11 := rfl
  rw [EncodingPattern.Statement, h, encode, encodeX_and]
  simp [rowOf]
  rfl

theorem EncodingPattern.mtxr (rs rt rAccel : Reg) : EncodingPattern.Statement (.mtxr rs rt rAccel) := by
  have h : (rowOf (.mtxr rs rt rAccel)).1 = encodeR 0x3f#6 0x0#5 0x0#5 0x1f#5 0x0#5 0x3f#6 := rfl
  rw [EncodingPattern.Statement, h, encode, encodeR_and]
  simp [rowOf]
  rfl

theorem EncodingPattern.mfxr (rs rt rAccel : Reg) : EncodingPattern.Statement (.mfxr rs rt rAccel) := by
  have h : (rowOf (.mfxr rs rt rAccel)).1 = encodeR 0x3f#6 0x0#5 0x0#5 0x1f#5 0x0#5 0x3f#6 := rfl
  rw [EncodingPattern.Statement, h, encode, encodeR_and]
  simp [rowOf]
  rfl

theorem EncodingPattern.nop : EncodingPattern.Statement .nop := by
  have h : (rowOf .nop).1 = encodeR 0x3f#6 0x1f#5 0x1f#5 0x1f#5 0x1f#5 0x3f#6 := rfl
  rw [EncodingPattern.Statement, h, encode, encodeR_and]
  simp [rowOf]
  rfl

end Sys2Proof.Laws
end

