-- ==== Sys2Proof/Laws/Steps.lean ====
section
/-! SUPPORT. All that an instruction can do, said once: the forms of the next state. -/

namespace Sys2Proof.Machine

open Sys2Proof

/-- The instructions that set `pc` themselves. -/
def IsControl (i : Instr) : Prop :=
  (∃ a, i = .j a) ∨ (∃ a, i = .jal a) ∨ (∃ rs, i = .jr rs) ∨ (∃ rs rd, i = .jalr rs rd) ∨
    (∃ rs rt imm, i = .beq rs rt imm) ∨ (∃ rs rt imm, i = .bne rs rt imm) ∨ (∃ rs imm, i = .bgtz rs imm) ∨
    (∃ rs imm, i = .bltz rs imm) ∨ (∃ rs imm, i = .bgez rs imm) ∨ (∃ rs imm, i = .blez rs imm) ∨
    i = .syscall ∨ i = .eret

/-- The forms of what an instruction can answer as next state. -/
inductive Effect (i : Instr) (s : State) : State → Prop where
  | waits : MustWait s i → Effect i s s
  | writes (d : Reg) (v : Word) : destinationOf i = some d → Effect i s (s.setGpr d v).advance
  | advances : Effect i s s.advance
  | jumps (target : Word) : IsControl i → (s.pc.toNat % 4 = 0 → s.epc.toNat % 4 = 0 → target.toNat % 4 = 0) →
      Effect i s (s.setPc target)
  | links (d : Reg) (target : Word) : IsControl i → destinationOf i = some d → target.toNat % 4 = 0 →
      Effect i s ((s.setGpr d s.pcPlus4).setPc target)
  | dequeues (rt : Reg) (w : Word) (rest : List Word) : i = .mfc0 rt 1#5 → s.mngr2proc = w :: rest →
      Effect i s ((s.setMngr2proc rest).setGpr rt w).advance
  | enqueues (rt : Reg) : i = .mtc0 rt 2#5 → Effect i s (s.enqueue (s.gpr rt)).advance
  | setsStats (rt : Reg) : i = .mtc0 rt 21#5 → Effect i s (s.setStatsEn (s.gpr rt)).advance
  | stores (width : Width) (a v : Word) : storeTarget s i = some (width, a) →
      isBacked s.params width a = true → Effect i s (s.put width a v).advance
  | updates (d : Reg) (a v old : Word) : storeTarget s i = some (.word, a) → destinationOf i = some d →
      isBacked s.params .word a = true → Effect i s ((s.put .word a v).setGpr d old).advance
  | traps (vector : BitVec 30) (rule : SyscallEpc) : i = .syscall → Effect i s (takeException vector rule s)
  | toXcel (id : Word) (st : XcelState) : Effect i s (s.setXcel id st).advance
  | fromXcel (id : Word) (st : XcelState) (d : Reg) (v : Word) : destinationOf i = some d →
      Effect i s ((s.setXcel id st).setGpr d v).advance

/-- A branch target, from an aligned `pc`, is aligned. -/
theorem branchTarget_aligned {s : State} (h : s.pc.toNat % 4 = 0) (imm : BitVec 16) :
    (branchTarget imm s).toNat % 4 = 0 := by
  have hp := pcPlus4_toNat s
  simp only [branchTarget, branchOffset, BitVec.toNat_add, BitVec.toNat_shiftLeft, Nat.shiftLeft_eq]
  omega

/-- A jump target is aligned. -/
theorem jumpTarget_aligned (s : State) (target : BitVec 26) : (jumpTarget target s).toNat % 4 = 0 := by
  change (s.pcPlus4.extractLsb' 28 4 ++ target ++ 0#2 : BitVec (4 + 26 + 2)).toNat % 4 = 0
  rw [BitVec.toNat_append]
  simp [Nat.shiftLeft_eq]

/-- A branch answers one of two forms. -/
theorem Effect.of_branchIf {i : Instr} {s t : State} {taken : Bool} {imm : BitVec 16} (hc : IsControl i)
    (h : branchIf taken imm s = .next t) : Effect i s t := by
  rw [branchIf_eq, Host.Outcome.next.injEq] at h
  subst h
  cases taken
  · exact .advances
  · exact .jumps _ hc fun hp _ => branchTarget_aligned hp imm

/-- The number of cpr1, cpr2 and cpr21 (10_state R17). -/
theorem cp0Named_number {v : Version} {n : Reg} :
    (cp0Named v n = some .mngr2proc → n = 1#5) ∧ (cp0Named v n = some .proc2mngr → n = 2#5) ∧
      (cp0Named v n = some .statsEn → n = 21#5) := by
  refine ⟨fun h => ?_, fun h => ?_, fun h => ?_⟩ <;> have h := cp0Named_some.1 h <;> simp_all

/-- A coprocessor-0 read answers one of these forms. -/
theorem Effect.of_readCp0 {rt n : Reg} {s t : State} (h : readCp0 rt n s = .next t) : Effect (.mfc0 rt n) s t := by
  rcases readCp0_next.1 h with ⟨hn, hm, rfl⟩ | ⟨w, rest, hn, hm, rfl⟩ | ⟨-, rfl⟩ | ⟨-, rfl⟩ | ⟨-, rfl⟩
  · exact .waits (.inl ⟨rt, by rw [cp0Named_number.1 hn], hm⟩)
  · exact .dequeues rt w rest (by rw [cp0Named_number.1 hn]) hm
  all_goals exact .writes _ _ rfl

/-- A coprocessor-0 write answers one of these forms. -/
theorem Effect.of_writeCp0 {rt n : Reg} {s t : State} (h : writeCp0 rt n s = .next t) : Effect (.mtc0 rt n) s t := by
  rcases writeCp0_next.1 h with ⟨hn, -, rfl⟩ | ⟨hn, hr, rfl⟩ | ⟨hn, rfl⟩
  · exact .enqueues rt (by rw [cp0Named_number.2.1 hn])
  · exact .waits (.inr (.inl ⟨rt, by rw [cp0Named_number.2.1 hn], hr⟩))
  · exact .setsStats rt (by rw [cp0Named_number.2.2 hn])

/-- A register write answers one form. -/
theorem Effect.of_writeBack {i : Instr} {s t : State} {d : Reg} {v : Word} (hd : destinationOf i = some d)
    (h : writeBack d v s = .next t) : Effect i s t := by
  cases h; exact .writes d v hd

/-- A load or a conversion answers one form. -/
theorem Effect.of_loadInto {α : Type} {i : Instr} {o : Answer α} {f : α → Word} {s t : State} {d : Reg}
    (hd : destinationOf i = some d) (h : (andThen o fun v => writeBack d (f v) s) = .next t) : Effect i s t := by
  obtain ⟨v, -, rfl⟩ := loadInto_next.1 h
  exact .writes d _ hd

/-- A store answers one form. -/
theorem Effect.of_store {i : Instr} {s t : State} {width : Width} {a v : Word}
    (ht : storeTarget s i = some (width, a)) (h : (andThen (store width a v s) fun u => .next u.advance) = .next t) :
    Effect i s t := by
  obtain ⟨-, hb, rfl⟩ := storeThen_next.1 h
  exact .stores width a v ht hb

/-- An atomic update answers one form. -/
theorem Effect.of_atomicUpdate {i : Instr} {f : Word → Word → Word} {rs rt rd : Reg} {s t : State}
    (ht : storeTarget s i = some (.word, s.gpr rs)) (hd : destinationOf i = some rd)
    (h : atomicUpdate f rs rt rd s = .next t) : Effect i s t := by
  obtain ⟨old, -, hb, -, rfl⟩ := atomicUpdate_next.1 h
  exact .updates rd _ _ _ ht hd hb

/-- A move to an accelerator answers one of two forms. -/
theorem Effect.of_writeXcel {i : Instr} {id v : Word} {n : Reg} {s t : State}
    (hw : ∀ st, xcelFind id s.xcels = some st → st.writeWaits.getLsbD n.toNat = true → MustWait s i)
    (h : writeXcel id n v s = .next t) : Effect i s t := by
  obtain ⟨st, hf, ⟨hb, rfl⟩ | ⟨-, rfl⟩⟩ := writeXcel_next.1 h
  · exact .waits (hw st hf hb)
  · exact .toXcel id _

/-- A move from an accelerator answers one of two forms. -/
theorem Effect.of_readXcel {i : Instr} {id : Word} {n rt : Reg} {s t : State}
    (hw : ∀ st, xcelFind id s.xcels = some st → st.readWaits.getLsbD n.toNat = true → MustWait s i)
    (hd : destinationOf i = some rt) (h : readXcel id n rt s = .next t) : Effect i s t := by
  obtain ⟨st, hf, ⟨hb, rfl⟩ | ⟨-, rfl⟩⟩ := readXcel_next.1 h
  · exact .waits (hw st hf hb)
  · exact .fromXcel id _ rt _ hd

/-- The id that an immediate names, as a number. -/
theorem immediateAccel_eq (a : BitVec 11) : immediateAccel a = BitVec.ofNat 32 a.toNat := by
  apply BitVec.eq_of_toNat_eq
  simp [immediateAccel]

/-- All that an instruction can do: if it answers a next state, that state has one of the forms of `Effect`. -/
theorem exec_effect {i : Instr} {s t : State} (h : exec i s = .next t) : Effect i s t := by
  cases i with
  | mfc0 rt rd => exact .of_readCp0 h
  | mtc0 rt rd => exact .of_writeCp0 h
  | addu rs rt rd => exact .of_writeBack rfl h
  | subu rs rt rd => exact .of_writeBack rfl h
  | and rs rt rd => exact .of_writeBack rfl h
  | or rs rt rd => exact .of_writeBack rfl h
  | xor rs rt rd => exact .of_writeBack rfl h
  | nor rs rt rd => exact .of_writeBack rfl h
  | slt rs rt rd => exact .of_writeBack rfl h
  | sltu rs rt rd => exact .of_writeBack rfl h
  | srav rs rt rd => exact .of_writeBack rfl h
  | srlv rs rt rd => exact .of_writeBack rfl h
  | sllv rs rt rd => exact .of_writeBack rfl h
  | mul rs rt rd => exact .of_writeBack rfl h
  | div rs rt rd => exact .of_writeBack rfl h
  | divu rs rt rd => exact .of_writeBack rfl h
  | rem rs rt rd => exact .of_writeBack rfl h
  | remu rs rt rd => exact .of_writeBack rfl h
  | addiu rs rt imm => exact .of_writeBack rfl h
  | lui rt imm => exact .of_writeBack rfl h
  | ori rs rt imm => exact .of_writeBack rfl h
  | andi rs rt imm => exact .of_writeBack rfl h
  | xori rs rt imm => exact .of_writeBack rfl h
  | slti rs rt imm => exact .of_writeBack rfl h
  | sltiu rs rt imm => exact .of_writeBack rfl h
  | sra rt rd sa => exact .of_writeBack rfl h
  | srl rt rd sa => exact .of_writeBack rfl h
  | sll rt rd sa => exact .of_writeBack rfl h
  | lw rs rt imm => exact .of_loadInto (f := id) rfl h
  | lh rs rt imm => exact .of_loadInto (f := sextHalf) rfl h
  | lhu rs rt imm => exact .of_loadInto (f := zextHalf) rfl h
  | lb rs rt imm => exact .of_loadInto (f := sextByte) rfl h
  | lbu rs rt imm => exact .of_loadInto (f := zextByte) rfl h
  | sw rs rt imm => exact .of_store rfl h
  | sh rs rt imm => exact .of_store rfl h
  | sb rs rt imm => exact .of_store rfl h
  | j target => cases h; exact .jumps _ (.inl ⟨_, rfl⟩) fun _ _ => jumpTarget_aligned s target
  | jr rs =>
    obtain ⟨ha, rfl⟩ := jumpTo_next.1 h
    exact .jumps _ (.inr (.inr (.inl ⟨_, rfl⟩))) fun _ _ => isAligned_iff.1 ha
  | jalr rs rd =>
    change (if rs = rd then _ else _) = _ at h
    split at h
    · cases h
    · obtain ⟨ha, rfl⟩ := jumpTo_next.1 h
      exact .links rd _ (.inr (.inr (.inr (.inl ⟨_, _, rfl⟩)))) rfl (isAligned_iff.1 ha)
  | jal target => cases h; exact .links 31#5 _ (.inr (.inl ⟨_, rfl⟩)) rfl (jumpTarget_aligned s target)
  | beq rs rt imm => exact .of_branchIf (by simp [IsControl]) h
  | bne rs rt imm => exact .of_branchIf (by simp [IsControl]) h
  | bgtz rs imm => exact .of_branchIf (by simp [IsControl]) h
  | bltz rs imm => exact .of_branchIf (by simp [IsControl]) h
  | bgez rs imm => exact .of_branchIf (by simp [IsControl]) h
  | blez rs imm => exact .of_branchIf (by simp [IsControl]) h
  | movn rs rt rd =>
    change (if _ then _ else _) = _ at h
    split at h
    · exact .of_writeBack rfl h
    · cases h; exact .advances
  | movz rs rt rd =>
    change (if _ then _ else _) = _ at h
    split at h
    · exact .of_writeBack rfl h
    · cases h; exact .advances
  | amoAdd rs rt rd => exact .of_atomicUpdate rfl rfl h
  | amoAnd rs rt rd => exact .of_atomicUpdate rfl rfl h
  | amoOr rs rt rd => exact .of_atomicUpdate rfl rfl h
  | sync => cases h; exact .advances
  | syscall => obtain ⟨v, rule, -, -, rfl⟩ := execSyscall_next.1 h; exact .traps v rule rfl
  | eret =>
    obtain ⟨ha, rfl⟩ := returnFromException_next.1 h
    exact .jumps _ (by simp [IsControl]) fun _ he => he
  | cFS ft fs fd => exact .of_writeBack rfl h
  | cUnS ft fs fd => exact .of_writeBack rfl h
  | cEqS ft fs fd => exact .of_writeBack rfl h
  | cNglS ft fs fd => exact .of_writeBack rfl h
  | cLtS ft fs fd => exact .of_writeBack rfl h
  | cNgeS ft fs fd => exact .of_writeBack rfl h
  | cLeS ft fs fd => exact .of_writeBack rfl h
  | cNgtS ft fs fd => exact .of_writeBack rfl h
  | cvtWS fs fd => exact .of_loadInto (f := id) rfl h
  | cvtSW fs fd => exact .of_writeBack rfl h
  | truncWS fs fd => exact .of_loadInto (f := id) rfl h
  | mtx rs rt a =>
    exact .of_writeXcel (fun st hf hb =>
      .inr (.inr ⟨rs, rt, _, st, hf, .inl ⟨.inl ⟨a, rfl, immediateAccel_eq a⟩, hb⟩⟩)) h
  | mfx rs rt a =>
    exact .of_readXcel (fun st hf hb =>
      .inr (.inr ⟨rs, rt, _, st, hf, .inr ⟨.inl ⟨a, rfl, immediateAccel_eq a⟩, hb⟩⟩)) rfl h
  | mtxr rs rt q =>
    exact .of_writeXcel (fun st hf hb => .inr (.inr ⟨rs, rt, _, st, hf, .inl ⟨.inr ⟨q, rfl, rfl⟩, hb⟩⟩)) h
  | mfxr rs rt q =>
    exact .of_readXcel (fun st hf hb => .inr (.inr ⟨rs, rt, _, st, hf, .inr ⟨.inr ⟨q, rfl, rfl⟩, hb⟩⟩)) rfl h
  | nop => cases h; exact .advances

/-- An instruction that must wait answers the state unchanged. -/
theorem exec_of_mustWait {i : Instr} {s : State} (h : MustWait s i) : exec i s = .next s := by
  rcases h with ⟨rt, rfl, hm⟩ | ⟨rt, rfl, hr⟩ | ⟨rs, rt, id, st, hf, ⟨⟨a, rfl, hi⟩ | ⟨q, rfl, hi⟩, hb⟩ |
    ⟨⟨a, rfl, hi⟩ | ⟨q, rfl, hi⟩, hb⟩⟩
  · simp [exec, execMfc0, readCp0, cp0Named, hm]
  · simp [exec, execMtc0, writeCp0, cp0Named, hr]
  · simp [exec, execMtx, writeXcel, immediateAccel_eq, ← hi, hf, hb]
  · simp [exec, execMtxr, writeXcel, ← hi, hf, hb]
  · simp [exec, execMfx, readXcel, immediateAccel_eq, ← hi, hf, hb]
  · simp [exec, execMfxr, readXcel, ← hi, hf, hb]

end Sys2Proof.Machine
end

