-- ==== Sys2Proof/Tests/Slice0.lean ====
section
/-! SUPPORT. Tests: ill-formed terms refused, one word of every instruction decoded, one step of every instruction on a small
state, and a witness for every statement that has hypotheses. The expected values are those of the `Example` and `Corner
cases` lines of the rules (40 to 49 of spec/), but for `xor` and `nor`, which are worked out from R115 and R116. -/

namespace Sys2Proof.Tests

open Sys2Proof Sys2Proof.Machine

/-! ### WellFormed -/

/-- The one check: the all-zero word belongs to `nop`, so `sll r0, r0, 0` has no word of its own. -/
theorem test_sll_zero_is_ill_formed : (Instr.sll 0 0 0).wellFormed = false := by decide
theorem test_sll_r1_is_well_formed : (Instr.sll 0 1 0).wellFormed = true := by decide

/-! ### Decoding: each word is written out from the diagram of its rule -/

theorem test_decode_mfc0 : decode 0b010000_00000_00010_00001_00000_000000#32 = .ok (.mfc0 2 1) := by decide
theorem test_decode_mtc0 : decode 0b010000_00100_00010_00010_00000_000000#32 = .ok (.mtc0 2 2) := by decide
theorem test_decode_addu : decode 0b000000_00001_00010_00011_00000_100001#32 = .ok (.addu 1 2 3) := by decide
theorem test_decode_subu : decode 0b000000_00001_00010_00011_00000_100011#32 = .ok (.subu 1 2 3) := by decide
theorem test_decode_and : decode 0b000000_00001_00010_00011_00000_100100#32 = .ok (.and 1 2 3) := by decide
theorem test_decode_or : decode 0b000000_00001_00010_00011_00000_100101#32 = .ok (.or 1 2 3) := by decide
theorem test_decode_xor : decode 0b000000_00001_00010_00011_00000_100110#32 = .ok (.xor 1 2 3) := by decide
theorem test_decode_nor : decode 0b000000_00001_00010_00011_00000_100111#32 = .ok (.nor 1 2 3) := by decide
theorem test_decode_slt : decode 0b000000_00001_00010_00011_00000_101010#32 = .ok (.slt 1 2 3) := by decide
theorem test_decode_sltu : decode 0b000000_00001_00010_00011_00000_101011#32 = .ok (.sltu 1 2 3) := by decide
theorem test_decode_srav : decode 0b000000_00010_00001_00011_00000_000111#32 = .ok (.srav 2 1 3) := by decide
theorem test_decode_srlv : decode 0b000000_00010_00001_00011_00000_000110#32 = .ok (.srlv 2 1 3) := by decide
theorem test_decode_sllv : decode 0b000000_00010_00001_00011_00000_000100#32 = .ok (.sllv 2 1 3) := by decide
theorem test_decode_mul : decode 0b011100_00001_00010_00011_00000_000010#32 = .ok (.mul 1 2 3) := by decide
theorem test_decode_div : decode 0b100111_00001_00010_00011_00000_000101#32 = .ok (.div 1 2 3) := by decide
theorem test_decode_divu : decode 0b100111_00001_00010_00011_00000_000111#32 = .ok (.divu 1 2 3) := by decide
theorem test_decode_rem : decode 0b100111_00001_00010_00011_00000_000110#32 = .ok (.rem 1 2 3) := by decide
theorem test_decode_remu : decode 0b100111_00001_00010_00011_00000_001000#32 = .ok (.remu 1 2 3) := by decide
theorem test_decode_addiu : decode 0b001001_00001_00010_1111111111111111#32 = .ok (.addiu 1 2 0xffff) := by decide
theorem test_decode_lui : decode 0b001111_00000_00010_0001001000110100#32 = .ok (.lui 2 0x1234) := by decide
theorem test_decode_ori : decode 0b001101_00001_00010_1000000000000000#32 = .ok (.ori 1 2 0x8000) := by decide
theorem test_decode_andi : decode 0b001100_00001_00010_0000000011111111#32 = .ok (.andi 1 2 0xff) := by decide
theorem test_decode_xori : decode 0b001110_00001_00010_1111111111111111#32 = .ok (.xori 1 2 0xffff) := by decide
theorem test_decode_slti : decode 0b001010_00001_00010_1111111111111111#32 = .ok (.slti 1 2 0xffff) := by decide
theorem test_decode_sltiu : decode 0b001011_00001_00010_1111111111111111#32 = .ok (.sltiu 1 2 0xffff) := by decide
theorem test_decode_sra : decode 0b000000_00000_00001_00011_00100_000011#32 = .ok (.sra 1 3 4) := by decide
theorem test_decode_srl : decode 0b000000_00000_00001_00011_00100_000010#32 = .ok (.srl 1 3 4) := by decide
theorem test_decode_sll : decode 0b000000_00000_00001_00011_00100_000000#32 = .ok (.sll 1 3 4) := by decide
theorem test_decode_lw : decode 0b100011_00001_00010_0000000000001000#32 = .ok (.lw 1 2 8) := by decide
theorem test_decode_lh : decode 0b100001_00001_00010_1111111111111110#32 = .ok (.lh 1 2 0xfffe) := by decide
theorem test_decode_lhu : decode 0b100101_00001_00010_0000000000000010#32 = .ok (.lhu 1 2 2) := by decide
theorem test_decode_lb : decode 0b100000_00001_00010_0000000000000011#32 = .ok (.lb 1 2 3) := by decide
theorem test_decode_lbu : decode 0b100100_00001_00010_0000000000000011#32 = .ok (.lbu 1 2 3) := by decide
theorem test_decode_sw : decode 0b101011_00001_00010_0000000000001000#32 = .ok (.sw 1 2 8) := by decide
theorem test_decode_sh : decode 0b101001_00001_00010_0000000000000010#32 = .ok (.sh 1 2 2) := by decide
theorem test_decode_sb : decode 0b101000_00001_00010_0000000000000001#32 = .ok (.sb 1 2 1) := by decide
theorem test_decode_j : decode 0b000010_00000000000000010000000100#32 = .ok (.j 0x404) := by decide
theorem test_decode_jr : decode 0b000000_11111_00000_00000_00000_001000#32 = .ok (.jr 31) := by decide
theorem test_decode_jalr : decode 0b000000_00100_00000_11111_00000_001001#32 = .ok (.jalr 4 31) := by decide
theorem test_decode_jal : decode 0b000011_00000000000000010000000100#32 = .ok (.jal 0x404) := by decide
theorem test_decode_beq : decode 0b000100_00001_00010_0000000000000011#32 = .ok (.beq 1 2 3) := by decide
theorem test_decode_bne : decode 0b000101_00001_00010_1111111111111110#32 = .ok (.bne 1 2 0xfffe) := by decide
theorem test_decode_bgtz : decode 0b000111_00001_00000_0000000000000011#32 = .ok (.bgtz 1 3) := by decide
theorem test_decode_bltz : decode 0b000001_00001_00000_0000000000000011#32 = .ok (.bltz 1 3) := by decide
theorem test_decode_bgez : decode 0b000001_00001_00001_0000000000000011#32 = .ok (.bgez 1 3) := by decide
theorem test_decode_blez : decode 0b000110_00001_00000_0000000000000011#32 = .ok (.blez 1 3) := by decide
theorem test_decode_movn : decode 0b000000_00001_00010_00011_00000_001011#32 = .ok (.movn 1 2 3) := by decide
theorem test_decode_movz : decode 0b000000_00001_00010_00011_00000_001010#32 = .ok (.movz 1 2 3) := by decide
theorem test_decode_amoAdd : decode 0b100111_00001_00010_00011_00000_000010#32 = .ok (.amoAdd 1 2 3) := by decide
theorem test_decode_amoAnd : decode 0b100111_00001_00010_00011_00000_000011#32 = .ok (.amoAnd 1 2 3) := by decide
theorem test_decode_amoOr : decode 0b100111_00001_00010_00011_00000_000100#32 = .ok (.amoOr 1 2 3) := by decide
theorem test_decode_sync : decode 0b000000_00000_00000_00000_00000_001111#32 = .ok .sync := by decide
theorem test_decode_syscall : decode 0b000000_00000_00000_00000_00000_001100#32 = .ok .syscall := by decide
theorem test_decode_eret : decode 0b010000_10000_00000_00000_00000_011000#32 = .ok .eret := by decide
theorem test_decode_cFS : decode 0b010001_10000_00001_00010_00011_110000#32 = .ok (.cFS 1 2 3) := by decide
theorem test_decode_cUnS : decode 0b010001_10000_00001_00010_00011_110001#32 = .ok (.cUnS 1 2 3) := by decide
theorem test_decode_cEqS : decode 0b010001_10000_00001_00010_00011_110010#32 = .ok (.cEqS 1 2 3) := by decide
theorem test_decode_cNglS : decode 0b010001_10000_00001_00010_00011_111011#32 = .ok (.cNglS 1 2 3) := by decide
theorem test_decode_cLtS : decode 0b010001_10000_00001_00010_00011_111100#32 = .ok (.cLtS 1 2 3) := by decide
theorem test_decode_cNgeS : decode 0b010001_10000_00001_00010_00011_111101#32 = .ok (.cNgeS 1 2 3) := by decide
theorem test_decode_cLeS : decode 0b010001_10000_00001_00010_00011_111110#32 = .ok (.cLeS 1 2 3) := by decide
theorem test_decode_cNgtS : decode 0b010001_10000_00001_00010_00011_111111#32 = .ok (.cNgtS 1 2 3) := by decide
theorem test_decode_cvtWS : decode 0b010001_00000_00000_00001_00011_100100#32 = .ok (.cvtWS 1 3) := by decide
theorem test_decode_cvtSW : decode 0b010001_00000_00000_00001_00011_100000#32 = .ok (.cvtSW 1 3) := by decide
theorem test_decode_truncWS : decode 0b010001_00000_00000_00001_00011_001101#32 = .ok (.truncWS 1 3) := by decide
theorem test_decode_mtx : decode 0b010010_00001_00010_00000_00000000101#32 = .ok (.mtx 1 2 5) := by decide
theorem test_decode_mfx : decode 0b010010_00001_00010_00001_00000000101#32 = .ok (.mfx 1 2 5) := by decide
theorem test_decode_mtxr : decode 0b010010_00001_00010_00010_00110_000000#32 = .ok (.mtxr 1 2 6) := by decide
theorem test_decode_mfxr : decode 0b010010_00001_00010_00011_00110_000000#32 = .ok (.mfxr 1 2 6) := by decide
theorem test_decode_nop : decode 0b000000_00000_00000_00000_00000_000000#32 = .ok .nop := by decide

/-! Words that no row has (30_encoding R83, R91, R92). -/

theorem test_no_such_op : decode 0b111111_00000_00000_00000_00000_000000#32 = .error .noSuchOp := by decide
theorem test_no_such_cmd : decode 0b000000_00001_00010_00011_00000_111111#32 = .error .noSuchSubOp := by decide
theorem test_unlisted_condition : decode 0b010001_10000_00001_00010_00011_110011#32 = .error .noSuchSubOp := by decide
theorem test_addu_sa_not_zero : decode 0b000000_00001_00010_00011_00001_100001#32 = .error .fixedBits := by decide
theorem test_jr_rt_not_zero : decode 0b000000_11111_00001_00000_00000_001000#32 = .error .fixedBits := by decide
theorem test_mfc0_low_bits_not_zero : decode 0b010000_00000_00010_00001_00000_000001#32 = .error .fixedBits := by decide
theorem test_truncated : decodeBytes [0x21#8, 0x18#8, 0x22#8] = .error .truncated := by decide
theorem test_table_word : decodeTableWord 32 0x00221821 = some (.addu 1 2 3) := by decide

/-! ### One step -/

/-- Parameters with a value for each that `Config.launch` leaves free. -/
def testParams : Params where
  version := .parcV3
  paBitsPred := 31
  numCores := 4#32
  coreId := 2#32
  excVector := some 0x800#30
  syscallEpc := some .pcPlus4
  cvtWSRound := .nearestEven
  cvtSWRound := .nearestEven
  flushSubnormals := false
  admitGkMips := true
  admitGkAmo := true
  populated := [{ base := 0, size := 4294967296 }]

/-- The state after reset with those parameters. -/
def start : State := { State.reset with params := testParams }

/-- A state with registers given. -/
def withRegs (s : State) (l : List (Reg × Word)) : State := l.foldl (fun t c => t.setGpr c.1 c.2) s

/-- A state with bytes placed from an address on. -/
def withBytes (s : State) (n : Nat) (l : List Byte) : State :=
  (l.zipIdx n).foldl (fun t c => t.placeByte c.2 c.1) s

/-- One step that runs a given word. -/
def runWord (s : State) (w : Nat) : Answer State := step (s.withFetchWord 32 w)

/-- A register of a next state. -/
def regAfter (o : Answer State) (r : Reg) : Option Word :=
  match o with
  | .next t => some (t.gpr r)
  | .fault _ => none
  | .refused _ => none

/-- The `pc` of a next state. -/
def pcAfter (o : Answer State) : Option Word :=
  match o with
  | .next t => some t.pc
  | .fault _ => none
  | .refused _ => none

/-- The bytes of a next state's memory at `n` and the three addresses above. -/
def bytesAfter (o : Answer State) (n : Nat) : List (Option Byte) :=
  match o with
  | .next t => (List.range 4).map fun k => Memory.read (n + k) t.mem
  | .fault _ => []
  | .refused _ => []

/-- The fault of an answer. -/
def faultOf (o : Answer State) : Option Fault :=
  match o with
  | .next _ => none
  | .fault f => some f
  | .refused _ => none

/-- One field of a next state. -/
def fieldAfter {α : Type} (f : State → α) (o : Answer State) : Option α :=
  match o with
  | .next t => some (f t)
  | .fault _ => none
  | .refused _ => none

theorem test_addu_wraps :
    regAfter (runWord (withRegs start [(1, 0xFFFFFFFF#32), (2, 0x1#32)]) 0x00221821) 3 = some 0x0#32 := by decide
theorem test_subu_wraps :
    regAfter (runWord (withRegs start [(1, 0x0#32), (2, 0x1#32)]) 0x00221823) 3 = some 0xFFFFFFFF#32 := by decide
theorem test_and :
    regAfter (runWord (withRegs start [(1, 0xFF00FF00#32), (2, 0xFF00FF0#32)]) 0x00221824) 3 = some 0xF000F00#32 := by decide
theorem test_or :
    regAfter (runWord (withRegs start [(1, 0xFF00FF00#32), (2, 0xFF00FF0#32)]) 0x00221825) 3 = some 0xFFF0FFF0#32 := by decide
theorem test_xor :
    regAfter (runWord (withRegs start [(1, 0xFF00FF00#32), (2, 0xFF00FF0#32)]) 0x00221826) 3 = some 0xF0F0F0F0#32 := by decide
theorem test_nor :
    regAfter (runWord (withRegs start [(1, 0xFF00FF00#32), (2, 0xFF00FF0#32)]) 0x00221827) 3 = some 0xF000F#32 := by decide
theorem test_slt_signed :
    regAfter (runWord (withRegs start [(1, 0xFFFFFFFF#32), (2, 0x1#32)]) 0x0022182A) 3 = some 0x1#32 := by decide
theorem test_sltu_unsigned :
    regAfter (runWord (withRegs start [(1, 0xFFFFFFFF#32), (2, 0x1#32)]) 0x0022182B) 3 = some 0x0#32 := by decide
theorem test_srav_low_five_bits :
    regAfter (runWord (withRegs start [(1, 0x80000000#32), (2, 0x24#32)]) 0x00411807) 3 = some 0xF8000000#32 := by decide
theorem test_srlv_low_five_bits :
    regAfter (runWord (withRegs start [(1, 0x80000000#32), (2, 0x24#32)]) 0x00411806) 3 = some 0x8000000#32 := by decide
theorem test_sllv_low_five_bits :
    regAfter (runWord (withRegs start [(1, 0x1#32), (2, 0x3F#32)]) 0x00411804) 3 = some 0x80000000#32 := by decide
theorem test_mul :
    regAfter (runWord (withRegs start [(1, 0x6#32), (2, 0x7#32)]) 0x70221802) 3 = some 0x2A#32 := by decide
theorem test_mul_truncates :
    regAfter (runWord (withRegs start [(1, 0x7FFFFFFF#32), (2, 0x7FFFFFFF#32)]) 0x70221802) 3 = some 0x1#32 := by decide
theorem test_div_toward_zero :
    regAfter (runWord (withRegs start [(1, 0xFFFFFFF9#32), (2, 0x2#32)]) 0x9C221805) 3 = some 0xFFFFFFFD#32 := by decide
theorem test_divu :
    regAfter (runWord (withRegs start [(1, 0xFFFFFFF9#32), (2, 0x2#32)]) 0x9C221807) 3 = some 0x7FFFFFFC#32 := by decide
theorem test_rem_sign_of_dividend :
    regAfter (runWord (withRegs start [(1, 0xFFFFFFF9#32), (2, 0x2#32)]) 0x9C221806) 3 = some 0xFFFFFFFF#32 := by decide
theorem test_remu :
    regAfter (runWord (withRegs start [(1, 0xFFFFFFF9#32), (2, 0x2#32)]) 0x9C221808) 3 = some 0x1#32 := by decide
theorem test_addiu_sign_extends :
    regAfter (runWord (withRegs start [(1, 0x0#32)]) 0x2422FFFF) 2 = some 0xFFFFFFFF#32 := by decide
theorem test_lui :
    regAfter (runWord (withRegs start []) 0x3C021234) 2 = some 0x12340000#32 := by decide
theorem test_ori_zero_extends :
    regAfter (runWord (withRegs start [(1, 0x12340000#32)]) 0x34228000) 2 = some 0x12348000#32 := by decide
theorem test_andi :
    regAfter (runWord (withRegs start [(1, 0x12345678#32)]) 0x302200FF) 2 = some 0x78#32 := by decide
theorem test_xori_zero_extends :
    regAfter (runWord (withRegs start [(1, 0x12345678#32)]) 0x3822FFFF) 2 = some 0x1234A987#32 := by decide
theorem test_slti :
    regAfter (runWord (withRegs start [(1, 0xFFFFFFFE#32)]) 0x2822FFFF) 2 = some 0x1#32 := by decide
theorem test_sltiu_sign_extends :
    regAfter (runWord (withRegs start [(1, 0xFFFFFFFE#32)]) 0x2C22FFFF) 2 = some 0x1#32 := by decide
theorem test_sltiu_equal :
    regAfter (runWord (withRegs start [(1, 0xFFFFFFFF#32)]) 0x2C22FFFF) 2 = some 0x0#32 := by decide
theorem test_sra :
    regAfter (runWord (withRegs start [(1, 0x80000000#32)]) 0x00011903) 3 = some 0xF8000000#32 := by decide
theorem test_srl :
    regAfter (runWord (withRegs start [(1, 0x80000000#32)]) 0x00011902) 3 = some 0x8000000#32 := by decide
theorem test_sll :
    regAfter (runWord (withRegs start [(1, 0xFFFFFFF#32)]) 0x00011900) 3 = some 0xFFFFFFF0#32 := by decide
theorem test_nop :
    pcAfter (runWord (withRegs start []) 0x00000000) = some 0x1004#32 := by decide
theorem test_r0_is_not_written :
    regAfter (runWord (withRegs start [(1, 0x5#32)]) 0x24200001) 0 = some 0x0#32 := by decide
theorem test_j :
    pcAfter (runWord (withRegs start []) 0x08000404) = some 0x1010#32 := by decide
theorem test_jr :
    pcAfter (runWord (withRegs start [(31, 0x1004#32)]) 0x03E00008) = some 0x1004#32 := by decide
theorem test_jal_links :
    regAfter (runWord (withRegs start []) 0x0C000404) 31 = some 0x1004#32 := by decide
theorem test_jal :
    pcAfter (runWord (withRegs start []) 0x0C000404) = some 0x1010#32 := by decide
theorem test_jalr_links :
    regAfter (runWord (withRegs start [(4, 0x2000#32)]) 0x0080F809) 31 = some 0x1004#32 := by decide
theorem test_jalr :
    pcAfter (runWord (withRegs start [(4, 0x2000#32)]) 0x0080F809) = some 0x2000#32 := by decide
theorem test_beq_taken :
    pcAfter (runWord (withRegs start [(1, 0x7#32), (2, 0x7#32)]) 0x10220003) = some 0x1010#32 := by decide
theorem test_beq_not_taken :
    pcAfter (runWord (withRegs start [(1, 0x7#32), (2, 0x8#32)]) 0x10220003) = some 0x1004#32 := by decide
theorem test_bne_taken_backwards :
    pcAfter (runWord (withRegs start [(1, 0x7#32), (2, 0x8#32)]) 0x1422FFFE) = some 0xFFC#32 := by decide
theorem test_bne_not_taken :
    pcAfter (runWord (withRegs start [(1, 0x7#32), (2, 0x7#32)]) 0x1422FFFE) = some 0x1004#32 := by decide
theorem test_bgtz_taken :
    pcAfter (runWord (withRegs start [(1, 0x1#32)]) 0x1C200003) = some 0x1010#32 := by decide
theorem test_bgtz_not_taken_on_zero :
    pcAfter (runWord (withRegs start [(1, 0x0#32)]) 0x1C200003) = some 0x1004#32 := by decide
theorem test_bltz_taken :
    pcAfter (runWord (withRegs start [(1, 0x80000000#32)]) 0x04200003) = some 0x1010#32 := by decide
theorem test_bltz_not_taken_on_zero :
    pcAfter (runWord (withRegs start [(1, 0x0#32)]) 0x04200003) = some 0x1004#32 := by decide
theorem test_bgez_taken_on_zero :
    pcAfter (runWord (withRegs start [(1, 0x0#32)]) 0x04210003) = some 0x1010#32 := by decide
theorem test_bgez_not_taken :
    pcAfter (runWord (withRegs start [(1, 0xFFFFFFFF#32)]) 0x04210003) = some 0x1004#32 := by decide
theorem test_blez_taken_on_zero :
    pcAfter (runWord (withRegs start [(1, 0x0#32)]) 0x18200003) = some 0x1010#32 := by decide
theorem test_blez_not_taken :
    pcAfter (runWord (withRegs start [(1, 0x1#32)]) 0x18200003) = some 0x1004#32 := by decide
theorem test_movn_moves :
    regAfter (runWord (withRegs start [(1, 0xA#32), (2, 0x1#32), (3, 0x5#32)]) 0x0022180B) 3 = some 0xA#32 := by decide
theorem test_movn_keeps :
    regAfter (runWord (withRegs start [(1, 0xA#32), (2, 0x0#32), (3, 0x5#32)]) 0x0022180B) 3 = some 0x5#32 := by decide
theorem test_movz_moves :
    regAfter (runWord (withRegs start [(1, 0xA#32), (2, 0x0#32), (3, 0x5#32)]) 0x0022180A) 3 = some 0xA#32 := by decide
theorem test_movz_keeps :
    regAfter (runWord (withRegs start [(1, 0xA#32), (2, 0x1#32), (3, 0x5#32)]) 0x0022180A) 3 = some 0x5#32 := by decide
theorem test_sync :
    pcAfter (runWord (withRegs start []) 0x0000000F) = some 0x1004#32 := by decide
theorem test_syscall_goes_to_vector :
    pcAfter (runWord (withRegs start []) 0x0000000C) = some 0x2000#32 := by decide
theorem test_c_f :
    regAfter (runWord (withRegs start [(1, 0x3F800000#32), (2, 0x3F800000#32)]) 0x460110F0) 3 = some 0x0#32 := by decide
theorem test_c_un_nan :
    regAfter (runWord (withRegs start [(1, 0x7FC00000#32), (2, 0x3F800000#32)]) 0x460110F1) 3 = some 0x1#32 := by decide
theorem test_c_un_ordered :
    regAfter (runWord (withRegs start [(1, 0x3F800000#32), (2, 0x3F800000#32)]) 0x460110F1) 3 = some 0x0#32 := by decide
theorem test_c_eq_zeros :
    regAfter (runWord (withRegs start [(1, 0x0#32), (2, 0x80000000#32)]) 0x460110F2) 3 = some 0x1#32 := by decide
theorem test_c_eq_nan :
    regAfter (runWord (withRegs start [(1, 0x7FC00000#32), (2, 0x7FC00000#32)]) 0x460110F2) 3 = some 0x0#32 := by decide
theorem test_c_ngl_nan :
    regAfter (runWord (withRegs start [(1, 0x7FC00000#32), (2, 0x3F800000#32)]) 0x460110FB) 3 = some 0x1#32 := by decide
theorem test_c_ngl_less :
    regAfter (runWord (withRegs start [(1, 0x3F800000#32), (2, 0x40000000#32)]) 0x460110FB) 3 = some 0x0#32 := by decide
theorem test_c_lt :
    regAfter (runWord (withRegs start [(1, 0x3F800000#32), (2, 0x40000000#32)]) 0x460110FC) 3 = some 0x1#32 := by decide
theorem test_c_lt_exchanged :
    regAfter (runWord (withRegs start [(1, 0x40000000#32), (2, 0x3F800000#32)]) 0x460110FC) 3 = some 0x0#32 := by decide
theorem test_c_nge_nan :
    regAfter (runWord (withRegs start [(1, 0x7FC00000#32), (2, 0x3F800000#32)]) 0x460110FD) 3 = some 0x1#32 := by decide
theorem test_c_nge_equal :
    regAfter (runWord (withRegs start [(1, 0x3F800000#32), (2, 0x3F800000#32)]) 0x460110FD) 3 = some 0x0#32 := by decide
theorem test_c_le_equal :
    regAfter (runWord (withRegs start [(1, 0x3F800000#32), (2, 0x3F800000#32)]) 0x460110FE) 3 = some 0x1#32 := by decide
theorem test_c_le_greater :
    regAfter (runWord (withRegs start [(1, 0x40000000#32), (2, 0x3F800000#32)]) 0x460110FE) 3 = some 0x0#32 := by decide
theorem test_c_ngt_greater :
    regAfter (runWord (withRegs start [(1, 0x40000000#32), (2, 0x3F800000#32)]) 0x460110FF) 3 = some 0x0#32 := by decide
theorem test_c_ngt_nan :
    regAfter (runWord (withRegs start [(1, 0x7FC00000#32), (2, 0x3F800000#32)]) 0x460110FF) 3 = some 0x1#32 := by decide
theorem test_cvt_w_s_nearest_even :
    regAfter (runWord (withRegs start [(1, 0x40600000#32)]) 0x440008E4) 3 = some 0x4#32 := by decide
theorem test_cvt_w_s_largest :
    regAfter (runWord (withRegs start [(1, 0x4EFFFFFF#32)]) 0x440008E4) 3 = some 0x7FFFFF80#32 := by decide
theorem test_cvt_s_w_negative :
    regAfter (runWord (withRegs start [(1, 0xFFFFFFFF#32)]) 0x440008E0) 3 = some 0xBF800000#32 := by decide
theorem test_cvt_s_w_rounds :
    regAfter (runWord (withRegs start [(1, 0x7FFFFFFF#32)]) 0x440008E0) 3 = some 0x4F000000#32 := by decide
theorem test_trunc_w_s :
    regAfter (runWord (withRegs start [(1, 0x40600000#32)]) 0x440008CD) 3 = some 0x3#32 := by decide
theorem test_trunc_w_s_negative :
    regAfter (runWord (withRegs start [(1, 0xBFC00000#32)]) 0x440008CD) 3 = some 0xFFFFFFFF#32 := by decide

theorem test_eret_returns : pcAfter (runWord { start with epc := 0x2014#32 } 0x42000018) = some 0x2014#32 := by decide
theorem test_syscall_saves : fieldAfter (·.epc) (runWord start 0x0C) = some 0x1004#32 := by decide
theorem test_jalr_same_register : faultOf (runWord start 0x03E0F809) = some .jalrSameRegister := by decide
theorem test_jr_misaligned :
    faultOf (runWord (withRegs start [(31, 0x1002#32)]) 0x03E00008) = some (.misalignedTarget 0x1002#32) := by decide
theorem test_cvt_w_s_too_large :
    faultOf (runWord (withRegs start [(1, 0x4F000000#32)]) 0x440008E4) = some (.fpUnpredictable 0x4F000000#32) := by decide
theorem test_trunc_w_s_infinity :
    faultOf (runWord (withRegs start [(1, 0x7F800000#32)]) 0x440008CD) = some (.fpUnpredictable 0x7F800000#32) := by decide

/-- A state with the word 0x12345678 at 0x2008. -/
def dataState : State := withRegs (withBytes start 0x2008 [0x78#8, 0x56#8, 0x34#8, 0x12#8]) [(1, 0x2000#32)]

/-- A state with the bytes 00 80 00 FF from 0x2000 on. -/
def byteState : State := withRegs (withBytes start 0x2000 [0x00#8, 0x80#8, 0x00#8, 0xFF#8]) [(1, 0x2000#32)]

theorem test_lw : regAfter (runWord dataState 0x8C220008) 2 = some 0x12345678#32 := by decide
theorem test_lh : regAfter (runWord (withRegs byteState [(1, 0x2002#32)]) 0x8422FFFE) 2 = some 0xFFFF8000#32 := by decide
theorem test_lhu : regAfter (runWord byteState 0x94220000) 2 = some 0x8000#32 := by decide
theorem test_lb : regAfter (runWord byteState 0x80220003) 2 = some 0xFFFFFFFF#32 := by decide
theorem test_lbu : regAfter (runWord byteState 0x90220003) 2 = some 0xFF#32 := by decide
theorem test_lw_misaligned :
    faultOf (runWord (withRegs dataState [(1, 0x2001#32)]) 0x8C220008) = some (.misalignedData 0x2009#32) := by decide
theorem test_sw :
    bytesAfter (runWord (withRegs start [(1, 0x2000#32), (2, 0x12345678#32)]) 0xAC220008) 0x2008 =
      [some 0x78#8, some 0x56#8, some 0x34#8, some 0x12#8] := by decide
theorem test_sh :
    bytesAfter (runWord (withRegs byteState [(2, 0xABCD1234#32)]) 0xA4220002) 0x2000 =
      [some 0x00#8, some 0x80#8, some 0x34#8, some 0x12#8] := by decide
theorem test_sb :
    bytesAfter (runWord (withRegs (withBytes start 0x2000 [0x44#8, 0x33#8, 0x22#8, 0x11#8])
      [(1, 0x2000#32), (2, 0x1FF#32)]) 0xA0220001) 0x2000 = [some 0x44#8, some 0xFF#8, some 0x22#8, some 0x11#8] := by
  decide

/-- A state with a word at 0x2000 and the operands of an atomic. -/
def amoState (w operand : Word) : State :=
  withRegs (start.placeWord 0x2000 w) [(1, 0x2000#32), (2, operand)]

theorem test_amo_add :
    bytesAfter (runWord (amoState 7#32 1#32) 0x9C221802) 0x2000 = [some 8#8, some 0#8, some 0#8, some 0#8] := by decide
theorem test_amo_add_old : regAfter (runWord (amoState 7#32 1#32) 0x9C221802) 3 = some 7#32 := by decide
theorem test_amo_and :
    bytesAfter (runWord (amoState 0x12345678#32 0xFF00#32) 0x9C221803) 0x2000 =
      [some 0#8, some 0x56#8, some 0#8, some 0#8] := by decide
theorem test_amo_or :
    bytesAfter (runWord (amoState 0#32 1#32) 0x9C221804) 0x2000 = [some 1#8, some 0#8, some 0#8, some 0#8] := by decide
theorem test_mfc0_dequeues :
    fieldAfter (fun t => (t.gpr 2, t.mngr2proc)) (runWord { start with mngr2proc := [5#32, 7#32] } 0x40020800) =
      some (5#32, [7#32]) := by decide
theorem test_mfc0_stalls : pcAfter (runWord start 0x40020800) = some 0x1000#32 := by decide
theorem test_mtc0_enqueues :
    fieldAfter (·.proc2mngr) (runWord (withRegs start [(2, 0xC#32)]) 0x40821000) = some [0xC#32] := by decide
theorem test_mtc0_undefined : faultOf (runWord start 0x40820800) = some (.undefinedCp0Access 1) := by decide

/-- An accelerator of id 5 that makes no move wait. -/
def xcel5 : Xcel := { id := 5#32, st := { regs := Vector.replicate 32 0#32, inner := [], readWaits := 0, writeWaits := 0 } }

theorem test_mtx : pcAfter (runWord { start with xcels := [xcel5] } 0x48220005) = some 0x1004#32 := by decide
theorem test_mtx_absent : faultOf (runWord start 0x48220005) = some (.noSuchAccelerator 5#32) := by decide
theorem test_mfx : pcAfter (runWord { start with xcels := [xcel5] } 0x48220805) = some 0x1004#32 := by decide
theorem test_mtxr :
    pcAfter (runWord (withRegs { start with xcels := [xcel5] } [(6, 5#32)]) 0x48221180) = some 0x1004#32 := by decide
theorem test_mfxr :
    pcAfter (runWord (withRegs { start with xcels := [xcel5] } [(6, 5#32)]) 0x48221980) = some 0x1004#32 := by decide
theorem test_reset_runs_a_placed_word : pcAfter (runWord State.reset 0x00221821) = some 0x1004#32 := by decide
theorem test_reset_alone_has_nothing_to_run : faultOf (step State.reset) = some (.readOfUnwritten 0x1000#32) := by decide

/-! ### Witnesses: a concrete state and operands that meet the hypotheses of each statement, clause by clause -/

/-- A state whose `pc` is at the last word of the address space, with `addu r3, r1, r2` there. -/
def topState : State := ({ start with pc := 0xFFFFFFFC#32 } : State).withFetchWord 32 0x00221821

/-- A state with `addu r3, r1, r2` at `pc`. -/
def codeState : State := start.withFetchWord 32 0x00221821

/-- A launch with 16 bytes of memory, at 0x1000. -/
def smallParams : Params := { testParams with populated := [{ base := 0x1000, size := 16 }] }

/-- A state of that launch. -/
def smallState : State := { start with params := smallParams }

/-- The same with `pc` at the first address that has no memory. -/
def pastState : State := { smallState with pc := 0x1010#32 }

/-- A launch with four bits of physical address, all of it populated. -/
def narrowParams : Params := { testParams with paBitsPred := 3 }

/-- A launch with one bit of physical address: two bytes of memory. -/
def twoByteParams : Params := { testParams with paBitsPred := 0 }

/-- The state after reset in that launch. -/
def twoByteState : State := { start with params := twoByteParams }

/-- A state in which another agent's act comes before the core's turn: the manager takes the word 7. -/
def takeState : State := { codeState with proc2mngr := [7#32], turns := [.outside .take] }

/-- The bytes of a word are at `a + k` modulo 2^32, then truncated (20_memory R43, R44), and written in the order of R47. -/
theorem test_sw_in_two_bytes :
    fieldAfter (·.mem) (store .word 0#32 0x44332211#32 twoByteState) = some [(0, 0x33#8), (1, 0x44#8)] := by decide
theorem test_outside_act_is_a_step : fieldAfter (fun t => (t.pc, t.received)) (step takeState) = some (0x1000#32, [7#32]) := by
  decide

theorem witness_DecodeEncodeAgree :
    (Instr.sll 0 0 1).wellFormed = true ∧ (Instr.addu 1 2 3).wellFormed = true := by decide

theorem witness_EncodeDecodeAgree : decode 0x00221821#32 = .ok (.addu 1 2 3) := by decide

theorem witness_VersionsAreNested :
    Version.le .parcV1 .parcV3 = true ∧
      decodeFor { testParams with version := .parcV1 } 0x00221821#32 = .ok (.addu 1 2 3) ∧
      decode 0x00221823#32 = .ok (.subu 1 2 3) := by decide

theorem witness_StepRunsDecodedInstruction :
    nextAct topState = none ∧ topState.pc.toNat % 4 = 0 ∧ Placed topState.params topState.pc 4 ∧
      HoldsWord topState topState.pc 0x21 0x18 0x22 0x00 ∧
      (∀ k < 4, byteOf topState.params topState.pc k ∉ topState.storedTo) ∧
      decodeFor topState.params (BitVec.ofNat 32 (littleEndian [0x21#8, 0x18#8, 0x22#8, 0x00#8])) = .ok (.addu 1 2 3) ∧
      topState.turns = [] ∧ nextAct takeState = some .take := by
  unfold Placed HoldsWord HoldsByte; decide

theorem witness_PlacedWordRuns :
    nextAct start = none ∧ start.pc.toNat % 4 = 0 ∧ Placed start.params start.pc 4 ∧
      wordThroughMemory start.params 0x00221821#32 = 0x00221821#32 ∧
      decodeFor start.params 0x00221821#32 = .ok (.addu 1 2 3) ∧ Placed twoByteState.params twoByteState.pc 4 ∧
      wordThroughMemory twoByteState.params 0x24212421#32 = 0x24212421#32 ∧
      decodeFor twoByteState.params 0x24212421#32 = .ok (.addiu 1 1 0x2421) := by
  unfold Placed; decide

/-- The first and the last byte of the word stored to. -/
theorem witness_FetchStopsInOrder_stored :
    nextAct start = none ∧ start.pc.toNat % 4 = 0 ∧
      (∃ k < 4, byteOf start.params start.pc k ∈ ({ start with storedTo := [0x1000] } : State).storedTo) ∧
      (∃ k < 4, byteOf start.params start.pc k ∈ ({ start with storedTo := [0x1003] } : State).storedTo) := by
  decide

/-- `pc` at the word just past the last populated one. -/
theorem witness_FetchStopsInOrder_unplaced :
    nextAct pastState = none ∧ pastState.pc.toNat % 4 = 0 ∧
      (∀ k < 4, byteOf pastState.params pastState.pc k ∉ pastState.storedTo) ∧
      ¬Placed pastState.params pastState.pc 4 := by
  unfold Placed; decide

/-- All bytes but the last hold values. -/
theorem witness_FetchStopsInOrder_unwritten :
    Placed start.params start.pc 4 ∧ (∀ k < 4, byteOf start.params start.pc k ∉ start.storedTo) ∧
      ∃ k < 4, Memory.read (byteOf start.params start.pc k) (withBytes start 0x1000 [0#8, 0#8, 0#8]).mem = none := by
  unfold Placed; decide

theorem witness_FetchStopsInOrder_undefined :
    HoldsWord (start.withFetchWord 32 0xFFFFFFFF) start.pc 255 255 255 255 ∧
      decodeFor start.params (BitVec.ofNat 32 (littleEndian [255#8, 255#8, 255#8, 255#8])) = .error .noSuchOp := by
  unfold HoldsWord HoldsByte; decide

theorem witness_StoredWordsDoNotFetch :
    (∃ t, step (codeState.storeByte 0x3000 1#8) = .next t) ∧ 0x3000 ∈ (codeState.storeByte 0x3000 1#8).storedTo ∧
      (∃ t, exec (.sb 1 2 3) dataState = .next t) ∧
      storeTarget dataState (.sb 1 2 3) = some (.byte, 0x2003#32) ∧ (0x2000#32 : Word).toNat % 4 = 0 ∧
      ∃ n ∈ physBytes dataState.params .word 0x2000#32, n ∈ physBytes dataState.params .byte 0x2003#32 :=
  ⟨⟨_, rfl⟩, by decide, ⟨_, rfl⟩, by decide, by decide, 0x2003, by decide, by decide⟩

/-- The last word, the last halfword and the last byte of the address space; the widest access that physical memory has room
for, and its last byte. -/
theorem witness_MemReadRule :
    (2 ≤ 2 ^ paBits twoByteParams ∧ (0xFFFFFFFE#32 : Word).toNat % 2 = 0 ∧ byteOf twoByteParams 0xFFFFFFFE#32 1 = 1) ∧
      (4 ≤ 2 ^ paBits narrowParams ∧ (0xFFFFFFFC#32 : Word).toNat % 4 = 0 ∧ byteOf narrowParams 0xFFFFFFFC#32 3 = 15) ∧
      Placed topState.params 0xFFFFFFFC#32 4 ∧ HoldsWord topState 0xFFFFFFFC#32 0x21 0x18 0x22 0 ∧
      Placed topState.params 0xFFFFFFFE#32 2 ∧ HoldsByte topState 0xFFFFFFFE#32 0 0x22 ∧
      HoldsByte topState 0xFFFFFFFE#32 1 0 ∧ Placed topState.params 0xFFFFFFFF#32 1 ∧
      HoldsByte topState 0xFFFFFFFF#32 0 0 := by
  unfold Placed HoldsWord HoldsByte; decide

/-- Every width, at the top of the address space, and a word in a physical memory of 16 bytes and of two. -/
theorem witness_MemWriteRule :
    (0xFFFFFFFC#32 : Word).toNat % widthBytes .word = 0 ∧ Placed testParams 0xFFFFFFFC#32 (widthBytes .word) ∧
      Placed narrowParams 0xFFFFFFFC#32 (widthBytes .word) ∧ Placed twoByteParams 0xFFFFFFFC#32 (widthBytes .word) ∧
      (0xFFFFFFFE#32 : Word).toNat % widthBytes .half = 0 ∧ Placed testParams 0xFFFFFFFE#32 (widthBytes .half) ∧
      (0xFFFFFFFF#32 : Word).toNat % widthBytes .byte = 0 ∧ Placed testParams 0xFFFFFFFF#32 (widthBytes .byte) := by
  unfold Placed; decide

theorem witness_NarrowAndWideAccesses :
    (∃ t u, store .word 0xFFFFFFFC#32 0x11223344#32 start = .next t ∧ store .byte 0xFFFFFFFC#32 0xAA#32 t = .next u) ∧
      0x11223344#32 = wordThroughMemory start.params 0x11223344#32 ∧ 2 ≤ paBits start.params ∧
      (∃ t u, store .word 0#32 0x44332211#32 twoByteState = .next t ∧ store .byte 0#32 0xAA#32 t = .next u) ∧
      0x44334433#32 = wordThroughMemory twoByteState.params 0x44332211#32 :=
  ⟨⟨_, _, rfl, rfl⟩, by decide, by decide, ⟨_, _, rfl, rfl⟩, by decide⟩

/-- Addresses that end in 1 and 2; the first word past the populated ones; bytes that hold nothing. -/
theorem witness_DataAccessStops_lw_sw :
    (effAddr 1 1 dataState).toNat % 4 ≠ 0 ∧ (effAddr 1 2 dataState).toNat % 4 ≠ 0 ∧
      (effAddr 0 0x1010 smallState).toNat % 4 = 0 ∧
      ¬Placed smallState.params (effAddr 0 0x1010 smallState) 4 ∧
      (effAddr 1 12 dataState).toNat % 4 = 0 ∧
      Placed dataState.params (effAddr 1 12 dataState) 4 ∧
      ∃ k < 4, Memory.read (byteOf dataState.params (effAddr 1 12 dataState) k) dataState.mem = none := by
  unfold Placed; decide

theorem witness_DataAccessStops_halves :
    (effAddr 1 1 dataState).toNat % 2 ≠ 0 ∧ (effAddr 0 0x1010 smallState).toNat % 2 = 0 ∧
      ¬Placed smallState.params (effAddr 0 0x1010 smallState) 2 ∧
      (effAddr 1 12 dataState).toNat % 2 = 0 ∧
      Placed dataState.params (effAddr 1 12 dataState) 2 ∧
      ∃ k < 2, Memory.read (byteOf dataState.params (effAddr 1 12 dataState) k) dataState.mem = none := by
  unfold Placed; decide

theorem witness_DataAccessStops_bytes :
    ¬Placed smallState.params (effAddr 0 0x1010 smallState) 1 ∧
      ¬Placed smallState.params (effAddr 0 0xFFF smallState) 1 ∧
      Placed dataState.params (effAddr 1 12 dataState) 1 ∧
      Memory.read (byteOf dataState.params (effAddr 1 12 dataState) 0) dataState.mem = none := by
  unfold Placed; decide

theorem witness_DataAccessStops_atomics :
    ((withRegs start [(1, 0x2002#32)]).gpr 1).toNat % 4 ≠ 0 ∧
      ((withRegs smallState [(1, 0x1010#32)]).gpr 1).toNat % 4 = 0 ∧
      ¬Placed smallState.params ((withRegs smallState [(1, 0x1010#32)]).gpr 1) 4 ∧
      (dataState.gpr 1).toNat % 4 = 0 ∧ Placed dataState.params (dataState.gpr 1) 4 ∧
      ∃ k < 4, Memory.read (byteOf dataState.params (dataState.gpr 1) k) dataState.mem = none := by
  unfold Placed; decide

/-- The same address, an address that is the same below `PA_BITS`, and the words just below and above. -/
theorem witness_LoadAfterStore :
    (∃ t, exec (.sw 1 2 8) dataState = .next t ∧ effAddr 1 8 t = 0x2008#32) ∧ (0x2008#32 : Word).toNat % 4 = 0 ∧
      (0x2008#32 : Word).toNat % 2 ^ paBits dataState.params =
        (effAddr 1 8 dataState).toNat % 2 ^ paBits dataState.params ∧
      (∃ t, exec (.sw 1 2 8) ({ start with params := narrowParams } : State) = .next t) ∧
      (0xFFFFFFF8#32 : Word).toNat % 2 ^ paBits narrowParams =
        (effAddr 1 8 start).toNat % 2 ^ paBits narrowParams ∧
      (∀ j < 4, ∀ k < 4, byteOf dataState.params 0x2004#32 j ≠ byteOf dataState.params (effAddr 1 8 dataState) k) ∧
      (∀ j < 4, ∀ k < 4, byteOf dataState.params 0x200C#32 j ≠ byteOf dataState.params (effAddr 1 8 dataState) k) :=
  ⟨⟨_, rfl, by decide⟩, by decide, by decide, ⟨_, rfl⟩, by decide, by decide, by decide⟩

theorem witness_AddressFormation : start.pc.toNat % 4 = 0 := by decide

theorem witness_LwResult :
    (effAddr 1 8 dataState).toNat % 4 = 0 ∧
      Placed dataState.params (effAddr 1 8 dataState) 4 ∧
      HoldsWord dataState (effAddr 1 8 dataState) 0x78 0x56 0x34 0x12 := by
  unfold Placed HoldsWord HoldsByte; decide

theorem witness_LhLhuResults :
    (effAddr 1 0 byteState).toNat % 2 = 0 ∧
      Placed byteState.params (effAddr 1 0 byteState) 2 ∧
      HoldsByte byteState (effAddr 1 0 byteState) 0 0x00 ∧
      HoldsByte byteState (effAddr 1 0 byteState) 1 0x80 := by
  unfold Placed HoldsByte; decide

theorem witness_LbLbuResults :
    Placed byteState.params (effAddr 1 3 byteState) 1 ∧
      HoldsByte byteState (effAddr 1 3 byteState) 0 0xFF := by
  unfold Placed HoldsByte; decide

theorem witness_SwStores :
    (effAddr 1 8 dataState).toNat % 4 = 0 ∧
      Placed dataState.params (effAddr 1 8 dataState) 4 := by
  unfold Placed; decide

theorem witness_ShSbStores :
    (effAddr 1 2 dataState).toNat % 2 = 0 ∧
      Placed dataState.params (effAddr 1 2 dataState) 2 ∧
      Placed dataState.params (effAddr 1 3 dataState) 1 := by
  unfold Placed; decide

theorem witness_LogicalShiftResults : (0x00011900#32 : Word) ≠ 0#32 := by decide

/-- The four corners of the signed division: divisor 0, -2^31 by -1, and one operand of each pair alone. -/
theorem witness_DivRemResults :
    (0x80000000#32 : Word).toInt = -2 ^ 31 ∧ (0xFFFFFFFF#32 : Word).toInt = -1 ∧ (0#32 : Word).toInt = 0 ∧
      (1#32 : Word).toInt ≠ -1 ∧ (1#32 : Word).toInt ≠ 0 := by decide

theorem witness_DivuRemuResults : (0#32 : Word).toNat = 0 ∧ (1#32 : Word).toNat ≠ 0 := by decide

theorem witness_DivisionIdentity :
    (3 : Reg) ≠ 0#5 ∧ ((withRegs start [(1, 0x80000000#32), (2, 1#32)]).gpr 2).toNat ≠ 0 ∧
      ¬(((withRegs start [(1, 0x80000000#32), (2, 1#32)]).gpr 1).toInt = -2 ^ 31 ∧
        ((withRegs start [(1, 0x80000000#32), (2, 1#32)]).gpr 2).toInt = -1) ∧
      (∃ t, exec (.div 1 2 3) (withRegs start [(1, 0x80000000#32), (2, 1#32)]) = .next t) ∧
      (∃ t, exec (.rem 1 2 3) (withRegs start [(1, 0x80000000#32), (2, 1#32)]) = .next t) ∧
      (∃ t, exec (.divu 1 2 3) (withRegs start [(1, 0x80000000#32), (2, 1#32)]) = .next t) ∧
      ∃ t, exec (.remu 1 2 3) (withRegs start [(1, 0x80000000#32), (2, 1#32)]) = .next t :=
  ⟨by decide, by decide, by decide, ⟨_, rfl⟩, ⟨_, rfl⟩, ⟨_, rfl⟩, ⟨_, rfl⟩⟩

theorem witness_AddiuLuiResults : fieldOp 0x3C221234#32 = 0b001111#6 ∧ fieldRs 0x3C221234#32 ≠ 0#5 := by decide

theorem witness_JAndJalResults :
    BitVec.ofNat 32 ((start.pc.toNat + 4) % 2 ^ 32 / 2 ^ 28 * 2 ^ 28 + (0x404#26 : BitVec 26).toNat * 4) =
      0x1010#32 := by decide

/-- Aligned targets 0 and 0x2000, misaligned ones by 1 and by 2, equal and different registers. -/
theorem witness_JrAndJalrResults :
    ((withRegs start [(4, 0x2000#32)]).gpr 4).toNat % 4 = 0 ∧ (start.gpr 0).toNat % 4 = 0 ∧
      ((withRegs start [(4, 0x2001#32)]).gpr 4).toNat % 4 ≠ 0 ∧
      ((withRegs start [(4, 0x2002#32)]).gpr 4).toNat % 4 ≠ 0 ∧ (4 : Reg) ≠ 31 ∧ (31 : Reg) = 31 := by decide

theorem witness_BeqBneBgtzResults :
    fieldOp 0x1C210003#32 = 0b000111#6 ∧ fieldRt 0x1C210003#32 ≠ 0#5 ∧
      BitVec.ofInt 32 (start.pc.toNat + 4 + (3#16 : BitVec 16).toInt * 4) = 0x1010#32 ∧
      BitVec.ofNat 32 (start.pc.toNat + 4) = 0x1004#32 := by decide

theorem witness_BltzBgezBlezResults :
    BitVec.ofInt 32 (start.pc.toNat + 4 + (0x8000#16 : BitVec 16).toInt * 4) = 0xFFFE1004#32 ∧
      BitVec.ofNat 32 (start.pc.toNat + 4) = 0x1004#32 := by decide

theorem witness_ConditionalMoveResults :
    (withRegs start [(2, 1#32)]).gpr 2 ≠ 0#32 ∧ start.gpr 2 = 0#32 := by decide

theorem witness_AtomicUpdateResults :
    ((amoState 7#32 1#32).gpr 1).toNat % 4 = 0 ∧
      Placed (amoState 7#32 1#32).params ((amoState 7#32 1#32).gpr 1) 4 ∧
      HoldsWord (amoState 7#32 1#32) ((amoState 7#32 1#32).gpr 1) 7 0 0 0 ∧
      (7#32 : Word) = BitVec.ofNat 32 (littleEndian [7#8, 0#8, 0#8, 0#8]) := by
  unfold Placed HoldsWord HoldsByte; decide

theorem witness_SyscallEntry :
    start.params.excVector = some 0x800#30 ∧ start.params.syscallEpc = some .pcPlus4 ∧
      ({ testParams with syscallEpc := some .pc } : Params).syscallEpc = some .pc ∧
      ({ testParams with excVector := none } : Params).excVector = none ∧
      ({ testParams with syscallEpc := none } : Params).syscallEpc = none := by decide

theorem witness_EretReturns :
    start.epc.toNat % 4 = 0 ∧ ({ start with epc := 0x2014#32 } : State).epc.toNat % 4 = 0 := by decide

theorem witness_SyscallThenEret :
    ({ start with epc := 0x2001#32 } : State).epc.toNat % 4 ≠ 0 ∧ start.pc.toNat % 4 = 0 ∧
      start.params.syscallEpc = some .pcPlus4 ∧ ∃ t, exec .syscall start = .next t :=
  ⟨by decide, by decide, by decide, _, rfl⟩

/-- A NaN on the left: `c.un.s` and `c.ngt.s` with their conditions, which hold. -/
theorem witness_CompareResults :
    FloatUnordered ((withRegs start [(1, 0x7FC00000#32)]).gpr 1) ((withRegs start [(1, 0x7FC00000#32)]).gpr 2) ∧
      ∀ less equal unordered : Prop,
        (less ↔ FloatLess false ((withRegs start [(1, 0x7FC00000#32)]).gpr 1)
          ((withRegs start [(1, 0x7FC00000#32)]).gpr 2)) →
        ∃ (i j : Instr) (holdsI holdsJ : Prop), (i = .cUnS 1 2 3 ∧ (holdsI ↔ unordered)) ∧
          (j = .cNgtS 1 2 3 ∧ (holdsJ ↔ less ∨ equal ∨ unordered)) :=
  ⟨.inl (by unfold FloatIsNan; decide), fun _ _ _ _ => ⟨_, _, _, _, ⟨rfl, Iff.rfl⟩, rfl, Iff.rfl⟩⟩

/-- 3.5 converts; so do -2^31 and 2^31 - 128, the ends of the range; a NaN, +infinity and 2^31 do not. -/
theorem witness_float_converts :
    FloatConverts false 0x40600000#32 ∧ FloatConverts false 0xCF000000#32 ∧ FloatConverts false 0x4EFFFFFF#32 := by
  refine ⟨⟨?_, ?_, ?_, ?_⟩, ⟨?_, ?_, ?_, ?_⟩, ⟨?_, ?_, ?_, ?_⟩⟩ <;>
    simp [FloatIsNan, FloatIsInf, floatValue] <;> norm_num

theorem witness_float_does_not_convert :
    ¬FloatConverts false 0x7FC00000#32 ∧ ¬FloatConverts false 0x7F800000#32 ∧ ¬FloatConverts false 0x4F000000#32 := by
  refine ⟨fun h => h.1 ?_, fun h => h.2.1 ?_, fun h => ?_⟩
  · unfold FloatIsNan; decide
  · unfold FloatIsInf; decide
  · have := h.2.2.2
    simp [floatValue] at this

theorem witness_TruncWSResult :
    FloatConverts start.params.flushSubnormals ((withRegs start [(1, 0x40600000#32)]).gpr 1) ∧
      ¬FloatConverts start.params.flushSubnormals ((withRegs start [(1, 0x4F000000#32)]).gpr 1) :=
  ⟨witness_float_converts.1, witness_float_does_not_convert.2.2⟩

theorem witness_CvtWSResult :
    FloatConverts start.params.flushSubnormals ((withRegs start [(1, 0xCF000000#32)]).gpr 1) ∧
      ¬FloatConverts start.params.flushSubnormals ((withRegs start [(1, 0x7FC00000#32)]).gpr 1) :=
  ⟨witness_float_converts.2.1, witness_float_does_not_convert.1⟩

/-- 0; 2^24, the last magnitude below which all is exact; 2^24 + 1, which rounds; -2^31; both ends of the range of `e`. -/
theorem witness_CvtSWResult :
    (0#32 : Word).toInt = 0 ∧ |(0x01000000#32 : Word).toInt| ≤ 2 ^ 24 ∧
      ((2 : Int) ^ 24 ≤ |(0x01000001#32 : Word).toInt| ∧ |(0x01000001#32 : Word).toInt| < 2 ^ (24 + 1)) ∧
      ((2 : Int) ^ 31 ≤ |(0x80000000#32 : Word).toInt| ∧ |(0x80000000#32 : Word).toInt| < 2 ^ (31 + 1)) ∧
      ((2 : Int) ^ 23 ≤ |(0x00800000#32 : Word).toInt| ∧ |(0x00800000#32 : Word).toInt| < 2 ^ (23 + 1)) := by decide

theorem witness_Mfc0Results :
    ({ start with mngr2proc := [5#32, 7#32] } : State).mngr2proc = 5#32 :: [7#32] ∧ start.params.version ≠ .parcV1 ∧
      ({ testParams with version := .parcV2 } : Params).version ≠ .parcV1 ∧ start.params.coresInRange ∧
      ({ testParams with coreId := 3#32 } : Params).coresInRange ∧ (2#5 : Reg) ≠ 0#5 ∧
      (∃ t, exec (.mfc0 2 16#5) start = .next t) ∧ ∃ t, exec (.mfc0 2 17#5) start = .next t :=
  ⟨by decide, by decide, by decide, by decide, by decide, by decide, ⟨_, rfl⟩, ⟨_, rfl⟩⟩

theorem witness_Mtc0Results : start.proc2mngrReady = true ∧ start.params.version ≠ .parcV1 := by decide

theorem witness_ManagerStalls :
    start.mngr2proc = [] ∧ nextAct start = none ∧
      fetchInstr (start.withFetchWord 32 0x40020800) = .next (.mfc0 2 1#5) ∧
      ({ start with proc2mngrReady := false } : State).proc2mngrReady = false ∧
      fetchInstr (({ start with proc2mngrReady := false } : State).withFetchWord 32 0x40821000) =
        .next (.mtc0 2 2#5) :=
  ⟨by decide, by decide, rfl, by decide, rfl⟩

/-- Number 2 read, number 1 written, number 14, and cpr21 in PARCv1. -/
theorem witness_UndefinedCp0AccessFaults :
    ((2#5 : Reg) ≠ 1#5 ∧ (2#5 : Reg) ≠ 16#5 ∧ (2#5 : Reg) ≠ 17#5 ∧ (2#5 : Reg) ≠ 21#5) ∧
      ((14#5 : Reg) ≠ 2#5 ∧ (14#5 : Reg) ≠ 21#5) ∧ ((1#5 : Reg) ≠ 2#5 ∧ (1#5 : Reg) ≠ 21#5) ∧
      (({ testParams with version := .parcV1 } : Params).version = .parcV1 ∧ (21#5 : Reg) ≠ 1#5 ∧ (21#5 : Reg) ≠ 2#5) := by
  decide

/-- A state with accelerator 5. -/
def xcelState : State := { start with xcels := [xcel5] }

/-- An accelerator that makes every move wait. -/
def busyXcel : Xcel := { xcel5 with st := { xcel5.st with readWaits := 0xFFFFFFFF#32, writeWaits := 0xFFFFFFFF#32 } }

/-- A state with that accelerator. -/
def busyState : State := { start with xcels := [busyXcel] }

/-- The accelerator of `xcel5` is there and makes no move wait; one of id 4 is not; a busy one makes every move wait. -/
theorem witness_MtxMfxResults :
    (5#32 : Word) = BitVec.ofNat 32 (5#11 : BitVec 11).toNat ∧ xcelFind 5#32 xcelState.xcels = some xcel5.st ∧
      xcelFind 4#32 xcelState.xcels = none ∧ xcel5.st.writeWaits.getLsbD (31#5 : Reg).toNat = false ∧
      xcel5.st.readWaits.getLsbD (0#5 : Reg).toNat = false ∧ xcelFind 5#32 busyState.xcels = some busyXcel.st ∧
      busyXcel.st.writeWaits.getLsbD (31#5 : Reg).toNat = true ∧ busyXcel.st.readWaits.getLsbD (0#5 : Reg).toNat = true := by
  decide

theorem witness_MtxrMfxrResults :
    (5#32 : Word) = (withRegs start [(6, 5#32)]).gpr 6 ∧ xcelFind 5#32 xcelState.xcels = some xcel5.st ∧
      xcelFind 5#32 busyState.xcels = some busyXcel.st ∧ busyXcel.st.writeWaits.getLsbD (31#5 : Reg).toNat = true ∧
      busyXcel.st.readWaits.getLsbD (0#5 : Reg).toNat = true ∧ xcelFind 5#32 start.xcels = none ∧
      xcel5.st.writeWaits.getLsbD (31#5 : Reg).toNat = false ∧ xcel5.st.readWaits.getLsbD (0#5 : Reg).toNat = false := by
  decide

/-- A state with the invariant, and a step from it. -/
theorem witness_StepKeepsInvariant : Inv codeState ∧ ∃ t, step codeState = .next t :=
  ⟨{ pcAligned := by decide
     epcAligned := by decide
     zeroSlot := by decide
     memWf := by decide
     memInRange := by decide
     storedRising := by decide
     storedHold := by decide
     xcelIds := by decide
     coreIds := by decide }, _, rfl⟩

theorem witness_EpcOnlyBySyscall : ∃ t, step (start.withFetchWord 32 0x0C) = .next t := ⟨_, rfl⟩

theorem witness_MemoryOnlyByStores :
    (∃ t, exec (.sw 1 2 8) dataState = .next t) ∧ storeTarget dataState (.sw 1 2 8) = some (.word, 0x2008#32) ∧
      0x2007 ∉ physBytes dataState.params .word 0x2008#32 ∧ 0x200C ∉ physBytes dataState.params .word 0x2008#32 :=
  ⟨⟨_, rfl⟩, by decide, by decide, by decide⟩

theorem witness_OnlyDestinationWritten :
    (∃ t, exec (.jal 0x404) start = .next t) ∧ destinationOf (.jal 0x404) ≠ some (1 : Reg) :=
  ⟨⟨_, rfl⟩, by decide⟩

theorem witness_OthersGoOn :
    (∃ t, exec (.addu 1 2 3) { start with pc := 0xFFFFFFFC#32 } = .next t) ∧ (∃ t, exec (.mfc0 2 1#5) start = .next t) ∧
      MustWait start (.mfc0 2 1#5) := ⟨⟨_, rfl⟩, ⟨_, rfl⟩, .inl ⟨2, rfl, rfl⟩⟩

theorem witness_ManagerWordsInOrder :
    (∃ t, step { start with turns := [.outside (.offer 5#32)] } = .next t) ∧
      (∃ t, step (({ start with mngr2proc := [5#32] } : State).withFetchWord 32 0x40020800) = .next t) ∧
      endsByWords 0 start = true := ⟨⟨_, rfl⟩, ⟨_, rfl⟩, by decide⟩

/-- One instruction that completes, one that faults, one that is refused. -/
theorem witness_StatsEnHasNoEffect :
    (∀ rt, Instr.addu 1 2 3 ≠ .mfc0 rt 21#5) ∧ (∃ t, exec (.addu 1 2 3) start = .next t) ∧
      (∃ f, exec (.lw 0 1 1) start = .fault f) ∧
      ∃ r, exec (.lw 0 1 0) smallState = .refused r :=
  ⟨(fun _ h => by cases h), ⟨_, rfl⟩, ⟨_, rfl⟩, ⟨_, rfl⟩⟩

/-- The first and the second word received. -/
theorem witness_RunEndsAtTheWord :
    (∃ t, step takeState = .next t ∧ endsByWords 1 t = true) ∧ endsByWords 1 takeState = false ∧
      (∃ t, step { takeState with received := [5#32] } = .next t ∧ endsByWords 2 t = true) ∧
      endsByWords 2 { takeState with received := [5#32] } = false :=
  ⟨⟨_, rfl, by decide⟩, by decide, ⟨_, rfl, by decide⟩, by decide⟩

end Sys2Proof.Tests
end

