-- ==== Sys2Proof/Proofs/OthersGoOn.lean ====
section
/-! The next `pc` of every instruction (O57): read off the forms of `Effect`, which say all that an instruction can do. -/

namespace Sys2Proof.Machine

open Sys2Proof

/-- An update that leaves `pc` alone, then `advance`, goes on to `pc + 4` (00_scope R5). -/
theorem GoesOn.advance {s u : State} (hpc : u.pc = s.pc) : GoesOn s u.advance := by
  rw [GoesOn, State.advance_pc, pcPlus4_toNat, hpc]

/-- Each form of `Effect` but a wait ends in `advance`, or is a control instruction's. -/
theorem Effect.goesOn_or_isControl {i : Instr} {s t : State} (he : Effect i s t) (hw : ¬MustWait s i) :
    GoesOn s t ∨ IsControl i := by
  cases he with
  | waits h => exact absurd h hw
  | jumps _ hc => exact .inr hc
  | links _ _ hc => exact .inr hc
  | traps _ _ hi => exact .inr (by simp [IsControl, hi])
  | advances => exact .inl (.advance rfl)
  | writes | dequeues | enqueues | setsStats | stores | updates | toXcel | fromXcel => exact .inl (.advance (by simp))

/-- Settles O57, by cases on whether the instruction must wait: if so it answers the state unchanged, else the form of its
effect decides. -/
theorem othersGoOn : Obligations.OthersGoOn := by
  intro i s t h
  by_cases hw : MustWait s i
  · have hst : s = t := by simpa [exec_of_mustWait hw] using h
    exact .inl ⟨hw, hst.symm⟩
  · exact .inr ⟨hw, (exec_effect h).goesOn_or_isControl hw⟩

end Sys2Proof.Machine
end

