-- ==== Sys2Proof/Proofs/MemoryRules.lean ====
section
/-! `MemRead` and `MemWrite` (O9, O10): an access that is aligned and over placed memory is its body, and the body speaks of
the bytes of `byteOf`. -/

namespace Sys2Proof.Machine

open Sys2Proof

/-- The size of an access that physical memory has room for divides the size of physical memory: both are powers of two. -/
theorem accessSize_dvd {n m : Nat} (hn : n = 1 ∨ n = 2 ∨ n = 4) (hle : n ≤ 2 ^ m) : n ∣ 2 ^ m := by
  obtain ⟨j, rfl⟩ : ∃ j, n = 2 ^ j := by
    rcases hn with rfl | rfl | rfl
    exacts [⟨0, rfl⟩, ⟨1, rfl⟩, ⟨2, rfl⟩]
  exact Nat.pow_dvd_pow 2 ((Nat.pow_le_pow_iff_right (by decide)).1 hle)

/-- `MemRead(a, 4)` of placed bytes that hold values (20_memory R46). -/
theorem loadWord_of_holds {s : State} {a : Word} {b0 b1 b2 b3 : Byte} (ha : a.toNat % 4 = 0) (hp : Placed s.params a 4)
    (h : HoldsWord s a b0 b1 b2 b3) : loadWord a s = .next (BitVec.ofNat 32 (littleEndian [b0, b1, b2, b3])) :=
  loadWord_next.2 ⟨isAligned_iff.2 ha, isBacked_iff.2 hp, h.wordAt⟩

/-- `MemRead(a, 2)` of placed bytes that hold values (20_memory R46). -/
theorem loadHalf_of_holds {s : State} {a : Word} {b0 b1 : Byte} (ha : a.toNat % 2 = 0) (hp : Placed s.params a 2)
    (h0 : HoldsByte s a 0 b0) (h1 : HoldsByte s a 1 b1) :
    loadHalf a s = .next (BitVec.ofNat 16 (littleEndian [b0, b1])) :=
  loadHalf_next.2 ⟨isAligned_iff.2 ha, isBacked_iff.2 hp, halfAt_of_holds h0 h1⟩

/-- `MemRead(a, 1)` of a placed byte that holds a value, at any address (20_memory R46). -/
theorem loadByte_of_holds {s : State} {a : Word} {b : Byte} (hp : Placed s.params a 1) (h : HoldsByte s a 0 b) :
    loadByte a s = .next b :=
  loadByte_next.2 ⟨isBacked_iff.2 hp, h⟩

/-- `MemWrite` at an aligned address over placed memory completes (20_memory R47). -/
theorem store_of_placed {width : Width} {a : Word} {s : State} (v : Word) (ha : a.toNat % widthBytes width = 0)
    (hp : Placed s.params a (widthBytes width)) : store width a v s = .next (s.put width a v) :=
  store_next.2 ⟨isAligned_iff.2 ha, isBacked_iff.2 hp, rfl⟩

/-- Settles O10: the store completes with `put`, whose effect on memory is `MemoryGets.put` and whose frame is `put_frame`. -/
theorem memWriteRule : Obligations.MemWriteRule := by
  intro width a v s ha hp
  obtain ⟨hgprs, hpc, hspecial, houtside⟩ := put_frame s width a v
  exact ⟨s.put width a v, store_of_placed v ha hp, MemoryGets.put s width a v, hgprs, hpc, hspecial, houtside⟩

/-- Settles O9: the bytes of an aligned access that physical memory has room for are consecutive (`byteOf_aligned`), and each
of the three loads answers the number its bytes make. -/
theorem memReadRule : Obligations.MemReadRule := by
  refine ⟨fun p a n k hn hle ha hk => byteOf_aligned (accessSize_dvd hn hle) ha hk, fun s a b0 b1 b2 b3 => ⟨?word, ?half, ?byte⟩⟩
  case word => exact loadWord_of_holds
  case half => exact loadHalf_of_holds
  case byte => exact loadByte_of_holds

end Sys2Proof.Machine
end

