-- ==== Sys2Proof/Proofs/DecoderInverse.lean ====
section
/-! The decoder is the inverse of the encoder (30_encoding R83, R84, R91): a word that decodes is the word of the instruction
it decodes to, and a well-formed instruction is what its word decodes to. So a row of the opcode table is a fact about the
word of its instruction alone. -/

namespace Sys2Proof

/-! ### The word of a decoded instruction, one table of the opcode map at a time -/

theorem encode_of_decodeSpecial {w : Word} {i : Instr} (hop : fieldOp w = 0b000000#6) (h : decodeSpecial w = .ok i) :
    encode i = w := by
  rw [← encodeR_fields w, hop]
  unfold decodeSpecial at h
  split at h
  case h_1 hcmd =>
    obtain ⟨hrs, rfl⟩ := ifFixed_ok.1 h
    split
    case isTrue hzero => simp_all [encode]
    case isFalse => simp_all [encode]
  all_goals simp only [ifFixed_ok, Bool.and_eq_true, beq_iff_eq, reduceCtorEq] at h
  all_goals
    obtain ⟨hfixed, rfl⟩ := h
    simp_all [encode]

theorem encode_of_decodeRegimm {w : Word} {i : Instr} (hop : fieldOp w = 0b000001#6) (h : decodeRegimm w = .ok i) :
    encode i = w := by
  unfold decodeRegimm at h
  split at h
  case h_1 hrt | h_2 hrt => cases h; rw [encode, ← hop, ← hrt, encodeI_fields]
  case h_3 => cases h

theorem encode_of_decodeCop0 {w : Word} {i : Instr} (hop : fieldOp w = 0b010000#6) (h : decodeCop0 w = .ok i) :
    encode i = w := by
  rw [← encodeR_fields w, hop]
  unfold decodeCop0 at h
  split at h <;> simp only [ifFixed_ok, Bool.and_eq_true, beq_iff_eq, reduceCtorEq] at h
  all_goals
    obtain ⟨hfixed, rfl⟩ := h
    simp_all [encode]

theorem encode_of_decodeCompare {w : Word} {i : Instr} (hop : fieldOp w = 0b010001#6) (hfmt : fieldRs w = 0b10000#5)
    (h : decodeCompare w = .ok i) : encode i = w := by
  rw [← encodeR_fields w, hop, hfmt]
  unfold decodeCompare at h
  split at h <;> cases h <;> simp_all [encode]

theorem encode_of_decodeConvert {w : Word} {i : Instr} (hop : fieldOp w = 0b010001#6) (hfmt : fieldRs w = 0b00000#5)
    (h : decodeConvert w = .ok i) : encode i = w := by
  rw [← encodeR_fields w, hop, hfmt]
  unfold decodeConvert at h
  split at h <;> simp only [ifFixed_ok, beq_iff_eq, reduceCtorEq] at h
  all_goals
    obtain ⟨hft, rfl⟩ := h
    simp_all [encode]

theorem encode_of_decodeCop1 {w : Word} {i : Instr} (hop : fieldOp w = 0b010001#6) (h : decodeCop1 w = .ok i) :
    encode i = w := by
  unfold decodeCop1 at h
  split at h
  case h_1 hfmt => exact encode_of_decodeConvert hop hfmt h
  case h_2 hfmt => exact encode_of_decodeCompare hop hfmt h
  case h_3 => cases h

theorem encode_of_decodeCop2 {w : Word} {i : Instr} (hop : fieldOp w = 0b010010#6) (h : decodeCop2 w = .ok i) :
    encode i = w := by
  unfold decodeCop2 at h
  split at h
  case h_1 hmt | h_2 hmt => cases h; rw [encode, ← hop, ← hmt, encodeX_fields]
  case h_3 hmt | h_4 hmt =>
    obtain ⟨hcmd, rfl⟩ := ifFixed_ok.1 h
    rw [encode, ← hop, ← hmt, ← beq_iff_eq.1 hcmd, encodeR_fields]
  case h_5 => cases h

theorem encode_of_decodeSpecial2 {w : Word} {i : Instr} (hop : fieldOp w = 0b011100#6) (h : decodeSpecial2 w = .ok i) :
    encode i = w := by
  unfold decodeSpecial2 at h
  split at h
  case h_1 hcmd =>
    obtain ⟨hsa, rfl⟩ := ifFixed_ok.1 h
    rw [encode, ← hop, ← hcmd, ← beq_iff_eq.1 hsa, encodeR_fields]
  case h_2 => cases h

theorem encode_of_decodeParc {w : Word} {i : Instr} (hop : fieldOp w = 0b100111#6) (h : decodeParc w = .ok i) :
    encode i = w := by
  rw [← encodeR_fields w, hop]
  unfold decodeParc at h
  split at h <;> simp only [ifFixed_ok, beq_iff_eq, reduceCtorEq] at h
  all_goals
    obtain ⟨hsa, rfl⟩ := h
    simp_all [encode]

/-! ### The two directions -/

/-- A word that decodes is the word of the instruction it decodes to: each `op` is a J-Type word, an I-Type word, one of those
with a fixed field, or a table of its own. -/
theorem encode_of_decode {w : Word} {i : Instr} (h : decode w = .ok i) : encode i = w := by
  unfold decode at h
  split at h
  case h_1 hop => exact encode_of_decodeSpecial hop h
  case h_2 hop => exact encode_of_decodeRegimm hop h
  case h_16 hop => exact encode_of_decodeCop0 hop h
  case h_17 hop => exact encode_of_decodeCop1 hop h
  case h_18 hop => exact encode_of_decodeCop2 hop h
  case h_19 hop => exact encode_of_decodeSpecial2 hop h
  case h_25 hop => exact encode_of_decodeParc hop h
  case h_3 hop | h_4 hop => cases h; rw [encode, ← hop, encodeJ_fields]
  case h_7 hop | h_8 hop | h_15 hop =>
    obtain ⟨hfixed, rfl⟩ := ifFixed_ok.1 h
    rw [encode, ← hop, ← beq_iff_eq.1 hfixed, encodeI_fields]
  case h_29 => cases h
  all_goals
    rename_i hop
    cases h
    rw [encode, ← hop, encodeI_fields]

/-- The one ill-formed instruction has the fields of the all-zero word. -/
theorem wellFormed_sll_iff {rt rd sa : Reg} :
    (Instr.sll rt rd sa).wellFormed = true ↔ ¬(rt = 0#5 ∧ rd = 0#5 ∧ sa = 0#5) := by
  simp [Instr.wellFormed, -not_and, not_and_or, or_assoc]

/-- A well-formed instruction is what its word decodes to. -/
theorem decode_encode {i : Instr} (hwf : i.wellFormed = true) : decode (encode i) = .ok i := by
  cases i
  case sll rt rd sa => simp [encode, decode, decodeSpecial, wellFormed_sll_iff.1 hwf]
  all_goals simp [encode, decode, decodeSpecial, decodeRegimm, decodeCop0, decodeCop1, decodeConvert, decodeCompare,
    decodeCop2, decodeSpecial2, decodeParc]

/-- The words that decode to a well-formed instruction: its own, and no other. -/
theorem decode_ok_iff {w : Word} {i : Instr} (hwf : i.wellFormed = true) : decode w = .ok i ↔ encode i = w :=
  ⟨encode_of_decode, fun h => h ▸ decode_encode hwf⟩

/-! ### Words with a row's fixed bits -/

/-- A word of R-Type layout is `w` exactly when its fields are those of `w`. -/
theorem encodeR_eq_iff {w : Word} {op : BitVec 6} {f25 f20 f15 f10 : BitVec 5} {cmd : BitVec 6} :
    encodeR op f25 f20 f15 f10 cmd = w ↔
      op = fieldOp w ∧ f25 = fieldRs w ∧ f20 = fieldRt w ∧ f15 = fieldRd w ∧ f10 = fieldSa w ∧ cmd = fieldCmd w := by
  conv_lhs => rw [← encodeR_fields w, encodeR_inj]

/-- The words of a three-register row: `op`, `sa` = 0 and `cmd` are fixed (30_encoding R71). -/
theorem encodeR_zero_sa_eq_iff (op cmd : BitVec 6) (w : Word) :
    encodeR op (fieldRs w) (fieldRt w) (fieldRd w) 0#5 cmd = w ↔
      w &&& 0xFC0007FF#32 = encodeR op 0#5 0#5 0#5 0#5 cmd := by
  have hmask : 0xFC0007FF#32 = encodeR 63#6 0#5 0#5 0#5 31#5 63#6 := rfl
  rw [encodeR_eq_iff, hmask, and_eq_encodeR]
  simp [eq_comm]

/-- The words of a constant-shift row: `op`, `rs` = 0 and `cmd` are fixed (30_encoding R71, R79). -/
theorem encodeR_zero_rs_eq_iff (op cmd : BitVec 6) (w : Word) :
    encodeR op 0#5 (fieldRt w) (fieldRd w) (fieldSa w) cmd = w ↔
      w &&& 0xFFE0003F#32 = encodeR op 0#5 0#5 0#5 0#5 cmd := by
  have hmask : 0xFFE0003F#32 = encodeR 63#6 31#5 0#5 0#5 0#5 63#6 := rfl
  rw [encodeR_eq_iff, hmask, and_eq_encodeR]
  simp [eq_comm]

end Sys2Proof

namespace Sys2Proof.Machine

open Sys2Proof

/-- A row of well-formed instructions: the words with its fixed bits are those that its instruction encodes. -/
theorem IsRow.of_encode {mask pattern : Word} {v : Version} {i : Word → Instr} (hwf : ∀ w, (i w).wellFormed = true)
    (hver : ∀ w, (i w).version = v) (hrow : ∀ w, encode (i w) = w ↔ w &&& mask = pattern) : IsRow mask pattern v i :=
  fun w => ⟨(decode_ok_iff (hwf w)).trans (hrow w), hver w⟩

end Sys2Proof.Machine
end

