-- ==== Sys2Proof/Proofs/RegRegArith.lean ====
section
/-! Register-register arithmetic and the logical shifts (O20, O21, O23): each ends in `writeBack`, so what is left is its row
and the value it writes, as a number or bit by bit. -/

namespace Sys2Proof.Machine

open Sys2Proof

/-- An instruction that ends in `writeBack` completes and writes its destination, with the value in any other spelling. -/
theorem completes_of_writeBack {i : Instr} {s : State} {d : Reg} {v v' : Word} (h : exec i s = writeBack d v s)
    (hv : v = v') : ∃ t, exec i s = .next t ∧ Writes s t d v' :=
  ⟨(s.setGpr d v).advance, h, hv ▸ .writeBack s d v⟩

/-! ### Sum and difference -/

theorem sub_eq_ofInt (x y : Word) : x - y = BitVec.ofInt 32 (x.toNat - y.toNat) := by
  rw [Int.sub_eq_add_neg, BitVec.ofInt_add, BitVec.ofInt_neg]
  simp [BitVec.sub_eq_add_neg]

/-- Settles O20: the two rows, and `writeBack` of the sum and of the difference. -/
theorem adduSubuResults : Obligations.AdduSubuResults := by
  refine ⟨.of_encode (fun _ => rfl) (fun _ => rfl) (encodeR_zero_sa_eq_iff 0b000000#6 0b100001#6),
    .of_encode (fun _ => rfl) (fun _ => rfl) (encodeR_zero_sa_eq_iff 0b000000#6 0b100011#6),
    fun rs rt rd s => ⟨?addu, ?subu⟩⟩
  case addu => exact completes_of_writeBack rfl (BitVec.add_def ..)
  case subu => exact completes_of_writeBack rfl (sub_eq_ofInt ..)

/-! ### Bitwise logic -/

/-- Settles O21: the four rows, and what each bit of the written word is. -/
theorem bitwiseResults : Obligations.BitwiseResults := by
  refine ⟨.of_encode (fun _ => rfl) (fun _ => rfl) (encodeR_zero_sa_eq_iff 0b000000#6 0b100100#6),
    .of_encode (fun _ => rfl) (fun _ => rfl) (encodeR_zero_sa_eq_iff 0b000000#6 0b100101#6),
    .of_encode (fun _ => rfl) (fun _ => rfl) (encodeR_zero_sa_eq_iff 0b000000#6 0b100110#6),
    .of_encode (fun _ => rfl) (fun _ => rfl) (encodeR_zero_sa_eq_iff 0b000000#6 0b100111#6),
    fun rs rt rd s => ⟨?and, ?or, ?xor, ?nor⟩⟩
  case and => exact ⟨_, _, rfl, .writeBack .., fun k _ => BitVec.getLsbD_and⟩
  case or => exact ⟨_, _, rfl, .writeBack .., fun k _ => BitVec.getLsbD_or⟩
  case xor => exact ⟨_, _, rfl, .writeBack .., fun k _ => BitVec.getLsbD_xor⟩
  case nor => exact ⟨_, _, rfl, .writeBack .., fun k hk => by simp [hk]⟩

/-! ### Logical shifts -/

/-- Only the low five bits of a register count as a shift amount (30_encoding R79). -/
theorem shiftAmount_eq (v : Word) : shiftAmount v = v.toNat % 32 := by
  simp [shiftAmount]

theorem ushiftRight_eq_ofNat (v : Word) (k : Nat) : v >>> k = BitVec.ofNat 32 (v.toNat / 2 ^ k) := by
  rw [← Nat.shiftRight_eq_div_pow, ← BitVec.toNat_ushiftRight, BitVec.ofNat_toNat, BitVec.setWidth_eq]

theorem shiftLeft_eq_ofNat (v : Word) (k : Nat) : v <<< k = BitVec.ofNat 32 (v.toNat * 2 ^ k) := by
  apply BitVec.eq_of_toNat_eq
  rw [BitVec.toNat_shiftLeft, BitVec.toNat_ofNat, Nat.shiftLeft_eq]

/-- The row of `sll`, less the all-zero word: a word with the row's bits that is not zero is a well-formed `sll`'s. -/
theorem decode_sll_iff {w : Word} (hw : w ≠ 0#32) :
    decode w = .ok (.sll (fieldRt w) (fieldRd w) (fieldSa w)) ↔ w &&& 0xFFE0003F#32 = 0x00000000#32 := by
  have hrow : encode (.sll (fieldRt w) (fieldRd w) (fieldSa w)) = w ↔ w &&& 0xFFE0003F#32 = 0x00000000#32 :=
    encodeR_zero_rs_eq_iff 0b000000#6 0b000000#6 w
  refine ⟨fun h => hrow.1 (encode_of_decode h), fun h => ?_⟩
  have henc := hrow.2 h
  refine (decode_ok_iff (wellFormed_sll_iff.2 ?_)).2 henc
  rintro ⟨hrt, hrd, hsa⟩
  rw [hrt, hrd, hsa] at henc
  exact hw henc.symm

/-- `sll r0, r0, 0` writes nothing, as `nop` does (43_reg_imm_arith R151). -/
theorem exec_nop_eq_sll (s : State) : exec .nop s = exec (.sll 0 0 0) s := by
  have hsll : exec (.sll 0 0 0) s = .next (s.setGpr 0#5 (s.gpr 0 <<< 0)).advance := rfl
  rw [hsll, State.setGpr_zero]
  rfl

/-- Settles O23: the rows, the name of the all-zero word, and `writeBack` of each shifted word. -/
theorem logicalShiftResults : Obligations.LogicalShiftResults := by
  refine ⟨.of_encode (fun _ => rfl) (fun _ => rfl) (encodeR_zero_sa_eq_iff 0b000000#6 0b000110#6),
    .of_encode (fun _ => rfl) (fun _ => rfl) (encodeR_zero_sa_eq_iff 0b000000#6 0b000100#6),
    .of_encode (fun _ => rfl) (fun _ => rfl) (encodeR_zero_rs_eq_iff 0b000000#6 0b000010#6),
    fun _ => decode_sll_iff, fun _ _ _ => rfl, decode_encode (i := .nop) rfl, exec_nop_eq_sll,
    fun rs rt rd sa s => ⟨?srlv, ?sllv, ?srl, ?sll⟩⟩
  case srlv => exact completes_of_writeBack rfl (shiftAmount_eq (s.gpr rs) ▸ ushiftRight_eq_ofNat ..)
  case sllv => exact completes_of_writeBack rfl (shiftAmount_eq (s.gpr rs) ▸ shiftLeft_eq_ofNat ..)
  case srl => exact completes_of_writeBack rfl (ushiftRight_eq_ofNat ..)
  case sll => exact completes_of_writeBack rfl (shiftLeft_eq_ofNat ..)

end Sys2Proof.Machine
end

