-- ==== Sys2Proof/Proofs/MulDiv.lean ====
section
/-! Multiplication (O25): `mul` ends in `writeBack`, so what is left is its row and that the product of the signed operands and
the product of the unsigned ones are one word. -/

namespace Sys2Proof.Machine

open Sys2Proof

/-- Modulo 2^32 the product does not depend on the reading of the operands as signed or unsigned: either way it is the product
of the two words. -/
theorem ofInt_mul_toInt_eq_ofNat (x y : Word) :
    BitVec.ofInt 32 (x.toInt * y.toInt) = BitVec.ofNat 32 (x.toNat * y.toNat) :=
  calc BitVec.ofInt 32 (x.toInt * y.toInt)
    _ = x * y := by rw [BitVec.ofInt_mul, BitVec.ofInt_toInt, BitVec.ofInt_toInt]
    _ = BitVec.ofNat 32 (x.toNat * y.toNat) := BitVec.mul_def ..

/-- Settles O25: the row, and `writeBack` of the signed product, which is the unsigned one. -/
theorem mulResult : Obligations.MulResult := by
  refine ⟨.of_encode (fun _ => rfl) (fun _ => rfl) (encodeR_zero_sa_eq_iff 0b011100#6 0b000010#6), fun rs rt rd s => ?_⟩
  obtain ⟨t, hexec, hsigned⟩ : ∃ t, exec (.mul rs rt rd) s = .next t ∧
      Writes s t rd (BitVec.ofInt 32 ((s.gpr rs).toInt * (s.gpr rt).toInt)) := completes_of_writeBack rfl rfl
  exact ⟨t, hexec, hsigned, ofInt_mul_toInt_eq_ofNat (s.gpr rs) (s.gpr rt) ▸ hsigned⟩

end Sys2Proof.Machine
end

