-- ==== Sys2Proof/Proofs/RegImmArith.lean ====
section
/-! Register-immediate arithmetic (O29, O30): each instruction ends in `writeBack`, so what is left is its row and the value it
writes, which the extension of its immediate decides. -/

namespace Sys2Proof

/-! ### Rows of I-Type words -/

/-- A word of I-Type layout is `w` exactly when its fields are those of `w`. -/
theorem encodeI_eq_iff {w : Word} {op : BitVec 6} {rs rt : BitVec 5} {imm : BitVec 16} :
    encodeI op rs rt imm = w ↔ op = fieldOp w ∧ rs = fieldRs w ∧ rt = fieldRt w ∧ imm = fieldImm w := by
  conv_lhs => rw [← encodeI_fields w, encodeI_inj]

/-- The words of a register-immediate row: only `op` is fixed (30_encoding R72). -/
theorem encodeI_op_eq_iff (op : BitVec 6) (w : Word) :
    encodeI op (fieldRs w) (fieldRt w) (fieldImm w) = w ↔ w &&& 0xFC000000#32 = encodeI op 0#5 0#5 0#16 := by
  have hmask : 0xFC000000#32 = encodeI 63#6 0#5 0#5 0#16 := rfl
  rw [encodeI_eq_iff, hmask, and_eq_encodeI]
  simp [eq_comm]

/-- The words of a row without a source register: `op` and `rs` = 0 are fixed (30_encoding R72). -/
theorem encodeI_zero_rs_eq_iff (op : BitVec 6) (w : Word) :
    encodeI op 0#5 (fieldRt w) (fieldImm w) = w ↔ w &&& 0xFFE00000#32 = encodeI op 0#5 0#5 0#16 := by
  have hmask : 0xFFE00000#32 = encodeI 63#6 31#5 0#5 0#16 := rfl
  rw [encodeI_eq_iff, hmask, and_eq_encodeI]
  simp [eq_comm]

/-- A word whose fixed field is wrong is no instruction (30_encoding R91). -/
@[simp] theorem ifFixed_false (i : Instr) : ifFixed false i = .error .fixedBits := rfl

/-- A word with the `op` of `lui` and `rs` not 00000 is no instruction (43_reg_imm_arith R141). -/
theorem decode_lui_of_rs_ne_zero {w : Word} (hop : fieldOp w = 0b001111#6) (hrs : fieldRs w ≠ 0#5) :
    decode w = .error .fixedBits := by
  simp only [decode, hop, beq_eq_false_iff_ne.2 hrs, ifFixed_false]

end Sys2Proof

namespace Sys2Proof.Machine

open Sys2Proof

/-! ### `addiu` and `lui` -/

/-- Adding `sext_32(imm)` adds the signed immediate, modulo 2^32 (30_encoding R78). -/
theorem add_sextImm_eq_ofInt (v : Word) (imm : BitVec 16) : v + sextImm imm = BitVec.ofInt 32 (v.toNat + imm.toInt) := by
  have hsext : sextImm imm = BitVec.ofInt 32 imm.toInt := rfl
  rw [hsext, BitVec.ofInt_add, BitVec.ofInt_natCast, BitVec.ofNat_toNat, BitVec.setWidth_eq]

/-- The immediate over 16 zeros is the immediate times 2^16 (30_encoding R78). -/
theorem upperImm_eq_ofNat (imm : BitVec 16) : upperImm imm = BitVec.ofNat 32 (imm.toNat * 2 ^ 16) := by
  apply BitVec.eq_of_toNat_eq
  have hlt : imm.toNat * 2 ^ 16 < 2 ^ 32 := by omega
  rw [upperImm, BitVec.toNat_append, BitVec.toNat_zero, Nat.or_zero, Nat.shiftLeft_eq, BitVec.toNat_ofNat,
    Nat.mod_eq_of_lt hlt]

/-- Settles O29: the two rows, the words that `lui`'s fixed `rs` leaves undefined, and `writeBack` of the two words. -/
theorem addiuLuiResults : Obligations.AddiuLuiResults := by
  refine ⟨.of_encode (fun _ => rfl) (fun _ => rfl) (encodeI_op_eq_iff 0b001001#6),
    .of_encode (fun _ => rfl) (fun _ => rfl) (encodeI_zero_rs_eq_iff 0b001111#6),
    fun _ hop hrs => ⟨_, decode_lui_of_rs_ne_zero hop hrs⟩, fun rs rt imm s => ⟨?addiu, ?lui⟩⟩
  case addiu => exact completes_of_writeBack rfl (add_sextImm_eq_ofInt ..)
  case lui => exact completes_of_writeBack rfl (upperImm_eq_ofNat imm)

/-! ### Bitwise logic with an immediate -/

/-- The bits of `zext_32(imm)`: those of the immediate, then zeros whatever `imm[15]` is (30_encoding R78). -/
theorem zextImm_getLsbD {imm : BitVec 16} {k : Nat} (hk : k < 32) :
    (zextImm imm).getLsbD k = if k < 16 then imm.getLsbD k else false := by
  rw [zextImm, BitVec.getLsbD_setWidth]
  split
  case isTrue => simp [hk]
  case isFalse hhigh => simp [BitVec.getLsbD_of_ge imm k (not_lt.1 hhigh)]

/-- Settles O30: the three rows, and what each bit of the written word is; the upper half meets zeros, which `or` and `xor` pass
and `and` clears. -/
theorem logicalImmediateResults : Obligations.LogicalImmediateResults := by
  refine ⟨.of_encode (fun _ => rfl) (fun _ => rfl) (encodeI_op_eq_iff 0b001101#6),
    .of_encode (fun _ => rfl) (fun _ => rfl) (encodeI_op_eq_iff 0b001100#6),
    .of_encode (fun _ => rfl) (fun _ => rfl) (encodeI_op_eq_iff 0b001110#6),
    fun rs rt imm s => ⟨?ori, ?andi, ?xori⟩⟩
  case ori => exact ⟨_, _, rfl, .writeBack .., fun k hk => by
    rw [BitVec.getLsbD_or, zextImm_getLsbD hk, apply_ite (_ || ·), Bool.or_false]⟩
  case andi => exact ⟨_, _, rfl, .writeBack .., fun k hk => by
    rw [BitVec.getLsbD_and, zextImm_getLsbD hk, apply_ite (_ && ·), Bool.and_false]⟩
  case xori => exact ⟨_, _, rfl, .writeBack .., fun k hk => by
    rw [BitVec.getLsbD_xor, zextImm_getLsbD hk, apply_ite (_ ^^ ·), Bool.xor_false]⟩

end Sys2Proof.Machine
end

