-- ==== Sys2Proof/Proofs/Jumps.lean ====
section
/-! Jumps to a target field (O31): each instruction answers one state, so what is left is its row, the target as a number, and
what that state keeps. -/

namespace Sys2Proof

/-! ### Rows of J-Type words -/

/-- A word of J-Type layout is `w` exactly when its fields are those of `w`. -/
theorem encodeJ_eq_iff {w : Word} {op : BitVec 6} {target : BitVec 26} :
    encodeJ op target = w ↔ op = fieldOp w ∧ target = fieldTarget w := by
  conv_lhs => rw [← encodeJ_fields w, encodeJ_inj]

/-- The words of a jump's row: only `op` is fixed (30_encoding R73). -/
theorem encodeJ_op_eq_iff (op : BitVec 6) (w : Word) :
    encodeJ op (fieldTarget w) = w ↔ w &&& 0xFC000000#32 = encodeJ op 0#26 := by
  have hmask : 0xFC000000#32 = encodeJ 63#6 0#26 := rfl
  rw [encodeJ_eq_iff, hmask, and_eq_encodeJ]
  simp [eq_comm]

end Sys2Proof

namespace Sys2Proof.Machine

open Sys2Proof

/-! ### The target -/

/-- The top four bits of a word, as a number. -/
theorem extractTop4_toNat (v : Word) : (v.extractLsb' 28 4).toNat = v.toNat / 2 ^ 28 := by
  have hlt : v.toNat / 2 ^ 28 < 2 ^ 4 := by omega
  rw [BitVec.extractLsb'_toNat, Nat.shiftRight_eq_div_pow, Nat.mod_eq_of_lt hlt]

/-- The jump target as a number: the top four bits of `pc + 4`, then the field times 4 (45_jumps R181). -/
theorem jumpTarget_toNat (target : BitVec 26) (s : State) :
    (jumpTarget target s).toNat = (s.pc.toNat + 4) % 2 ^ 32 / 2 ^ 28 * 2 ^ 28 + target.toNat * 4 := by
  have htarget := target.isLt
  change (s.pcPlus4.extractLsb' 28 4 ++ target ++ 0#2 : BitVec (4 + 26 + 2)).toNat = _
  rw [BitVec.toNat_append, BitVec.toNat_append, extractTop4_toNat, pcPlus4_toNat, BitVec.toNat_zero, Nat.or_zero,
    ← Nat.shiftLeft_add_eq_or_of_lt htarget, Nat.shiftLeft_eq, Nat.shiftLeft_eq]
  omega

/-- The jump target is the word of that number. -/
theorem jumpTarget_eq_ofNat (target : BitVec 26) (s : State) :
    jumpTarget target s = BitVec.ofNat 32 ((s.pc.toNat + 4) % 2 ^ 32 / 2 ^ 28 * 2 ^ 28 + target.toNat * 4) := by
  rw [← jumpTarget_toNat, BitVec.ofNat_toNat, BitVec.setWidth_eq]

/-! ### The link -/

/-- A jump that links completes: `pc + 4` goes to a register, the target to `pc`, and nothing else changes (45_jumps R183,
R184). -/
theorem completes_of_link {i : Instr} {s : State} {d : Reg} {target : Word}
    (h : exec i s = .next ((s.setGpr d s.pcPlus4).setPc target)) :
    ∃ t, exec i s = .next t ∧ t.pc = target ∧ GprBecomes s t d (BitVec.ofNat 32 (s.pc.toNat + 4)) ∧ SameSpecial s t ∧
      SameMemory s t ∧ SameOutside s t :=
  ⟨_, h, rfl, pcPlus4_eq s ▸ GprBecomes.setGpr s d s.pcPlus4, ⟨rfl, rfl, rfl, rfl, rfl, rfl⟩, ⟨fun _ => rfl, rfl⟩,
    ⟨rfl, rfl, rfl⟩⟩

/-- Settles O31: the two rows, and the state that each jump answers, its target as a number by `jumpTarget_eq_ofNat`. -/
theorem jAndJalResults : Obligations.JAndJalResults := by
  refine ⟨.of_encode (fun _ => rfl) (fun _ => rfl) (encodeJ_op_eq_iff 0b000010#6),
    .of_encode (fun _ => rfl) (fun _ => rfl) (encodeJ_op_eq_iff 0b000011#6), fun target s dest hdest => ?_⟩
  obtain rfl : dest = jumpTarget target s := hdest.trans (jumpTarget_eq_ofNat target s).symm
  refine ⟨?j, ?jal⟩
  case j => exact ⟨s.setPc (jumpTarget target s), rfl, .setPc ..⟩
  case jal => exact completes_of_link rfl

end Sys2Proof.Machine
end

