-- ==== Sys2Proof/Proofs/Branches.lean ====
section
/-! Conditional branches (O33): each is `branchIf` of its condition, so what is left is its row, the condition as a proposition,
and the target as a number. -/

namespace Sys2Proof

/-! ### Rows of branches on one register -/

/-- The words of a row without a second register: `op` and `rt` are fixed (30_encoding R72). -/
theorem encodeI_fixed_rt_eq_iff (op : BitVec 6) (rt : BitVec 5) (w : Word) :
    encodeI op (fieldRs w) rt (fieldImm w) = w ↔ w &&& 0xFC1F0000#32 = encodeI op 0#5 rt 0#16 := by
  have hmask : 0xFC1F0000#32 = encodeI 63#6 0#5 31#5 0#16 := rfl
  rw [encodeI_eq_iff, hmask, and_eq_encodeI]
  simp [eq_comm]

/-- A word with the `op` of `bgtz` and `rt` not 00000 is no instruction (46_branches R193). -/
theorem decode_bgtz_of_rt_ne_zero {w : Word} (hop : fieldOp w = 0b000111#6) (hrt : fieldRt w ≠ 0#5) :
    decode w = .error .fixedBits := by
  simp only [decode, hop, beq_eq_false_iff_ne.2 hrt, ifFixed_false]

end Sys2Proof

namespace Sys2Proof.Machine

open Sys2Proof

/-! ### The target -/

/-- The branch offset is the word of four times the signed immediate (46_branches R190). -/
theorem branchOffset_eq_ofInt (imm : BitVec 16) : branchOffset imm = BitVec.ofInt 32 (imm.toInt * 4) := by
  have hsext : sextImm imm = BitVec.ofInt 32 imm.toInt := rfl
  have hfour : BitVec.twoPow 32 2 = BitVec.ofInt 32 4 := rfl
  rw [branchOffset, BitVec.shiftLeft_eq_mul_twoPow, hsext, hfour, BitVec.ofInt_mul]

/-- The branch target is the word of `pc + 4 + 4 * imm`, the immediate signed (46_branches R190). -/
theorem branchTarget_eq_ofInt (imm : BitVec 16) (s : State) :
    branchTarget imm s = BitVec.ofInt 32 (s.pc.toNat + 4 + imm.toInt * 4) :=
  calc branchTarget imm s
    _ = BitVec.ofNat 32 (s.pc.toNat + 4) + BitVec.ofInt 32 (imm.toInt * 4) := by
      rw [branchTarget, pcPlus4_eq, branchOffset_eq_ofInt]
    _ = BitVec.ofInt 32 (s.pc.toNat + 4 + imm.toInt * 4) := by
      rw [BitVec.ofInt_add, ← BitVec.ofInt_natCast, Int.natCast_add, Nat.cast_ofNat]

/-! ### The two outcomes -/

/-- A branch completes: `pc` becomes the target where its condition holds, else `pc + 4`, and nothing else changes. -/
theorem completes_of_branchIf {i : Instr} {s : State} {taken : Bool} {imm : BitVec 16} {P : Prop} [Decidable P]
    (h : exec i s = branchIf taken imm s) (htaken : taken = true ↔ P) :
    ∃ t, exec i s = .next t ∧ OnlyPc s t (if P then branchTarget imm s else s.pcPlus4) :=
  ⟨_, h.trans (branchIf_eq taken imm s), by simpa only [htaken] using OnlyPc.setPc s _⟩

/-- Settles O33: the three rows, the words that `bgtz`'s fixed `rt` leaves undefined, and `branchIf` of each condition, whose two
outcomes are the numbers of `branchTarget_eq_ofInt` and `pcPlus4_eq`. -/
theorem beqBneBgtzResults : Obligations.BeqBneBgtzResults := by
  refine ⟨.of_encode (fun _ => rfl) (fun _ => rfl) (encodeI_op_eq_iff 0b000100#6),
    .of_encode (fun _ => rfl) (fun _ => rfl) (encodeI_op_eq_iff 0b000101#6),
    .of_encode (fun _ => rfl) (fun _ => rfl) (encodeI_fixed_rt_eq_iff 0b000111#6 0b00000#5),
    fun _ hop hrt => ⟨_, decode_bgtz_of_rt_ne_zero hop hrt⟩, fun rs rt imm s target next htarget hnext => ?_⟩
  obtain rfl : target = branchTarget imm s := htarget.trans (branchTarget_eq_ofInt imm s).symm
  obtain rfl : next = s.pcPlus4 := hnext.trans (pcPlus4_eq s).symm
  refine ⟨?beq, ?bne, ?bgtz⟩
  case beq => exact completes_of_branchIf rfl beq_iff_eq
  case bne => exact completes_of_branchIf rfl bne_iff_ne
  case bgtz => exact completes_of_branchIf rfl decide_eq_true_iff

end Sys2Proof.Machine
end

