-- ==== Sys2Proof/Proofs/EncodingRoundTrip.lean ====
section
/-! Decoding and encoding agree in both directions (O1, O2, O3), and what each version of the ISA decodes (O4). Both directions
are the two facts of the decoder's inverse, `decode_encode` and `encode_of_decode`, with the four bytes of a word on one side
and the one ill-formed instruction on the other. -/

namespace Sys2Proof

/-! ### The bytes of a word -/

/-- Four bytes decode as the word they make does, and what follows them stays. -/
theorem decodeBytes_of_decode {b0 b1 b2 b3 : Byte} {i : Instr} (h : decode (wordOfBytes b0 b1 b2 b3) = .ok i)
    (rest : List Byte) : decodeBytes (b0 :: b1 :: b2 :: b3 :: rest) = .ok (i, rest) := by
  simp only [decodeBytes, h]

/-- The bytes of a well-formed instruction decode to it (20_memory R41). -/
theorem decodeBytes_encodeBytes {i : Instr} (hwf : i.wellFormed = true) (rest : List Byte) :
    decodeBytes (encodeBytes i ++ rest) = .ok (i, rest) :=
  decodeBytes_of_decode (by rw [Machine.wordOfBytes_byteOfWord, decode_encode hwf]) rest

/-! ### What the decoder answers is well formed -/

/-- The decoder never answers `sll r0, r0, 0`: its word is the all-zero word, which decodes to `nop` (30_encoding R96). -/
theorem wellFormed_of_decode {w : Word} {i : Instr} (h : decode w = .ok i) : i.wellFormed = true := by
  cases i
  case sll rt rd sa =>
    refine wellFormed_sll_iff.2 ?_
    rintro ⟨rfl, rfl, rfl⟩
    have hw : w = encode .nop := (encode_of_decode h).symm
    rw [hw, decode_encode rfl] at h
    cases h
  all_goals rfl

/-! ### The versions -/

/-- PARCv1 has the instructions that first appear in it. -/
theorem Version.le_parcV1 {v : Version} : v.le .parcV1 = true ↔ v = .parcV1 := by
  cases v <;> simp [Version.le]

/-- Every version but the first has what PARCv2 adds. -/
theorem Version.parcV2_le {v : Version} : Version.le .parcV2 v = true ↔ v ≠ .parcV1 := by
  cases v <;> simp [Version.le]

/-- Only the last version has what PARCv3 adds. -/
theorem Version.parcV3_le {v : Version} : Version.le .parcV3 v = true ↔ v = .parcV3 := by
  cases v <;> simp [Version.le]

/-- A version that is at or before an earlier one is at or before the later one (00_scope R1). -/
theorem Version.le_trans {a b c : Version} (hab : a.le b = true) (hbc : b.le c = true) : a.le c = true := by
  cases a with
  | parcV1 => rfl
  | parcV2 =>
    rw [Version.parcV2_le] at hab ⊢
    rintro rfl
    exact hab (Version.le_parcV1.1 hbc)
  | parcV3 =>
    obtain rfl := Version.parcV3_le.1 hab
    exact hbc

/-- The instructions that 00_scope R1 lists for PARCv1. -/
theorem version_eq_parcV1_iff {i : Instr} :
    i.version = .parcV1 ↔
      (∃ rs rt rd, i = .addu rs rt rd) ∨ (∃ rs rt imm, i = .addiu rs rt imm) ∨ (∃ rs rt rd, i = .mul rs rt rd) ∨
        i = .nop ∨ (∃ rs rt imm, i = .lw rs rt imm) ∨ (∃ rs rt imm, i = .sw rs rt imm) ∨ (∃ a, i = .j a) ∨
        (∃ a, i = .jal a) ∨ (∃ rs, i = .jr rs) ∨ (∃ rs rt imm, i = .bne rs rt imm) ∨ (∃ rt rd, i = .mfc0 rt rd) ∨
        (∃ rt rd, i = .mtc0 rt rd) := by
  cases i <;> simp [Instr.version]

/-- None of the PARCv1 instructions rests on general knowledge, so every launch admits their rows (30_encoding R84, D14). -/
theorem admitsRow_of_version_eq_parcV1 {i : Instr} (p : Params) (h : i.version = .parcV1) : p.admitsRow i = true := by
  rcases version_eq_parcV1_iff.1 h with ⟨_, _, _, rfl⟩ | ⟨_, _, _, rfl⟩ | ⟨_, _, _, rfl⟩ | rfl | ⟨_, _, _, rfl⟩ |
    ⟨_, _, _, rfl⟩ | ⟨_, rfl⟩ | ⟨_, rfl⟩ | ⟨_, rfl⟩ | ⟨_, _, _, rfl⟩ | ⟨_, _, rfl⟩ | ⟨_, _, rfl⟩ <;> rfl

/-- A launch of a later version has what a launch of an earlier one has. -/
theorem decodeFor_of_version_le {p : Params} {v : Version} {w : Word} {i : Instr} (hle : p.version.le v = true)
    (h : decodeFor p w = .ok i) : decodeFor { p with version := v } w = .ok i := by
  obtain ⟨hdecode, hversion, hrow⟩ := decodeFor_ok.1 h
  exact decodeFor_ok.2 ⟨hdecode, Version.le_trans hversion hle, hrow⟩

/-- In a PARCv1 launch the decoder keeps the instructions that first appear in PARCv1. -/
theorem decodeFor_parcV1_iff {p : Params} {w : Word} {i : Instr} (hp : p.version = .parcV1) (h : decode w = .ok i) :
    decodeFor p w = .ok i ↔ i.version = .parcV1 := by
  have hversion : p.hasVersion i = true ↔ i.version = .parcV1 := by rw [Params.hasVersion, hp, Version.le_parcV1]
  rw [decodeFor_ok, hversion]
  exact ⟨fun ⟨_, hv, _⟩ => hv, fun hv => ⟨h, hv, admitsRow_of_version_eq_parcV1 p hv⟩⟩

/-! ### The obligations -/

/-- Settles O1: the decoder inverts the encoder on words, and the four bytes of a word make the word. -/
theorem decodeEncodeAgree : Obligations.DecodeEncodeAgree :=
  fun _ rest hwf => ⟨decode_encode hwf, decodeBytes_encodeBytes hwf rest⟩

/-- Settles O2: the encoder inverts the decoder, which never answers the one ill-formed instruction. -/
theorem encodeDecodeAgree : Obligations.EncodeDecodeAgree :=
  fun _ _ h => ⟨encode_of_decode h, wellFormed_of_decode h⟩

/-- Settles O3: each of the eight words is the encoding of the instruction beside it, so it decodes to it. -/
theorem sampleWordsDecode : Obligations.SampleWordsDecode :=
  ⟨decode_encode (i := .addu 1 2 3) rfl, decode_encode (i := .addiu 1 2 0xFFFF) rfl, decode_encode (i := .j 0x404) rfl,
    decode_encode (i := .cvtWS 1 3) rfl, decode_encode (i := .cLtS 1 2 3) rfl, decode_encode (i := .mfx 1 2 5) rfl,
    decode_encode (i := .mtc0 3 0) rfl, decode_encode (i := .div 1 2 3) rfl⟩

/-- Settles O4: the versions are ordered, and a PARCv1 launch keeps what first appears in PARCv1. -/
theorem versionsAreNested : Obligations.VersionsAreNested :=
  ⟨fun _ _ _ _ hle h => decodeFor_of_version_le hle h,
    fun _ _ _ hp h => (decodeFor_parcV1_iff hp h).trans version_eq_parcV1_iff⟩

end Sys2Proof
end

