-- ==== Sys2Proof/Proofs/StepInvariant.lean ====
section
/-! The machine's invariant (O52, O53): it holds at reset, each update of the state keeps it, and `Effect` and `applyInput`
say which updates a step makes. -/

namespace Sys2Proof.Machine

open Sys2Proof

/-! ### Updates that keep the invariant -/

/-- What the invariant says of memory: canonical form, inside the physical memory, and the stored-to addresses rising and
holding values (20_memory R44, R60). -/
structure MemInv (s : State) : Prop where
  memWf : Memory.wf s.mem
  memInRange : ∀ c ∈ s.mem, c.1 < 2 ^ paBits s.params
  storedRising : s.storedTo.Pairwise (· < ·)
  storedHold : ∀ n ∈ s.storedTo, (Memory.read n s.mem).isSome

theorem Inv.memInv {s : State} (h : Inv s) : MemInv s := ⟨h.memWf, h.memInRange, h.storedRising, h.storedHold⟩

/-- The physical addresses of an access are inside the physical memory (20_memory R44). -/
theorem physBytes_lt {p : Params} {width : Width} {a : Word} {n : Nat} (h : n ∈ physBytes p width a) :
    n < 2 ^ paBits p := by
  obtain ⟨k, -, rfl⟩ := mem_physBytes.1 h
  exact byteOf_lt p a k

/-- A store keeps what the invariant says of memory. -/
theorem MemInv.put {s : State} (h : MemInv s) (width : Width) (a v : Word) : MemInv (s.put width a v) where
  memWf := State.put_mem_wf h.memWf width a v
  memInRange c hc := by
    rw [State.put_params]
    rcases State.put_address hc with hnew | hold
    · exact physBytes_lt hnew
    · exact h.memInRange c hold
  storedRising := State.put_storedTo_rising h.storedRising width a v
  storedHold n hn := by
    rcases (State.mem_put_storedTo s width a v n).1 hn with hnew | hold
    · exact State.put_holds_stored hnew
    · exact State.put_holds (h.storedHold n hold)

/-- An update that keeps every field the invariant reads keeps the invariant. -/
theorem Inv.of_same {s t : State} (h : Inv s) (hpc : t.pc.toNat % 4 = 0) (hepc : t.epc = s.epc)
    (hslot : t.regs[0] = s.regs[0]) (hmem : t.mem = s.mem) (hstored : t.storedTo = s.storedTo)
    (hids : t.xcels.map (·.id) = s.xcels.map (·.id)) (hparams : t.params = s.params) : Inv t where
  pcAligned := hpc
  epcAligned := hepc ▸ h.epcAligned
  zeroSlot := hslot ▸ h.zeroSlot
  memWf := hmem ▸ h.memWf
  memInRange := by rw [hmem, hparams]; exact h.memInRange
  storedRising := hstored ▸ h.storedRising
  storedHold := by rw [hmem, hstored]; exact h.storedHold
  xcelIds := hids ▸ h.xcelIds
  coreIds := hparams ▸ h.coreIds

/-- A jump to an aligned address keeps the invariant. -/
theorem Inv.setPc {s : State} (h : Inv s) {target : Word} (ht : target.toNat % 4 = 0) : Inv (s.setPc target) :=
  h.of_same ht rfl rfl rfl rfl rfl rfl

/-- `pc + 4` is aligned where `pc` is (00_scope R5). -/
theorem pcPlus4_aligned {s : State} (h : s.pc.toNat % 4 = 0) : s.pcPlus4.toNat % 4 = 0 := by
  rw [pcPlus4_toNat]; omega

theorem Inv.advance {s : State} (h : Inv s) : Inv s.advance := h.setPc (pcPlus4_aligned h.pcAligned)

theorem Inv.setGpr {s : State} (h : Inv s) (r : Reg) (v : Word) : Inv (s.setGpr r v) :=
  h.of_same h.pcAligned rfl (State.setGpr_slot_zero s r v) rfl rfl rfl rfl

theorem Inv.setMngr2proc {s : State} (h : Inv s) (rest : List Word) : Inv (s.setMngr2proc rest) :=
  h.of_same h.pcAligned rfl rfl rfl rfl rfl rfl

theorem Inv.enqueue {s : State} (h : Inv s) (w : Word) : Inv (s.enqueue w) :=
  h.of_same h.pcAligned rfl rfl rfl rfl rfl rfl

theorem Inv.setStatsEn {s : State} (h : Inv s) (v : Word) : Inv (s.setStatsEn v) :=
  h.of_same h.pcAligned rfl rfl rfl rfl rfl rfl

theorem Inv.takeTurn {s : State} (h : Inv s) : Inv s.takeTurn :=
  h.of_same h.pcAligned rfl rfl rfl rfl rfl rfl

theorem Inv.setXcel {s : State} (h : Inv s) (id : Word) (st : XcelState) : Inv (s.setXcel id st) :=
  h.of_same h.pcAligned rfl rfl rfl rfl (xcelPut_ids id st s.xcels) rfl

theorem Inv.put {s : State} (h : Inv s) (width : Width) (a v : Word) : Inv (s.put width a v) :=
  have hmem : MemInv (s.put width a v) := h.memInv.put width a v
  { pcAligned := by rw [State.put_pc]; exact h.pcAligned
    epcAligned := by rw [State.put_epc]; exact h.epcAligned
    zeroSlot := by simpa only [State.put_regs] using h.zeroSlot
    memWf := hmem.memWf
    memInRange := hmem.memInRange
    storedRising := hmem.storedRising
    storedHold := hmem.storedHold
    xcelIds := by rw [State.put_xcels]; exact h.xcelIds
    coreIds := by rw [State.put_params]; exact h.coreIds }

/-- The address that exception entry saves is aligned where `pc` is (60_exceptions R263). -/
theorem returnAddress_aligned {s : State} (h : s.pc.toNat % 4 = 0) (rule : SyscallEpc) :
    (returnAddress rule s).toNat % 4 = 0 := by
  cases rule
  · exact h
  · exact pcPlus4_aligned h

theorem Inv.takeException {s : State} (h : Inv s) (vector : BitVec 30) (rule : SyscallEpc) :
    Inv (takeException vector rule s) where
  pcAligned := vectorAddress_aligned vector
  epcAligned := returnAddress_aligned h.pcAligned rule
  zeroSlot := h.zeroSlot
  memWf := h.memWf
  memInRange := h.memInRange
  storedRising := h.storedRising
  storedHold := h.storedHold
  xcelIds := h.xcelIds
  coreIds := h.coreIds

/-! ### Steps -/

/-- An instruction keeps the invariant, whichever form its effect has. -/
theorem Inv.effect {i : Instr} {s t : State} (h : Inv s) (he : Effect i s t) : Inv t := by
  cases he with
  | waits => exact h
  | writes d v => exact (h.setGpr d v).advance
  | advances => exact h.advance
  | jumps target _ ht => exact h.setPc (ht h.pcAligned h.epcAligned)
  | links d target _ _ ht => exact (h.setGpr d _).setPc ht
  | dequeues rt w rest => exact ((h.setMngr2proc rest).setGpr rt w).advance
  | enqueues rt => exact (h.enqueue _).advance
  | setsStats rt => exact (h.setStatsEn _).advance
  | stores width a v => exact (h.put width a v).advance
  | updates d a v old => exact ((h.put .word a v).setGpr d old).advance
  | traps vector rule => exact h.takeException vector rule
  | toXcel id st => exact (h.setXcel id st).advance
  | fromXcel id st d v => exact ((h.setXcel id st).setGpr d v).advance

/-- An outside act keeps the invariant: another core's store does, and nothing else reaches memory. -/
theorem Inv.applyInput {s : State} (h : Inv s) (x : Input) : Inv (applyInput s x) := by
  cases x with
  | offer w => exact h.of_same h.pcAligned rfl rfl rfl rfl rfl rfl
  | setReady r => exact h.of_same h.pcAligned rfl rfl rfl rfl rfl rfl
  | xcelActs id st => exact h.setXcel id st
  | take =>
    simp only [Machine.applyInput]
    split
    · exact h
    · exact h.of_same h.pcAligned rfl rfl rfl rfl rfl rfl
  | otherStore width a v =>
    simp only [Machine.applyInput]
    split
    · exact h.put width a v
    · exact h

/-- Settles O53: a step is an outside act or an instruction's effect, after the turn is taken; each keeps the invariant. -/
theorem stepKeepsInvariant : Obligations.StepKeepsInvariant := by
  intro s t h hstep
  rcases step_next.1 hstep with ⟨x, -, rfl⟩ | ⟨-, i, -, hexec⟩
  · exact h.takeTurn.applyInput x
  · exact h.takeTurn.effect (exec_effect hexec)

/-! ### Reset -/

/-- Every general register reads 0 at reset (log 1). -/
theorem reset_gpr (q : Reg) : State.reset.gpr q = 0#32 := by
  unfold State.gpr State.reset
  split
  · rfl
  · simp only [Vector.get_eq_getElem, Vector.getElem_replicate]

/-- Settles O51: each clause is a field of `State.reset`; the registers by `reset_gpr`. -/
theorem resetState : Obligations.ResetState :=
  ⟨rfl, reset_gpr 0#5, fun _ => rfl, rfl, rfl, rfl, reset_gpr, rfl, rfl⟩

/-- Settles O52: `pc` and `epc` of reset are multiples of 4, its lists are empty, and core 0 is the only core. -/
theorem resetSatisfiesInvariant : Obligations.ResetSatisfiesInvariant where
  pcAligned := by decide
  epcAligned := by decide
  zeroSlot := Vector.getElem_replicate ..
  memWf := reset_mem_wf
  memInRange _ hc := nomatch hc
  storedRising := List.Pairwise.nil
  storedHold _ hn := nomatch hn
  xcelIds := List.nodup_nil
  coreIds := by decide

end Sys2Proof.Machine
end

