-- ==== Sys2Proof/Proofs/StepFrames.lean ====
section
/-! What a step leaves unchanged: `epc` and the parameters (O54), memory (O55), the registers (O56), the order of both channels
to the manager (O58, O60), and the record of stored-to bytes (O8). Each is read off the forms of `Effect` and of
`applyInput`. -/

namespace Sys2Proof.Machine

open Sys2Proof

/-! ### What every effect of an instruction keeps -/

section
variable {i : Instr} {s t : State}

/-- No instruction changes a parameter (70_reset R304). -/
theorem Effect.params_eq (he : Effect i s t) : t.params = s.params := by
  cases he with
  | waits | advances | jumps | links | enqueues | setsStats | traps | toXcel => rfl
  | writes | dequeues | updates | fromXcel => simp
  | stores => simp

/-- Only `syscall` writes `epc` (10_state R16). -/
theorem Effect.epc_eq (he : Effect i s t) : t.epc = s.epc ∨ i = .syscall := by
  cases he with
  | traps _ _ hi => exact .inr hi
  | waits | advances | jumps | links | enqueues | setsStats | toXcel => exact .inl rfl
  | writes | dequeues | updates | fromXcel | stores => exact .inl (by simp)

/-- A register other than the one written reads as before. -/
theorem setGpr_gpr_of_ne (s : State) {d q : Reg} (v : Word) (hne : d ≠ q) : (s.setGpr d v).gpr q = s.gpr q := by
  rw [State.setGpr_gpr]
  split
  · simp_all
  · rw [if_neg hne.symm]

/-- Only the destination register is written (10_state R13). -/
theorem Effect.gpr_eq (he : Effect i s t) {q : Reg} (hq : destinationOf i ≠ some q) : t.gpr q = s.gpr q := by
  have hne : ∀ d, destinationOf i = some d → d ≠ q := fun d hd h => hq (h ▸ hd)
  cases he with
  | waits | advances | jumps | enqueues | setsStats | traps | toXcel => rfl
  | stores => simp
  | writes d v hd => exact setGpr_gpr_of_ne s v (hne d hd)
  | links d _ _ hd => exact setGpr_gpr_of_ne s _ (hne d hd)
  | dequeues rt w rest hi => exact setGpr_gpr_of_ne (s.setMngr2proc rest) w (hne rt (hi ▸ rfl))
  | updates d a v old _ hd => simpa using setGpr_gpr_of_ne (s.put .word a v) old (hne d hd)
  | fromXcel id st d v hd => exact setGpr_gpr_of_ne (s.setXcel id st) v (hne d hd)

/-- A byte that the instruction does not store to keeps its value and its place in the record (20_memory R47, R60). -/
theorem Effect.memory_eq (he : Effect i s t) {n : Nat}
    (hn : ∀ width a, storeTarget s i = some (width, a) → n ∉ physBytes s.params width a) :
    Memory.read n t.mem = Memory.read n s.mem ∧ (n ∈ t.storedTo ↔ n ∈ s.storedTo) := by
  cases he with
  | stores width a v ht =>
    have hout := hn width a ht
    exact ⟨State.put_read_other s width a v hout, by simp [hout]⟩
  | updates d a v old ht =>
    have hout := hn .word a ht
    exact ⟨State.put_read_other s .word a v hout, by simp [hout]⟩
  | waits | writes | advances | jumps | links | dequeues | enqueues | setsStats | traps | toXcel | fromXcel =>
    exact ⟨rfl, Iff.rfl⟩

/-- No instruction forgets that a byte was stored to (20_memory R60). -/
theorem Effect.storedTo_mono (he : Effect i s t) {n : Nat} (hn : n ∈ s.storedTo) : n ∈ t.storedTo := by
  cases he with
  | stores width a v => exact (State.mem_put_storedTo s width a v n).2 (.inr hn)
  | updates d a v old => exact (State.mem_put_storedTo s .word a v n).2 (.inr hn)
  | waits | writes | advances | jumps | links | dequeues | enqueues | setsStats | traps | toXcel | fromXcel => exact hn

/-- No instruction takes a word for the manager (70_reset R305). -/
theorem Effect.received_eq (he : Effect i s t) : t.received = s.received := by
  cases he with
  | waits | advances | jumps | links | enqueues | setsStats | traps | toXcel => rfl
  | writes | dequeues | updates | fromXcel | stores => simp

/-- An instruction queues at most one word, behind those queued (10_state R19). -/
theorem Effect.proc2mngr_eq (he : Effect i s t) :
    ∃ sent : List Word, sent.length ≤ 1 ∧ t.proc2mngr = s.proc2mngr ++ sent := by
  cases he with
  | enqueues rt => exact ⟨[s.gpr rt], le_rfl, rfl⟩
  | waits | advances | jumps | links | setsStats | traps | toXcel | writes | dequeues | updates | fromXcel | stores =>
    exact ⟨[], by simp [takeException]⟩

/-- An instruction takes at most one word, the head, from those offered (10_state R18). -/
theorem Effect.mngr2proc_eq (he : Effect i s t) :
    ∃ taken : List Word, taken.length ≤ 1 ∧ taken ++ t.mngr2proc = s.mngr2proc := by
  cases he with
  | dequeues rt w rest _ hm => exact ⟨[w], le_rfl, by simp [hm]⟩
  | waits | advances | jumps | links | enqueues | setsStats | traps | toXcel | writes | updates | fromXcel | stores =>
    exact ⟨[], by simp [takeException]⟩

end

/-! ### What every outside act keeps -/

section
variable (s : State) (x : Input)

/-- No outside act forgets that a byte was stored to (20_memory R60). -/
theorem applyInput_storedTo_mono {n : Nat} (hn : n ∈ s.storedTo) : n ∈ (applyInput s x).storedTo := by
  cases x with
  | offer | setReady | xcelActs => exact hn
  | take => simp only [applyInput]; split <;> exact hn
  | otherStore width a v =>
    simp only [applyInput]
    split
    · exact (State.mem_put_storedTo s width a v n).2 (.inr hn)
    · exact hn

/-- The manager takes the oldest queued word; no act adds a word to those sent or loses one (10_state R19). -/
theorem applyInput_sent : (applyInput s x).received ++ (applyInput s x).proc2mngr = s.received ++ s.proc2mngr := by
  cases x with
  | offer | setReady | xcelActs => rfl
  | take => simp only [applyInput]; split <;> simp_all
  | otherStore width a v => simp only [applyInput]; split <;> simp

/-- Only the manager's taking of the head of a queue makes the manager have another word (70_reset R305). -/
theorem applyInput_received :
    (applyInput s x).received = s.received ∨
      ∃ w rest, x = .take ∧ s.proc2mngr = w :: rest ∧
        applyInput s x = { s with proc2mngr := rest, received := s.received ++ [w], proc2mngrReady := true } := by
  cases x with
  | offer | setReady | xcelActs => exact .inl rfl
  | otherStore width a v => simp only [applyInput]; split <;> simp
  | take =>
    cases hq : s.proc2mngr with
    | nil => exact .inl (by simp only [applyInput, hq])
    | cons w rest => exact .inr ⟨w, rest, rfl, rfl, by simp only [applyInput, hq]⟩

/-- The words for the core after an outside act: those before, and the one that the act offers (10_state R18). -/
theorem applyInput_mngr2proc (h : nextAct s = some x) :
    (applyInput s.takeTurn x).mngr2proc = s.mngr2proc ++ offeredWords s := by
  cases x with
  | offer w => simp [applyInput, offeredWords, h]
  | setReady | xcelActs => simp [applyInput, offeredWords, h]
  | take => simp only [applyInput, offeredWords, h]; split <;> simp
  | otherStore width a v => simp only [applyInput, offeredWords, h]; split <;> simp

/-- The manager never has fewer words than before. -/
theorem applyInput_received_length : s.received.length ≤ (applyInput s x).received.length := by
  rcases applyInput_received s x with h | ⟨w, rest, -, -, h⟩
  · rw [h]
  · rw [h]; simp

end

/-! ### The core, the registers and memory -/

/-- Settles O54: no outside act writes `epc` or a parameter, and of the instructions only `syscall` writes `epc`. -/
theorem epcOnlyBySyscall : Obligations.EpcOnlyBySyscall := by
  intro s t hstep
  rcases step_next.1 hstep with ⟨x, -, rfl⟩ | ⟨hcore, i, hfetch, hexec⟩
  · exact ⟨applyInput_params _ x, .inl (applyInput_epc _ x)⟩
  · have he := exec_effect hexec
    exact ⟨he.params_eq, he.epc_eq.imp_right fun (hi : i = .syscall) => ⟨hcore, hi ▸ hfetch⟩⟩

/-- Settles O55, by the forms of an effect. -/
theorem memoryOnlyByStores : Obligations.MemoryOnlyByStores := fun _ _ _ h _ hn => (exec_effect h).memory_eq hn

/-- Settles O56: `r0` reads 0 in every state, and the forms of an effect write the destination only. -/
theorem onlyDestinationWritten : Obligations.OnlyDestinationWritten :=
  fun _ _ t h => ⟨State.gpr_zero t, fun _ hq => (exec_effect h).gpr_eq hq⟩

/-! ### The record of stored-to bytes -/

/-- A fetch of an aligned word that shares a byte with those stored to faults (20_memory R60). -/
theorem fetchWord_of_stored {s : State} (ha : s.pc.toNat % 4 = 0) {n : Nat} (hn : n ∈ physBytes s.params .word s.pc)
    (hs : n ∈ s.storedTo) : fetchWord s = .fault (.fetchAfterStore s.pc) := by
  have hany : (physBytes s.params .word s.pc).any (fun n => s.storedTo.contains n) = true :=
    List.any_eq_true.2 ⟨n, hn, by simpa using hs⟩
  rw [fetchWord, isAligned_iff.2 ha, if_neg (by decide), if_pos hany]

/-- A storing instruction that completes has stored at its target: its bytes are in the record (20_memory R60). -/
theorem storedTo_of_storeTarget {i : Instr} {s t : State} {width : Width} {a : Word} (h : exec i s = .next t)
    (ht : storeTarget s i = some (width, a)) : ∃ v, t.storedTo = (s.put width a v).storedTo := by
  cases i
  case sw rs rt imm | sh rs rt imm | sb rs rt imm =>
    obtain ⟨rfl, rfl⟩ := Prod.mk.inj (Option.some.inj ht)
    obtain ⟨-, -, rfl⟩ := storeThen_next.1 h
    exact ⟨s.gpr rt, rfl⟩
  case amoAdd rs rt rd | amoAnd rs rt rd | amoOr rs rt rd =>
    obtain ⟨rfl, rfl⟩ := Prod.mk.inj (Option.some.inj ht)
    obtain ⟨old, -, -, -, rfl⟩ := atomicUpdate_next.1 h
    exact ⟨_, rfl⟩
  all_goals cases ht

/-- Settles O8: effects and outside acts only add to the record, and a storing instruction adds the bytes of its target. -/
theorem storedWordsDoNotFetch : Obligations.StoredWordsDoNotFetch := by
  refine ⟨fun s t n hstep hn => ?mono, fun i s t width a h ht pc hpc ⟨n, hfetched, hstored⟩ => ?fetch⟩
  case mono =>
    rcases step_next.1 hstep with ⟨x, -, rfl⟩ | ⟨-, i, -, hexec⟩
    · exact applyInput_storedTo_mono s.takeTurn x hn
    · exact (exec_effect hexec).storedTo_mono hn
  case fetch =>
    obtain ⟨v, hrecord⟩ := storedTo_of_storeTarget h ht
    have hparams : t.params = s.params := (exec_effect h).params_eq
    refine fetchWord_of_stored (s := t.setPc pc) hpc (n := n) ?_ ?_
    · rw [State.setPc_params, hparams]; exact hfetched
    · rw [State.setPc_storedTo, hrecord]; exact (State.mem_put_storedTo s width a v n).2 (.inl hstored)

/-! ### The channels to the manager -/

/-- Settles O58: an effect queues or takes at most one word, and an outside act moves or offers at most one. -/
theorem managerWordsInOrder : Obligations.ManagerWordsInOrder := by
  intro s t hstep
  rcases step_next.1 hstep with ⟨x, hx, rfl⟩ | ⟨hcore, i, -, hexec⟩
  · refine ⟨⟨[], Nat.zero_le _, ?_⟩, ⟨[], Nat.zero_le _, applyInput_mngr2proc s x hx⟩, fun n hn => ?_⟩
    · rw [List.append_nil]; exact applyInput_sent s.takeTurn x
    · exact decide_eq_true ((of_decide_eq_true hn).trans (applyInput_received_length s.takeTurn x))
  · have he := exec_effect hexec
    have hreceived : t.received = s.received := he.received_eq
    obtain ⟨sent, hsent, hqueue⟩ := he.proc2mngr_eq
    obtain ⟨taken, htaken, hoffered⟩ := he.mngr2proc_eq
    have hnone : offeredWords s = [] := by simp [offeredWords, hcore]
    refine ⟨⟨sent, hsent, ?_⟩, ⟨taken, htaken, ?_⟩, fun n hn => ?_⟩
    · rw [hreceived, hqueue, List.append_assoc]; rfl
    · rw [hoffered, hnone, List.append_nil]; rfl
    · rw [endsByWords, hreceived]; exact hn

/-- Settles O60: the manager has more words after the step, so the step is the manager's taking of the oldest queued word. -/
theorem runEndsAtTheWord : Obligations.RunEndsAtTheWord := by
  intro n s t hstep hbefore hafter
  have hfew : s.received.length < n := not_le.1 (of_decide_eq_false hbefore)
  have hmany : n ≤ t.received.length := of_decide_eq_true hafter
  have hgrew : t.received ≠ s.received := fun heq => absurd (heq ▸ hmany) (not_le.2 hfew)
  rcases step_next.1 hstep with ⟨x, hx, rfl⟩ | ⟨-, i, -, hexec⟩
  · rcases applyInput_received s.takeTurn x with hsame | ⟨w, rest, rfl, hqueue, htaken⟩
    · exact absurd hsame hgrew
    · have hsent := applyInput_sent s.takeTurn .take
      rw [htaken] at hmany hsent ⊢
      have hlength : (s.received ++ [w]).length = s.received.length + 1 := List.length_append
      refine ⟨hx, ?_, hsent.symm, fun _ => rfl, rfl, rfl, rfl, rfl, ⟨fun _ => rfl, rfl⟩, rfl, rfl⟩
      exact le_antisymm (hlength.trans_le hfew) hmany
  · exact absurd (exec_effect hexec).received_eq hgrew

end Sys2Proof.Machine
end

