-- ==== Sys2Proof/Proofs/DataAccesses.lean ====
section
/-! Addresses and data accesses: how addresses are formed (O14), where an access stops (O12), what is read after a store through
another width (O11), and a load after a store (O13). A load is decided by the bytes that `byteOf` reaches, so each statement
about two accesses is one about those bytes. -/

namespace Sys2Proof.Machine

open Sys2Proof

/-! ### Addresses -/

/-- The word of an integer, as a number: the integer modulo 2^32. -/
theorem ofInt_toNat_eq_emod (x : Int) : ((BitVec.ofInt 32 x).toNat : Int) = x % 2 ^ 32 := by
  rw [BitVec.toNat_ofInt]
  exact Int.toNat_of_nonneg (Int.emod_nonneg _ (by decide))

/-- Settles O14: both sums are words of an integer, and the targets' alignment is that of `pc + 4` and of the field times 4. -/
theorem addressFormation : Obligations.AddressFormation := by
  refine fun s rs imm target =>
    ⟨?effAddr, ?branch, jumpTarget_toNat target s, fun hpc => ⟨branchTarget_aligned hpc imm, jumpTarget_aligned s target⟩⟩
  case effAddr => rw [effAddr, add_sextImm_eq_ofInt, ofInt_toNat_eq_emod]
  case branch => rw [branchTarget_eq_ofInt, ofInt_toNat_eq_emod]

/-! ### The bytes of neighbouring and of aliased accesses -/

/-- Byte `j` of an access at `a + k` is byte `k + j` of an access at `a` (20_memory R43). -/
theorem byteOf_add (p : Params) (a : Word) (k j : Nat) : byteOf p (a + BitVec.ofNat 32 k) j = byteOf p a (k + j) := by
  rw [← physAddr_add, ← physAddr_add, BitVec.add_assoc, ← BitVec.ofNat_add]

/-- Addresses that agree modulo 2^PA_BITS reach the same bytes (20_memory R44). -/
theorem byteOf_congr {p : Params} {a b : Word} (h : b.toNat % 2 ^ paBits p = a.toNat % 2 ^ paBits p) (k : Nat) :
    byteOf p b k = byteOf p a k := by
  rw [byteOf, byteOf, Nat.add_mod, h, ← Nat.add_mod]

/-- Memory placed under an access is placed under a narrower one inside it. -/
theorem Placed.inside {p : Params} {a : Word} {m n k : Nat} (h : Placed p a m) (hk : k + n ≤ m) :
    Placed p (a + BitVec.ofNat 32 k) n := fun j hj => by
  rw [byteOf_add]; exact h (k + j) (by omega)

theorem isBacked_false_iff {p : Params} {width : Width} {a : Word} :
    isBacked p width a = false ↔ ¬Placed p a (widthBytes width) := by
  rw [← isBacked_iff, Bool.not_eq_true]

/-! ### Where an access stops -/

/-- A word with a byte that holds no value has none (10_state R30). -/
theorem wordAt_eq_none {s : State} {a : Word} (h : ∃ k < 4, Memory.read (byteOf s.params a k) s.mem = none) :
    s.wordAt a = none := by
  refine Option.eq_none_iff_forall_ne_some.2 fun w hw => ?_
  obtain ⟨b0, b1, b2, b3, ⟨h0, h1, h2, h3⟩, -⟩ := wordAt_some_iff.1 hw
  obtain ⟨k, hk, hnone⟩ := h
  unfold HoldsByte at h0 h1 h2 h3
  rcases (by omega : k = 0 ∨ k = 1 ∨ k = 2 ∨ k = 3) with rfl | rfl | rfl | rfl <;> simp_all

/-- A halfword with a byte that holds no value has none (10_state R30). -/
theorem halfAt_eq_none {s : State} {a : Word} (h : ∃ k < 2, Memory.read (byteOf s.params a k) s.mem = none) :
    s.halfAt a = none := by
  refine Option.eq_none_iff_forall_ne_some.2 fun v hv => ?_
  obtain ⟨b0, b1, h0, h1, -⟩ := State.halfAt_some.1 hv
  have h1 : Memory.read (byteOf s.params a 1) s.mem = some b1 := (byteAt_add s a 1).symm.trans h1
  obtain ⟨k, hk, hnone⟩ := h
  rcases (by omega : k = 0 ∨ k = 1) with rfl | rfl
  · exact absurd (hnone.symm.trans h0) (by simp)
  · exact absurd (hnone.symm.trans h1) (by simp)

section
variable {α : Type} {width : Width} {a : Word} {s : State} (k : Answer α)

/-- A misaligned access faults, whatever its body (20_memory R48). -/
theorem dataAccess_of_misaligned (h : a.toNat % widthBytes width ≠ 0) :
    dataAccess width a s k = .fault (.misalignedData a) :=
  dataAccess_misaligned s k (isAligned_false_iff.2 h)

/-- An aligned access over memory that is not placed is refused, whatever its body (20_memory R45). -/
theorem dataAccess_of_unplaced (h : a.toNat % widthBytes width = 0) (hp : ¬Placed s.params a (widthBytes width)) :
    dataAccess width a s k = .refused (.unpopulated a) :=
  dataAccess_unpopulated s k (isAligned_iff.2 h) (isBacked_false_iff.2 hp)

/-- An aligned access over placed memory is its body. -/
theorem dataAccess_of_placed (h : a.toNat % widthBytes width = 0) (hp : Placed s.params a (widthBytes width)) :
    dataAccess width a s k = k :=
  dataAccess_ok s k (isAligned_iff.2 h) (isBacked_iff.2 hp)

end

section
variable {a : Word} {s : State}

/-- A word load over a byte without a value faults (10_state R30). -/
theorem loadWord_of_unwritten (h : a.toNat % 4 = 0) (hp : Placed s.params a 4)
    (hn : ∃ k < 4, Memory.read (byteOf s.params a k) s.mem = none) : loadWord a s = .fault (.readOfUnwritten a) := by
  rw [loadWord, dataAccess_of_placed _ h hp, wordAt_eq_none hn]; rfl

/-- A halfword load over a byte without a value faults (10_state R30). -/
theorem loadHalf_of_unwritten (h : a.toNat % 2 = 0) (hp : Placed s.params a 2)
    (hn : ∃ k < 2, Memory.read (byteOf s.params a k) s.mem = none) : loadHalf a s = .fault (.readOfUnwritten a) := by
  rw [loadHalf, dataAccess_of_placed _ h hp, halfAt_eq_none hn]; rfl

/-- A load of a byte without a value faults (10_state R30). -/
theorem loadByte_of_unwritten (hp : Placed s.params a 1) (hn : Memory.read (byteOf s.params a 0) s.mem = none) :
    loadByte a s = .fault (.readOfUnwritten a) := by
  have hnone : s.byteAt a = none := hn
  rw [loadByte, dataAccess_of_placed _ (Nat.mod_one _) hp, hnone]; rfl

end

/-- The three atomics are one operation with three functions. -/
theorem exec_atomic {rs rt rd : Reg} {i : Instr} (s : State)
    (hi : i = .amoAdd rs rt rd ∨ i = .amoAnd rs rt rd ∨ i = .amoOr rs rt rd) :
    ∃ f, exec i s = atomicUpdate f rs rt rd s := by
  rcases hi with rfl | rfl | rfl <;> exact ⟨_, rfl⟩

/-- A sequence stops where its first part faults. -/
theorem andThen_fault {α β : Type} {o : Answer α} {f : Fault} (k : α → Answer β) (h : o = .fault f) :
    andThen o k = .fault f := h ▸ rfl

/-- A sequence stops where its first part is refused. -/
theorem andThen_refused {α β : Type} {o : Answer α} {r : Refusal} (k : α → Answer β) (h : o = .refused r) :
    andThen o k = .refused r := h ▸ rfl

/-- Settles O12: every load, store and atomic begins with its access, and stops where that stops. -/
theorem dataAccessStops : Obligations.DataAccessStops := by
  refine fun s rs rt rd imm => ⟨?_, ?_⟩
  · rintro a rfl
    refine ⟨fun ha => ?wordMisaligned, fun ha hp => ?wordUnplaced, fun ha hp hn => ?wordUnwritten,
      fun ha => ?halfMisaligned, fun ha hp => ?halfUnplaced, fun ha hp hn => ?halfUnwritten,
      fun hp => ?byteUnplaced, fun hp hn => ?byteUnwritten⟩
    case wordMisaligned | halfMisaligned => and_intros <;> exact andThen_fault _ (dataAccess_of_misaligned _ ha)
    case wordUnplaced | halfUnplaced => and_intros <;> exact andThen_refused _ (dataAccess_of_unplaced _ ha hp)
    case byteUnplaced => and_intros <;> exact andThen_refused _ (dataAccess_of_unplaced _ (Nat.mod_one _) hp)
    case wordUnwritten => exact andThen_fault _ (loadWord_of_unwritten ha hp hn)
    case halfUnwritten => and_intros <;> exact andThen_fault _ (loadHalf_of_unwritten ha hp hn)
    case byteUnwritten => and_intros <;> exact andThen_fault _ (loadByte_of_unwritten hp hn)
  · rintro a i rfl hi
    obtain ⟨f, hexec⟩ := exec_atomic s hi
    rw [hexec]
    exact ⟨fun ha => andThen_fault _ (dataAccess_of_misaligned _ ha),
      fun ha hp => andThen_refused _ (dataAccess_of_unplaced _ ha hp),
      fun ha hp hn => andThen_fault _ (loadWord_of_unwritten ha hp hn)⟩

/-! ### What a stored word reads back as -/

/-- A byte of memory after a word was stored: the last of the word's bytes that reaches it, else as before. -/
theorem put_word_read (s : State) (a v : Word) (n : Nat) :
    Memory.read n (s.put .word a v).mem =
      if n = byteOf s.params a 3 then some (byteOfWord v 3) else if n = byteOf s.params a 2 then some (byteOfWord v 2)
      else if n = byteOf s.params a 1 then some (byteOfWord v 1)
      else if n = byteOf s.params a 0 then some (byteOfWord v 0) else Memory.read n s.mem := by
  rw [← physAddr_add, ← physAddr_add, ← physAddr_add, ← physAddr_eq]
  simp only [State.put, State.storeWord, State.storeByte_mem, Memory.read_write]

/-- The bytes that a stored word leaves in memory (20_memory R47; log 6). -/
theorem holdsWord_put {s : State} {a : Word} (v : Word) (ha : a.toNat % 4 = 0) :
    HoldsWord (s.put .word a v) a (byteOfWord (wordThroughMemory s.params v) 0)
      (byteOfWord (wordThroughMemory s.params v) 1) (byteOfWord (wordThroughMemory s.params v) 2)
      (byteOfWord (wordThroughMemory s.params v) 3) := by
  have h := holdsWord_of_reads (m := s.mem) (s := s.put .word a v) (v := v) ha
    (fun n => by rw [State.put_params]; exact put_word_read s a v n)
  rwa [State.put_params] at h

/-- The four bytes of a word, as a number, are the word. -/
theorem littleEndian_byteOfWord (v : Word) :
    BitVec.ofNat 32 (littleEndian [byteOfWord v 0, byteOfWord v 1, byteOfWord v 2, byteOfWord v 3]) = v := by
  rw [← wordOfBytes_eq, wordOfBytes_byteOfWord]

/-- Two neighbouring bytes of a word, as a number, are the halfword there. -/
theorem littleEndian_byteOfWord_half (v : Word) (k : Nat) :
    BitVec.ofNat 16 (littleEndian [byteOfWord v k, byteOfWord v (k + 1)]) = BitVec.ofNat 16 (v.toNat / 2 ^ (8 * k)) := by
  have hnext : v.toNat / 2 ^ (8 * (k + 1)) = v.toNat / 2 ^ (8 * k) / 256 := by
    rw [Nat.div_div_eq_div_mul, Nat.mul_add, Nat.pow_add]
  apply BitVec.eq_of_toNat_eq
  rw [byteOfWord_eq, byteOfWord_eq, hnext]
  simp only [littleEndian, BitVec.toNat_ofNat]
  omega

section
variable {s : State} {a w : Word}

/-- A byte load inside a word that memory holds. -/
theorem loadByte_inside {k : Nat} (hk : k + 1 ≤ 4) (hp : Placed s.params a 4) (h : HoldsByte s a k (byteOfWord w k)) :
    loadByte (a + BitVec.ofNat 32 k) s = .next (BitVec.ofNat 8 (w.toNat / 2 ^ (8 * k))) := by
  rw [← byteOfWord_eq]
  exact loadByte_of_holds (hp.inside hk) (by rw [HoldsByte, byteOf_add]; exact h)

/-- A halfword load inside a word that memory holds. -/
theorem loadHalf_inside {k : Nat} (hk : k + 2 ≤ 4) (ha : (a + BitVec.ofNat 32 k).toNat % 2 = 0) (hp : Placed s.params a 4)
    (h0 : HoldsByte s a k (byteOfWord w k)) (h1 : HoldsByte s a (k + 1) (byteOfWord w (k + 1))) :
    loadHalf (a + BitVec.ofNat 32 k) s = .next (BitVec.ofNat 16 (w.toNat / 2 ^ (8 * k))) := by
  rw [← littleEndian_byteOfWord_half]
  exact loadHalf_of_holds ha (hp.inside hk) (by rw [HoldsByte, byteOf_add]; exact h0)
    (by rw [HoldsByte, byteOf_add]; exact h1)

/-- A word load of a word that memory holds. -/
theorem loadWord_of_holdsWord (ha : a.toNat % 4 = 0) (hp : Placed s.params a 4)
    (h : HoldsWord s a (byteOfWord w 0) (byteOfWord w 1) (byteOfWord w 2) (byteOfWord w 3)) : loadWord a s = .next w := by
  rw [loadWord_of_holds ha hp h, littleEndian_byteOfWord]

end

/-- A word with its first byte replaced, as the number its bytes make. -/
theorem littleEndian_replace_first (v x : Word) :
    littleEndian [byteOfWord x 0, byteOfWord v 1, byteOfWord v 2, byteOfWord v 3] =
      v.toNat / 2 ^ 8 * 2 ^ 8 + x.toNat % 2 ^ 8 := by
  have hv := v.isLt
  simp only [byteOfWord_eq, littleEndian, BitVec.toNat_ofNat]
  omega

/-- A byte stored over the first byte of a word leaves the word's other bytes, where they are other bytes of memory. -/
theorem holdsWord_put_byte {s : State} {a : Word} {b0 b1 b2 b3 : Byte} (x : Word) (hbits : 2 ≤ paBits s.params)
    (ha : a.toNat % 4 = 0) (h : HoldsWord s a b0 b1 b2 b3) :
    HoldsWord (s.put .byte a x) a (byteOfWord x 0) b1 b2 b3 := by
  obtain ⟨-, h1, h2, h3⟩ := h
  have hread : ∀ n, Memory.read n (s.put .byte a x).mem =
      if n = byteOf s.params a 0 then some (byteOfWord x 0) else Memory.read n s.mem := Memory.read_write s.mem _ _
  have hkept : ∀ {k b}, k < 4 → k ≠ 0 → HoldsByte s a k b → HoldsByte (s.put .byte a x) a k b := by
    intro k b hk hk0 hb
    have hne : byteOf s.params a k ≠ byteOf s.params a 0 := fun he => hk0 (byteOf_injective hbits ha hk (by decide) he)
    rw [HoldsByte, State.put_params, hread, if_neg hne]
    exact hb
  refine ⟨?_, hkept (by decide) (by decide) h1, hkept (by decide) (by decide) h2, hkept (by decide) (by decide) h3⟩
  rw [HoldsByte, State.put_params, hread, if_pos rfl]

/-- Settles O11: the bytes that the stored word leaves are read by each width from where `byteOf` puts them. -/
theorem narrowAndWideAccesses : Obligations.NarrowAndWideAccesses := by
  intro s t u a v x y hword hbyte hy
  obtain ⟨haligned, hbacked, rfl⟩ := store_next.1 hword
  obtain ⟨-, -, rfl⟩ := store_next.1 hbyte
  have ha : a.toNat % 4 = 0 := isAligned_iff.1 haligned
  have ha2 : (a + 2#32).toNat % 2 = 0 := by rw [BitVec.toNat_add, BitVec.toNat_ofNat]; omega
  have hp : Placed (s.put .word a v).params a 4 := by rw [State.put_params]; exact isBacked_iff.1 hbacked
  have hholds := holdsWord_put (s := s) v ha
  rw [← hy] at hholds
  obtain ⟨h0, h1, h2, h3⟩ := hholds
  refine ⟨?byte0, loadByte_inside (k := 1) (by decide) hp h1, loadByte_inside (k := 2) (by decide) hp h2,
    loadByte_inside (k := 3) (by decide) hp h3, ?half0, loadHalf_inside (k := 2) (by decide) ha2 hp h2 h3,
    loadWord_of_holdsWord ha hp ⟨h0, h1, h2, h3⟩, fun hbits => ?replaced⟩
  case byte0 => simpa using loadByte_inside (k := 0) (by decide) hp h0
  case half0 =>
    have ha0 : (a + BitVec.ofNat 32 0).toNat % 2 = 0 := by rw [BitVec.add_zero]; omega
    simpa using loadHalf_inside (k := 0) (by decide) ha0 hp h0 h1
  case replaced =>
    have hyv : y = v := hy.trans (if_neg (by omega))
    subst hyv
    rw [← littleEndian_replace_first]
    refine loadWord_of_holds ha (by rw [State.put_params]; exact hp) (holdsWord_put_byte x ?_ ha ⟨h0, h1, h2, h3⟩)
    rw [State.put_params]; exact hbits

/-! ### A load after a store -/

/-- A word load is decided by the parameters and the four bytes it reads. -/
theorem loadWord_congr {s t : State} {a : Word} (hparams : t.params = s.params)
    (hbytes : ∀ k < 4, Memory.read (byteOf s.params a k) t.mem = Memory.read (byteOf s.params a k) s.mem) :
    loadWord a t = loadWord a s := by
  have hat : ∀ k < 4, t.byteAt (a + BitVec.ofNat 32 k) = s.byteAt (a + BitVec.ofNat 32 k) := fun k hk => by
    rw [byteAt_add, byteAt_add, hparams]; exact hbytes k hk
  have h0 : t.byteAt a = s.byteAt a := by simpa using hat 0 (by decide)
  have hword : t.wordAt a = s.wordAt a := by
    simp only [State.wordAt, h0, hat 1 (by decide), hat 2 (by decide), hat 3 (by decide)]
  simp only [loadWord, dataAccess, hparams, hword]

/-- After a word is stored, a word load at an address that reaches the same bytes reads it back (20_memory R44, R56). -/
theorem loadWord_put {s : State} {a b : Word} (v : Word) (ha : a.toNat % 4 = 0) (hb : b.toNat % 4 = 0)
    (hp : Placed s.params a 4) (hsame : b.toNat % 2 ^ paBits s.params = a.toNat % 2 ^ paBits s.params) :
    loadWord b (s.put .word a v) = .next (wordThroughMemory s.params v) := by
  have hbyte : ∀ k, byteOf s.params b k = byteOf s.params a k := byteOf_congr hsame
  have hholds := holdsWord_put (s := s) v ha
  simp only [HoldsWord, HoldsByte, State.put_params, ← hbyte] at hholds
  refine loadWord_of_holdsWord hb ?_ (by simpa only [HoldsWord, HoldsByte, State.put_params] using hholds)
  intro k hk
  rw [State.put_params, hbyte]
  exact hp k hk

/-- `lw` completes where its access does, and writes the word (44_loads_stores R161). -/
theorem completes_of_lw {s : State} {rs rt : Reg} {imm : BitVec 16} {w : Word}
    (h : loadWord (effAddr rs imm s) s = .next w) : ∃ t, exec (.lw rs rt imm) s = .next t ∧ Writes s t rt w := by
  have hexec : exec (.lw rs rt imm) s = writeBack rt w s := by
    change andThen (loadWord (effAddr rs imm s) s) _ = _
    rw [h, andThen_of_next]
  exact completes_of_writeBack hexec rfl

/-- Settles O13: the stored word reads back at every address that reaches its bytes, and four other bytes are as before. -/
theorem loadAfterStore : Obligations.LoadAfterStore := by
  intro s t rs rt imm b hsw
  obtain ⟨haligned, hbacked, rfl⟩ := storeThen_next.1 hsw
  refine ⟨fun hb hsame => ?same, fun hdisjoint => ?other⟩
  case same =>
    have hload : loadWord b (s.put .word (effAddr rs imm s) (s.gpr rt)).advance =
        .next (wordThroughMemory s.params (s.gpr rt)) :=
      (loadWord_congr (State.advance_params _) fun _ _ => rfl).trans
        (loadWord_put (s.gpr rt) (isAligned_iff.1 haligned) hb (isBacked_iff.1 hbacked) hsame)
    exact ⟨hload, fun rs' rt' imm' heff => completes_of_lw (heff.symm ▸ hload)⟩
  case other =>
    refine loadWord_congr (State.put_params ..) fun k hk => State.put_read_other _ _ _ _ fun hmem => ?_
    obtain ⟨j, hj, hjk⟩ := mem_physBytes.1 hmem
    exact hdisjoint k hk j hj hjk.symm

end Sys2Proof.Machine
end

