-- ==== Sys2Proof/Proofs/FetchAndStep.lean ====
section
/-! The step (O5, O6, O7): on the core's turn it is the fetched instruction, and a fetch is the check of the stored-to record
and then a word load, so it completes and stops where that load does. -/

namespace Sys2Proof.Machine

open Sys2Proof

/-! ### The fetch -/

section
variable {s : State}

/-- A fetch of an aligned word none of whose bytes was stored to is a word load (20_memory R50). -/
theorem fetchWord_eq_loadWord (ha : s.pc.toNat % 4 = 0) (hs : ∀ k < 4, byteOf s.params s.pc k ∉ s.storedTo) :
    fetchWord s = loadWord s.pc s := by
  have halign : isAligned 4 s.pc = true := isAligned_iff.2 ha
  have hany : (physBytes s.params .word s.pc).any (fun n => s.storedTo.contains n) = false := by
    refine List.any_eq_false.2 fun n hn => ?_
    obtain ⟨k, hk, rfl⟩ := mem_physBytes.1 hn
    simpa using hs k hk
  cases hb : isBacked s.params .word s.pc <;>
    simp only [fetchWord, loadWord, dataAccess, widthBytes, halign, hany, hb, Bool.not_true, Bool.not_false,
      Bool.false_eq_true, if_true, if_false]

/-- What the fetch makes of a word: the launch's instruction, or the fault of an undefined one (30_encoding R90). -/
theorem fetchInstr_of_word {w : Word} (h : fetchWord s = .next w) {i : Instr} (hi : decodeFor s.params w = .ok i) :
    fetchInstr s = .next i :=
  fetchInstr_next.2 ⟨w, h, hi⟩

theorem fetchInstr_of_undefined {w : Word} (h : fetchWord s = .next w) {why : Undefined}
    (hw : decodeFor s.params w = .error why) : fetchInstr s = .fault (.undefinedInstruction w s.pc why) := by
  rw [fetchInstr, h, andThen_of_next, hw]

/-! ### The core's turn -/

/-- The core's turn is the fetch and then the fetched instruction, at the state with the turn taken (70_reset R304). -/
theorem step_of_core (hcore : nextAct s = none) : step s = andThen (fetchInstr s) fun i => exec i s.takeTurn := by
  rw [step, hcore, coreStep, fetchInstr_takeTurn]

theorem step_of_fetch (hcore : nextAct s = none) {i : Instr} (h : fetchInstr s = .next i) :
    step s = exec i s.takeTurn := by
  rw [step_of_core hcore, h, andThen_of_next]

theorem step_of_fetch_fault (hcore : nextAct s = none) {f : Fault} (h : fetchInstr s = .fault f) : step s = .fault f := by
  rw [step_of_core hcore, h, andThen_of_fault]

theorem step_of_fetch_refused (hcore : nextAct s = none) {r : Refusal} (h : fetchInstr s = .refused r) :
    step s = .refused r := by
  rw [step_of_core hcore, h, andThen_of_refused]

/-- On the core's turn, at an aligned `pc` over placed bytes that hold values, were not stored to, and encode an instruction of
the launch, the step is that instruction. -/
theorem step_of_holdsWord {i : Instr} {b0 b1 b2 b3 : Byte} (hcore : nextAct s = none) (ha : s.pc.toNat % 4 = 0)
    (hp : Placed s.params s.pc 4) (hholds : HoldsWord s s.pc b0 b1 b2 b3)
    (hs : ∀ k < 4, byteOf s.params s.pc k ∉ s.storedTo)
    (hi : decodeFor s.params (BitVec.ofNat 32 (littleEndian [b0, b1, b2, b3])) = .ok i) : step s = exec i s.takeTurn :=
  step_of_fetch hcore
    (fetchInstr_of_word ((fetchWord_eq_loadWord ha hs).trans (loadWord_of_holds ha hp hholds)) hi)

end

/-- Settles O5: the core's turn by `step_of_holdsWord`, another agent's by the definition of its act. -/
theorem stepRunsDecodedInstruction : Obligations.StepRunsDecodedInstruction := by
  refine fun s => ⟨fun i b0 b1 b2 b3 hcore ha hp hholds hs hi => ?core, fun x hx => ?outside⟩
  case core =>
    exact ⟨step_of_holdsWord hcore ha hp hholds hs hi, fun _ => rfl, rfl, ⟨rfl, rfl, rfl, rfl, rfl, rfl⟩,
      ⟨fun _ => rfl, rfl⟩, rfl, rfl, rfl, takeTurn_of_no_turns⟩
  case outside =>
    exact ⟨_, by rw [step, hx], rfl, fun q => applyInput_gpr s.takeTurn x q, applyInput_pc .., applyInput_epc ..,
      applyInput_statsEn .., applyInput_params .., applyInput_turns ..⟩

/-! ### Placing a word -/

/-- The stored-to addresses after a word was placed: those before that are not the word's (70_reset R301). -/
theorem mem_placeWord_storedTo {s : State} {a v : Word} {n : Nat} :
    n ∈ (s.placeWord a v).storedTo ↔ n ∈ s.storedTo ∧ n ∉ physBytes s.params .word a := by
  simp only [State.placeWord, State.placeByte_storedTo, List.mem_filter, bne_iff_ne, physBytes,
    List.mem_cons, List.not_mem_nil, or_false, not_or, and_assoc]

/-- The bytes that a placed word leaves in memory (20_memory R41; log 6, 41). -/
theorem holdsWord_placeWord {s : State} {a : Word} (v : Word) (ha : a.toNat % 4 = 0) :
    HoldsWord (s.placeWord a v) a (byteOfWord (wordThroughMemory s.params v) 0)
      (byteOfWord (wordThroughMemory s.params v) 1) (byteOfWord (wordThroughMemory s.params v) 2)
      (byteOfWord (wordThroughMemory s.params v) 3) :=
  holdsWord_of_reads (m := s.mem) (s := s.placeWord a v) ha fun n => by
    rw [placeWord_read, ← physAddr_add, ← physAddr_add, ← physAddr_add, ← physAddr_eq, State.placeWord_params]

/-- The state with a word placed at `pc`, without the detour over its number. -/
theorem withFetchWord_eq (s : State) (w : Word) : s.withFetchWord 32 w.toNat = (s.placeWord s.pc w).coreNext := by
  rw [State.withFetchWord, Nat.mod_eq_of_lt w.isLt, BitVec.ofNat_toNat, BitVec.setWidth_eq]

/-- The word placed at `pc` is what the core's next step runs: its bytes hold it, and none of them counts as stored to. -/
theorem step_placeWord {s : State} {w : Word} {i : Instr} (ha : s.pc.toNat % 4 = 0) (hp : Placed s.params s.pc 4)
    (hsame : wordThroughMemory s.params w = w) (hi : decodeFor s.params w = .ok i) :
    step (s.placeWord s.pc w).coreNext = exec i (s.placeWord s.pc w).coreNext.takeTurn := by
  have hholds := holdsWord_placeWord (s := s) w ha
  rw [hsame] at hholds
  have hfresh : ∀ k < 4, byteOf s.params s.pc k ∉ (s.placeWord s.pc w).storedTo := fun k hk hmem =>
    (mem_placeWord_storedTo.1 hmem).2 (mem_physBytes.2 ⟨k, hk, rfl⟩)
  have hdecode : decodeFor s.params
      (BitVec.ofNat 32 (littleEndian [byteOfWord w 0, byteOfWord w 1, byteOfWord w 2, byteOfWord w 3])) = .ok i := by
    rw [littleEndian_byteOfWord]; exact hi
  refine step_of_holdsWord (nextAct_coreNext _) ?_ ?_ ?_ ?_ (by simpa using hdecode) <;>
    simpa [HoldsWord, HoldsByte]

/-- Settles O6: `step_placeWord`, and what placing a word and putting the core's turn first keep. -/
theorem placedWordRuns : Obligations.PlacedWordRuns := by
  intro s w i ha hp hsame hi
  rw [withFetchWord_eq]
  refine ⟨step_placeWord ha hp hsame hi, fun q => by simp, ⟨by simp, by simp, by simp, by simp, by simp, by simp⟩, by simp,
    fun hcore => ?_⟩
  have hcore' : nextAct (s.placeWord s.pc w) = none := by rw [nextAct, State.placeWord_turns]; exact hcore
  rw [coreNext_of_core hcore', State.placeWord_turns]

/-! ### Where a fetch stops -/

/-- Settles O7: the record is looked at first; without a stored-to byte the fetch stops where its word load does, and then
where the decoder does. -/
theorem fetchStopsInOrder : Obligations.FetchStopsInOrder := by
  intro s hcore ha
  refine ⟨fun ⟨k, hk, hstored⟩ => ?stored, fun hs => ⟨fun hp => ?unplaced, fun hp => ⟨fun hn => ?unwritten,
    fun b0 b1 b2 b3 why hholds hwhy => ?undefined⟩⟩⟩
  case stored =>
    have hfetch := fetchWord_of_stored ha (mem_physBytes.2 ⟨k, hk, rfl⟩) hstored
    exact step_of_fetch_fault hcore (andThen_fault _ hfetch)
  case unplaced =>
    have hfetch := (fetchWord_eq_loadWord ha hs).trans (dataAccess_of_unplaced _ ha hp)
    exact step_of_fetch_refused hcore (andThen_refused _ hfetch)
  case unwritten =>
    have hfetch := (fetchWord_eq_loadWord ha hs).trans (loadWord_of_unwritten ha hp hn)
    exact step_of_fetch_fault hcore (andThen_fault _ hfetch)
  case undefined =>
    have hfetch := (fetchWord_eq_loadWord ha hs).trans (loadWord_of_holds ha hp hholds)
    exact step_of_fetch_fault hcore (fetchInstr_of_undefined hfetch hwhy)

end Sys2Proof.Machine
end

