-- ==== Sys2Proof/Proofs/LoadsAndStores.lean ====
section
/-! The loads, the stores and the atomics (O15 to O19, O36): each completes where its access does, so what is left is its row, the
value it writes as a number, and the bytes it stores. -/

namespace Sys2Proof.Machine

open Sys2Proof

/-! ### Loads -/

/-- A load completes where its access does, and writes the value read, extended to a word. -/
theorem completes_of_load {α : Type} {i : Instr} {s : State} {rt : Reg} {o : Answer α} {f : α → Word} {v : α} {w : Word}
    (h : exec i s = andThen o fun v => writeBack rt (f v) s) (ho : o = .next v) (hw : f v = w) :
    ∃ t, exec i s = .next t ∧ Writes s t rt w :=
  completes_of_writeBack (by rw [h, ho, andThen_of_next]) hw

/-- Settles O15: the row, and the word that the four bytes make. -/
theorem lwResult : Obligations.LwResult :=
  ⟨.of_encode (fun _ => rfl) (fun _ => rfl) (encodeI_op_eq_iff 0b100011#6),
    fun _ _ _ _ _ _ _ _ ha hp hholds => completes_of_lw (loadWord_of_holds ha hp hholds)⟩

/-- A halfword as a signed number: its upper byte counts with its sign (20_memory R40, 44_loads_stores R162). -/
theorem toInt_littleEndian_half (b0 b1 : Byte) :
    (BitVec.ofNat 16 (littleEndian [b0, b1])).toInt = b0.toNat + 256 * b1.toInt := by
  have h0 := b0.isLt
  have h1 := b1.isLt
  simp only [BitVec.toInt_eq_toNat_cond, BitVec.toNat_ofNat, littleEndian]
  split <;> split <;> omega

/-- A loaded halfword as a signed value (44_loads_stores R162). -/
theorem sextHalf_littleEndian (b0 b1 : Byte) :
    sextHalf (BitVec.ofNat 16 (littleEndian [b0, b1])) = BitVec.ofInt 32 (b0.toNat + 256 * b1.toInt) := by
  rw [← toInt_littleEndian_half]; rfl

/-- A loaded halfword as an unsigned value (44_loads_stores R163). -/
theorem zextHalf_littleEndian (b0 b1 : Byte) :
    zextHalf (BitVec.ofNat 16 (littleEndian [b0, b1])) = BitVec.ofNat 32 (b0.toNat + 256 * b1.toNat) := by
  have h0 := b0.isLt
  have h1 := b1.isLt
  apply BitVec.eq_of_toNat_eq
  simp only [zextHalf, BitVec.toNat_setWidth, BitVec.toNat_ofNat, littleEndian]
  omega

/-- Settles O16: the rows, and the two extensions of the halfword. -/
theorem lhLhuResults : Obligations.LhLhuResults := by
  refine ⟨.of_encode (fun _ => rfl) (fun _ => rfl) (encodeI_op_eq_iff 0b100001#6),
    .of_encode (fun _ => rfl) (fun _ => rfl) (encodeI_op_eq_iff 0b100101#6),
    fun rs rt imm s b0 b1 ha hp h0 h1 => ⟨?lh, ?lhu⟩⟩
  case lh => exact completes_of_load rfl (loadHalf_of_holds ha hp h0 h1) (sextHalf_littleEndian b0 b1)
  case lhu => exact completes_of_load rfl (loadHalf_of_holds ha hp h0 h1) (zextHalf_littleEndian b0 b1)

/-- Settles O17: the rows, and the two extensions of the byte. -/
theorem lbLbuResults : Obligations.LbLbuResults := by
  refine ⟨.of_encode (fun _ => rfl) (fun _ => rfl) (encodeI_op_eq_iff 0b100000#6),
    .of_encode (fun _ => rfl) (fun _ => rfl) (encodeI_op_eq_iff 0b100100#6), fun rs rt imm s b hp h => ⟨?lb, ?lbu⟩⟩
  case lb => exact completes_of_load (f := sextByte) rfl (loadByte_of_holds hp h) rfl
  case lbu => exact completes_of_load (f := zextByte) rfl (loadByte_of_holds hp h) (BitVec.ofNat_toNat 32 b).symm

/-! ### Stores -/

/-- A store completes at an aligned address over placed memory, and stores the low bytes of the register. -/
theorem completes_of_store {i : Instr} {s : State} {width : Width} {a v : Word} {bytes : List Byte}
    (h : exec i s = andThen (store width a v s) fun u => .next u.advance) (ha : a.toNat % widthBytes width = 0)
    (hp : Placed s.params a (widthBytes width)) (hbytes : storedBytes width v = bytes) :
    ∃ t, exec i s = .next t ∧ Stores s t a bytes :=
  ⟨_, by rw [h, store_of_placed v ha hp, andThen_of_next], hbytes ▸ Stores.put s width a v⟩

theorem storedBytes_word (v : Word) :
    storedBytes .word v = [BitVec.ofNat 8 v.toNat, BitVec.ofNat 8 (v.toNat / 2 ^ 8), BitVec.ofNat 8 (v.toNat / 2 ^ 16),
      BitVec.ofNat 8 (v.toNat / 2 ^ 24)] := by
  simp [storedBytes, widthBytes, List.range_succ]

theorem storedBytes_half (v : Word) :
    storedBytes .half v = [BitVec.ofNat 8 v.toNat, BitVec.ofNat 8 (v.toNat / 2 ^ 8)] := by
  simp [storedBytes, widthBytes, List.range_succ]

theorem storedBytes_byte (v : Word) : storedBytes .byte v = [BitVec.ofNat 8 v.toNat] := by
  simp [storedBytes, widthBytes]

/-- Settles O18: the row, and the four bytes of the register. -/
theorem swStores : Obligations.SwStores :=
  ⟨.of_encode (fun _ => rfl) (fun _ => rfl) (encodeI_op_eq_iff 0b101011#6),
    fun _ _ _ _ ha hp => completes_of_store rfl ha hp (storedBytes_word _)⟩

/-- Settles O19: the rows, and the low two bytes or the low byte of the register. -/
theorem shSbStores : Obligations.ShSbStores := by
  refine ⟨.of_encode (fun _ => rfl) (fun _ => rfl) (encodeI_op_eq_iff 0b101001#6),
    .of_encode (fun _ => rfl) (fun _ => rfl) (encodeI_op_eq_iff 0b101000#6),
    fun rs rt imm s => ⟨fun ha hp => ?sh, fun hp => ?sb⟩⟩
  case sh => exact completes_of_store rfl ha hp (storedBytes_half _)
  case sb => exact completes_of_store rfl (Nat.mod_one _) hp (storedBytes_byte _)

/-! ### Atomics -/

/-- An atomic update of a placed word that holds a value completes: the register receives the old word, memory the new one, and
nothing else changes (47_cond_moves_amo_sync R202). -/
theorem completes_of_atomicUpdate {i : Instr} {f : Word → Word → Word} {s : State} {rs rt rd : Reg} {old new : Word}
    (h : exec i s = atomicUpdate f rs rt rd s) (hload : loadWord (s.gpr rs) s = .next old)
    (hnew : f old (s.gpr rt) = new) :
    ∃ t, exec i s = .next t ∧ GprBecomes s t rd old ∧ GoesOn s t ∧
      MemoryGets s t (s.gpr rs) (storedBytes .word new) ∧ SameSpecial s t ∧ SameOutside s t := by
  obtain ⟨haligned, hbacked, hword⟩ := loadWord_next.1 hload
  have hmem := MemoryGets.put s .word (s.gpr rs) new
  refine ⟨((s.put .word (s.gpr rs) new).setGpr rd old).advance,
    h.trans (atomicUpdate_next.2 ⟨old, haligned, hbacked, hword, hnew ▸ rfl⟩), fun q => ?_, .advance (by simp),
    ⟨hmem.stored, hmem.others, hmem.storedTo⟩, ⟨by simp, by simp, by simp, by simp, by simp, by simp⟩,
    ⟨by simp, by simp, by simp⟩⟩
  rw [State.advance_gpr, State.setGpr_gpr, State.put_gpr]

/-- Settles O36: the three rows, and `completes_of_atomicUpdate` with each of the three functions. -/
theorem atomicUpdateResults : Obligations.AtomicUpdateResults := by
  refine ⟨.of_encode (fun _ => rfl) (fun _ => rfl) (encodeR_zero_sa_eq_iff 0b100111#6 0b000010#6),
    .of_encode (fun _ => rfl) (fun _ => rfl) (encodeR_zero_sa_eq_iff 0b100111#6 0b000011#6),
    .of_encode (fun _ => rfl) (fun _ => rfl) (encodeR_zero_sa_eq_iff 0b100111#6 0b000100#6),
    fun rs rt rd s b0 b1 b2 b3 old i new ha hp hholds hold hi => ?_⟩
  have hload : loadWord (s.gpr rs) s = .next old := hold ▸ loadWord_of_holds ha hp hholds
  rw [← storedBytes_word]
  rcases hi with ⟨rfl, hnew⟩ | ⟨rfl, hnew⟩ | ⟨rfl, hnew⟩
  · exact completes_of_atomicUpdate rfl hload ((BitVec.add_def ..).trans hnew.symm)
  · exact completes_of_atomicUpdate rfl hload hnew.symm
  · exact completes_of_atomicUpdate rfl hload hnew.symm

end Sys2Proof.Machine
end

