-- ==== Sys2Proof/Proofs/CompareShiftDivide.lean ====
section
/-! Comparisons, arithmetic shifts, divisions and remainders (O22, O24, O26, O27, O28): each ends in `writeBack`, so what is left
is its row and the value it writes; the identity of quotient and remainder is then one about those values. -/

namespace Sys2Proof.Machine

open Sys2Proof

/-! ### Comparisons -/

/-- A comparison's result: 1 where it holds, else 0 (D24). -/
theorem boolWord_decide (P : Prop) [Decidable P] : boolWord (decide P) = if P then 1 else 0 := by
  by_cases h : P <;> simp [boolWord, h]

/-- `sext_32(imm)` as a signed number is the signed immediate (30_encoding R78). -/
theorem sextImm_toInt (imm : BitVec 16) : (sextImm imm).toInt = imm.toInt :=
  BitVec.toInt_signExtend_of_le (by decide)

/-- `sext_32(imm)` as an unsigned number is the signed immediate modulo 2^32 (30_encoding R78, 43_reg_imm_arith R145). -/
theorem sextImm_toNat (imm : BitVec 16) : ((sextImm imm).toNat : Int) = imm.toInt % 2 ^ 32 :=
  ofInt_toNat_eq_emod imm.toInt

/-- Settles O22: the four rows, and the comparison of the two operands as numbers. -/
theorem setLessThanResults : Obligations.SetLessThanResults := by
  refine ⟨.of_encode (fun _ => rfl) (fun _ => rfl) (encodeR_zero_sa_eq_iff 0b000000#6 0b101010#6),
    .of_encode (fun _ => rfl) (fun _ => rfl) (encodeR_zero_sa_eq_iff 0b000000#6 0b101011#6),
    .of_encode (fun _ => rfl) (fun _ => rfl) (encodeI_op_eq_iff 0b001010#6),
    .of_encode (fun _ => rfl) (fun _ => rfl) (encodeI_op_eq_iff 0b001011#6),
    fun rs rt rd imm s => ⟨?slt, ?sltu, ?slti, ?sltiu⟩⟩
  case slt => exact completes_of_writeBack rfl (boolWord_decide _)
  case sltu => exact completes_of_writeBack rfl (boolWord_decide _)
  case slti =>
    rw [← sextImm_toInt]
    exact completes_of_writeBack rfl (boolWord_decide _)
  case sltiu =>
    simp only [← sextImm_toNat, Nat.cast_lt]
    exact completes_of_writeBack rfl (boolWord_decide _)

/-! ### Arithmetic shifts -/

/-- An arithmetic shift right divides the signed value and rounds down (41_reg_reg_arith R119, 43_reg_imm_arith R148). -/
theorem sshiftRight_eq_floor (v : Word) (k : Nat) : v.sshiftRight k = BitVec.ofInt 32 ⌊(v.toInt : ℚ) / 2 ^ k⌋ := by
  have hfloor : ⌊(v.toInt : ℚ) / 2 ^ k⌋ = v.toInt / (2 ^ k : Nat) := by
    rw [← Rat.floor_intCast_div_natCast]; norm_cast
  rw [hfloor, ← Int.shiftRight_eq_div_pow]
  rfl

/-- Settles O24: the two rows, and the shifted word as a rounded quotient. -/
theorem arithmeticShiftResults : Obligations.ArithmeticShiftResults := by
  refine ⟨.of_encode (fun _ => rfl) (fun _ => rfl) (encodeR_zero_sa_eq_iff 0b000000#6 0b000111#6),
    .of_encode (fun _ => rfl) (fun _ => rfl) (encodeR_zero_rs_eq_iff 0b000000#6 0b000011#6),
    fun rs rt rd sa s => ⟨?srav, ?sra⟩⟩
  case srav => exact completes_of_writeBack rfl (shiftAmount_eq (s.gpr rs) ▸ sshiftRight_eq_floor ..)
  case sra => exact completes_of_writeBack rfl (sshiftRight_eq_floor ..)

/-! ### Quotients and remainders -/

/-- The quotient by a natural number without its fraction (42_muldiv R131). -/
theorem truncQ_div_natCast (a : Int) (n : Nat) : truncQ ((a : ℚ) / n) = a.tdiv n := by
  unfold truncQ
  split
  case isTrue hnonneg =>
    rw [Rat.floor_intCast_div_natCast]
    rcases Nat.eq_zero_or_pos n with rfl | hn
    · simp
    · have hn' : (0 : ℚ) < n := by exact_mod_cast hn
      have ha : 0 ≤ a := by
        rw [le_div_iff₀ hn', zero_mul] at hnonneg
        exact_mod_cast hnonneg
      rw [Int.tdiv_eq_ediv_of_nonneg ha]
  case isFalse hneg =>
    have ha : 0 ≤ -a := by
      by_contra hpos
      have hpos : (0 : ℚ) ≤ a := by exact_mod_cast (by omega : 0 ≤ a)
      exact hneg (div_nonneg hpos (Nat.cast_nonneg n))
    have hceil : ⌈(a : ℚ) / n⌉ = -⌊((-a : Int) : ℚ) / n⌋ := by
      rw [← Int.ceil_neg, Int.cast_neg, neg_div, neg_neg]
    rw [hceil, Rat.floor_intCast_div_natCast, ← Int.tdiv_eq_ediv_of_nonneg ha, Int.neg_tdiv, neg_neg]

/-- The quotient of two integers without its fraction is the one rounded toward zero (42_muldiv R131, D26). -/
theorem truncQ_div (a b : Int) : truncQ ((a : ℚ) / b) = a.tdiv b := by
  obtain ⟨n, rfl | rfl⟩ := b.eq_nat_or_neg
  · exact truncQ_div_natCast a n
  · have hflip : (a : ℚ) / ((-(n : Int) : Int) : ℚ) = ((-a : Int) : ℚ) / n := by
      push_cast; rw [div_neg, neg_div]
    rw [hflip, truncQ_div_natCast, Int.neg_tdiv, Int.tdiv_neg]

/-- The operands whose quotient and remainder the source leaves open (42_muldiv R131). -/
theorem signedCorner_iff {a b : Word} :
    signedCorner a b = true ↔ b.toInt = 0 ∨ (a.toInt = -2 ^ 31 ∧ b.toInt = -1) := by
  simp [signedCorner]

theorem unsignedCorner_iff {b : Word} : unsignedCorner b = true ↔ b.toNat = 0 := decide_eq_true_iff

/-- Settles O26: the two rows, and the quotient toward zero as the quotient without its fraction. -/
theorem divRemResults : Obligations.DivRemResults := by
  refine ⟨.of_encode (fun _ => rfl) (fun _ => rfl) (encodeR_zero_sa_eq_iff 0b100111#6 0b000101#6),
    .of_encode (fun _ => rfl) (fun _ => rfl) (encodeR_zero_sa_eq_iff 0b100111#6 0b000110#6), ?_⟩
  rintro rs rt rd s a b rfl rfl
  simp only [truncQ_div, ← signedCorner_iff]
  exact ⟨completes_of_writeBack rfl rfl, completes_of_writeBack rfl rfl⟩

/-- Settles O27: the two rows, and the unsigned quotient and remainder. -/
theorem divuRemuResults : Obligations.DivuRemuResults := by
  refine ⟨.of_encode (fun _ => rfl) (fun _ => rfl) (encodeR_zero_sa_eq_iff 0b100111#6 0b000111#6),
    .of_encode (fun _ => rfl) (fun _ => rfl) (encodeR_zero_sa_eq_iff 0b100111#6 0b001000#6), ?_⟩
  rintro rs rt rd s a b rfl rfl
  simp only [← unsignedCorner_iff]
  exact ⟨completes_of_writeBack rfl rfl, completes_of_writeBack rfl rfl⟩

/-! ### The identity of quotient and remainder -/

/-- A word of a signed 32-bit integer reads back as it. -/
theorem ofInt_toInt_of_range {n : Int} (hlow : -2 ^ 31 ≤ n) (hhigh : n < 2 ^ 31) : (BitVec.ofInt 32 n).toInt = n := by
  rw [BitVec.toInt_ofInt]
  exact Int.bmod_eq_of_le (by omega) (by omega)

/-- The signed value of a word is in the 32-bit range. -/
theorem toInt_range (v : Word) : -2 ^ 31 ≤ v.toInt ∧ v.toInt < 2 ^ 31 := by
  have h := v.isLt
  rw [BitVec.toInt_eq_toNat_cond]
  split <;> omega

/-- A word is zero as a signed number exactly when it is as an unsigned one. -/
theorem toInt_eq_zero_iff {v : Word} : v.toInt = 0 ↔ v.toNat = 0 := by
  have h := v.isLt
  rw [BitVec.toInt_eq_toNat_cond]
  split <;> omega

/-- Outside the corners the signed quotient fits in a word (42_muldiv R131): only a divisor of magnitude 1 keeps the magnitude
of the dividend. -/
theorem divWord_toInt {a b : Word} (hb : b.toInt ≠ 0) (h : ¬(a.toInt = -2 ^ 31 ∧ b.toInt = -1)) :
    (divWord a b).toInt = a.toInt.tdiv b.toInt := by
  rw [divWord, if_neg (fun hc => (signedCorner_iff.1 hc).elim hb h)]
  obtain ⟨hlow, hhigh⟩ := toInt_range a
  have habs : (a.toInt.tdiv b.toInt).natAbs = a.toInt.natAbs / b.toInt.natAbs := Int.natAbs_tdiv ..
  have hle : a.toInt.natAbs / b.toInt.natAbs ≤ a.toInt.natAbs := Nat.div_le_self ..
  refine ofInt_toInt_of_range (by omega) ?_
  rcases (by omega : b.toInt = 1 ∨ b.toInt = -1 ∨ 2 ≤ b.toInt.natAbs) with hone | hminus | htwo
  · rw [hone, Int.tdiv_one]; exact hhigh
  · rw [hminus, Int.tdiv_neg, Int.tdiv_one]; omega
  · have hhalf : a.toInt.natAbs / b.toInt.natAbs ≤ a.toInt.natAbs / 2 := Nat.div_le_div_left htwo (by decide)
    omega

/-- The remainder is smaller in magnitude than the divisor (42_muldiv R133). -/
theorem natAbs_tmod_lt (a : Int) {b : Int} (hb : b ≠ 0) : (a.tmod b).natAbs < b.natAbs := by
  rw [Int.natAbs_tmod]; exact Nat.mod_lt _ (Int.natAbs_pos.2 hb)

/-- The remainder is zero or has the sign of the dividend (42_muldiv R133, D26). -/
theorem tmod_sign (a b : Int) : a.tmod b = 0 ∨ (a.tmod b < 0 ↔ a < 0) := by
  rcases le_or_gt 0 a with hpos | hneg
  · have hrem : 0 ≤ a.tmod b := Int.tmod_nonneg b hpos
    omega
  · have hrem : 0 ≤ (-a).tmod b := Int.tmod_nonneg b (by omega)
    rw [Int.neg_tmod] at hrem
    omega

/-- Outside the corners the remainder fits in a word (42_muldiv R133). -/
theorem remWord_toInt {a b : Word} (hb : b.toInt ≠ 0) (h : ¬(a.toInt = -2 ^ 31 ∧ b.toInt = -1)) :
    (remWord a b).toInt = a.toInt.tmod b.toInt := by
  rw [remWord, if_neg (fun hc => (signedCorner_iff.1 hc).elim hb h), ← Int.tmod_def]
  obtain ⟨hlow, hhigh⟩ := toInt_range b
  have hlt : (a.toInt.tmod b.toInt).natAbs < b.toInt.natAbs := natAbs_tmod_lt _ hb
  exact ofInt_toInt_of_range (by omega) (by omega)

/-- The unsigned quotient and remainder fit in a word (42_muldiv R132, R134). -/
theorem divuWord_toNat {a b : Word} (hb : b.toNat ≠ 0) : (divuWord a b).toNat = a.toNat / b.toNat := by
  rw [divuWord, if_neg (fun hc => hb (unsignedCorner_iff.1 hc)), BitVec.toNat_ofNat]
  exact Nat.mod_eq_of_lt ((Nat.div_le_self ..).trans_lt a.isLt)

theorem remuWord_toNat {a b : Word} (hb : b.toNat ≠ 0) : (remuWord a b).toNat = a.toNat % b.toNat := by
  rw [remuWord, if_neg (fun hc => hb (unsignedCorner_iff.1 hc)), BitVec.toNat_ofNat]
  exact Nat.mod_eq_of_lt ((Nat.mod_le ..).trans_lt a.isLt)

/-- The register that `writeBack` wrote, if it is not `r0`, reads the value written. -/
theorem gpr_of_writeBack {d : Reg} {v : Word} {s t : State} (hd : d ≠ 0#5) (h : writeBack d v s = .next t) :
    t.gpr d = v := by
  cases h
  rw [State.advance_gpr, State.setGpr_gpr, if_neg hd, if_pos rfl]

/-- Settles O28: the two instructions write the quotient toward zero and its remainder, which satisfy the identity. -/
theorem divisionIdentity : Obligations.DivisionIdentity := by
  refine fun rs rt rd s t u hd hb => ⟨fun hcorner hdiv hrem => ?signed, fun hdiv hrem => ?unsigned⟩
  case signed =>
    have hb' : (s.gpr rt).toInt ≠ 0 := fun h => hb (toInt_eq_zero_iff.1 h)
    rw [gpr_of_writeBack hd hdiv, gpr_of_writeBack hd hrem, divWord_toInt hb' hcorner, remWord_toInt hb' hcorner]
    refine ⟨(Int.mul_tdiv_add_tmod ..).symm, ?_, tmod_sign ..⟩
    rw [Int.abs_eq_natAbs, Int.abs_eq_natAbs]
    exact_mod_cast natAbs_tmod_lt (s.gpr rs).toInt hb'
  case unsigned =>
    rw [gpr_of_writeBack hd hdiv, gpr_of_writeBack hd hrem, divuWord_toNat hb, remuWord_toNat hb]
    exact ⟨(Nat.div_add_mod ..).symm, Nat.mod_lt _ (Nat.pos_of_ne_zero hb)⟩

end Sys2Proof.Machine
end

