-- ==== Sys2Proof/Proofs/ControlAndExceptions.lean ====
section
/-! Jumps to a register, the branches on a sign, conditional moves, `nop` and `sync`, and the exception instructions (O32, O34,
O35, O37 to O40): each answers one state where it completes, so what is left is its row and the condition. -/

namespace Sys2Proof

/-! ### Rows with more fixed fields -/

/-- The words of `jr`'s row: all but `rs` is fixed (45_jumps R182). -/
theorem encodeR_only_rs_eq_iff (op cmd : BitVec 6) (w : Word) :
    encodeR op (fieldRs w) 0#5 0#5 0#5 cmd = w ↔ w &&& 0xFC1FFFFF#32 = encodeR op 0#5 0#5 0#5 0#5 cmd := by
  have hmask : 0xFC1FFFFF#32 = encodeR 63#6 0#5 31#5 31#5 31#5 63#6 := rfl
  rw [encodeR_eq_iff, hmask, and_eq_encodeR]
  simp [eq_comm]

/-- The words of `jalr`'s row: all but `rs` and `rd` is fixed (45_jumps R183). -/
theorem encodeR_rs_rd_eq_iff (op cmd : BitVec 6) (w : Word) :
    encodeR op (fieldRs w) 0#5 (fieldRd w) 0#5 cmd = w ↔ w &&& 0xFC1F07FF#32 = encodeR op 0#5 0#5 0#5 0#5 cmd := by
  have hmask : 0xFC1F07FF#32 = encodeR 63#6 0#5 31#5 0#5 31#5 63#6 := rfl
  rw [encodeR_eq_iff, hmask, and_eq_encodeR]
  simp [eq_comm]

end Sys2Proof

namespace Sys2Proof.Machine

open Sys2Proof

/-- The row of an instruction without operands: its one word. -/
theorem IsRow.of_one_word {pattern : Word} {v : Version} {i : Instr} (hwf : i.wellFormed = true) (hver : i.version = v)
    (henc : encode i = pattern) : IsRow 0xFFFFFFFF#32 pattern v fun _ => i :=
  .of_encode (fun _ => hwf) (fun _ => hver) fun w => by
    have hmask : w &&& 0xFFFFFFFF#32 = w := BitVec.and_allOnes
    rw [hmask, henc, eq_comm]

/-! ### Jumps to a register -/

/-- A jump to an aligned address completes. -/
theorem jumpTo_of_aligned {target : Word} (s : State) (h : target.toNat % 4 = 0) :
    jumpTo target s = .next (s.setPc target) := by
  rw [jumpTo_eq, if_pos (isAligned_iff.2 h)]

/-- A jump to a misaligned address faults (20_memory R49). -/
theorem jumpTo_of_misaligned {target : Word} (s : State) (h : target.toNat % 4 ≠ 0) :
    jumpTo target s = .fault (.misalignedTarget target) := by
  rw [jumpTo_eq, isAligned_false_iff.2 h]; rfl

/-- `jalr` with different registers is a jump that links (45_jumps R183). -/
theorem exec_jalr_of_ne {rs rd : Reg} (s : State) (h : rs ≠ rd) :
    exec (.jalr rs rd) s = jumpTo (s.gpr rs) (s.setGpr rd s.pcPlus4) := if_neg h

/-- Settles O32: the two rows, `jalr`'s check of its registers, and `jumpTo` with its check of the target. -/
theorem jrAndJalrResults : Obligations.JrAndJalrResults := by
  refine ⟨.of_encode (fun _ => rfl) (fun _ => rfl) (encodeR_only_rs_eq_iff 0b000000#6 0b001000#6),
    .of_encode (fun _ => rfl) (fun _ => rfl) (encodeR_rs_rd_eq_iff 0b000000#6 0b001001#6), fun rs rd s =>
    ⟨fun ha => ?jr, fun ha => ?jrMisaligned, fun heq => ?same, fun hne ha => ?jalrMisaligned, fun hne ha => ?jalr⟩⟩
  case jr => exact ⟨_, jumpTo_of_aligned s ha, .setPc ..⟩
  case jrMisaligned => exact jumpTo_of_misaligned s ha
  case same => exact if_pos heq
  case jalrMisaligned => rw [exec_jalr_of_ne s hne, jumpTo_of_misaligned _ ha]
  case jalr => exact completes_of_link ((exec_jalr_of_ne s hne).trans (jumpTo_of_aligned _ ha))

/-! ### Branches on a sign -/

theorem isNegative_iff {v : Word} : isNegative v = true ↔ v.toInt < 0 := decide_eq_true_iff

theorem not_isNegative_iff {v : Word} : (!isNegative v) = true ↔ 0 ≤ v.toInt := by
  simp [isNegative]

theorem not_isPositive_iff {v : Word} : (!isPositive v) = true ↔ v.toInt ≤ 0 := by
  simp [isPositive]

/-- Settles O34: the three rows, and `branchIf` of each condition on the signed value. -/
theorem bltzBgezBlezResults : Obligations.BltzBgezBlezResults := by
  refine ⟨.of_encode (fun _ => rfl) (fun _ => rfl) (encodeI_fixed_rt_eq_iff 0b000001#6 0b00000#5),
    .of_encode (fun _ => rfl) (fun _ => rfl) (encodeI_fixed_rt_eq_iff 0b000001#6 0b00001#5),
    .of_encode (fun _ => rfl) (fun _ => rfl) (encodeI_fixed_rt_eq_iff 0b000110#6 0b00000#5),
    fun rs imm s target next htarget hnext => ?_⟩
  obtain rfl : target = branchTarget imm s := htarget.trans (branchTarget_eq_ofInt imm s).symm
  obtain rfl : next = s.pcPlus4 := hnext.trans (pcPlus4_eq s).symm
  refine ⟨?bltz, ?bgez, ?blez⟩
  case bltz => exact completes_of_branchIf rfl isNegative_iff
  case bgez => exact completes_of_branchIf rfl not_isNegative_iff
  case blez => exact completes_of_branchIf rfl not_isPositive_iff

/-! ### Conditional moves, `nop` and `sync` -/

/-- Going on to the next instruction changes `pc` only. -/
theorem OnlyPc.advance (s : State) : OnlyPc s s.advance (BitVec.ofNat 32 (s.pc.toNat + 4)) :=
  pcPlus4_eq s ▸ .setPc s s.pcPlus4

/-- Settles O35: the two rows, and the two branches of each condition. -/
theorem conditionalMoveResults : Obligations.ConditionalMoveResults := by
  refine ⟨.of_encode (fun _ => rfl) (fun _ => rfl) (encodeR_zero_sa_eq_iff 0b000000#6 0b001011#6),
    .of_encode (fun _ => rfl) (fun _ => rfl) (encodeR_zero_sa_eq_iff 0b000000#6 0b001010#6), fun rs rt rd s => ?_⟩
  by_cases hzero : s.gpr rt = 0#32
  case pos =>
    exact ⟨s.advance, _, if_neg (not_not.2 hzero), if_pos hzero, fun hne => absurd hzero hne,
      fun _ => ⟨.advance s, .writeBack ..⟩⟩
  case neg =>
    exact ⟨_, s.advance, if_pos hzero, if_neg hzero, fun _ => ⟨.writeBack .., .advance s⟩, fun heq => absurd heq hzero⟩

/-- Settles O37: the two words, and `advance`. -/
theorem nopAndSyncOnlyAdvance : Obligations.NopAndSyncOnlyAdvance :=
  ⟨.of_one_word rfl rfl rfl, .of_one_word rfl rfl rfl, fun s => ⟨⟨_, rfl, .advance s⟩, ⟨_, rfl, .advance s⟩⟩⟩

/-! ### Exceptions -/

/-- `EXC_VECTOR` as a number (60_exceptions R263). -/
theorem vectorAddress_toNat (vector : BitVec 30) : (vectorAddress vector).toNat = vector.toNat * 4 := by
  change (vector ++ 0#2 : BitVec (30 + 2)).toNat = _
  rw [BitVec.toNat_append, BitVec.toNat_zero, Nat.or_zero, Nat.shiftLeft_eq]

/-- What taking an exception leaves unchanged: all but `pc` and `epc` (60_exceptions R263). -/
theorem takeException_frame (vector : BitVec 30) (rule : SyscallEpc) (s : State) :
    SameGprs s (takeException vector rule s) ∧ SameCp0 s (takeException vector rule s) ∧
      SameMemory s (takeException vector rule s) ∧ SameOutside s (takeException vector rule s) :=
  ⟨fun _ => rfl, ⟨rfl, rfl, rfl, rfl, rfl⟩, ⟨fun _ => rfl, rfl⟩, ⟨rfl, rfl, rfl⟩⟩

/-- Settles O38: the word, the entry where the launch gives both parameters, and the fault where one is missing. -/
theorem syscallEntry : Obligations.SyscallEntry := by
  refine ⟨.of_one_word rfl rfl rfl, fun s => ⟨fun vector rule hvector hrule => ?entry, fun hmissing => ?fault⟩⟩
  case entry =>
    refine ⟨takeException vector rule s, execSyscall_next.2 ⟨vector, rule, hvector, hrule, rfl⟩,
      vectorAddress_toNat vector, ?_, ?_, takeException_frame vector rule s⟩
    · rintro rfl; rfl
    · rintro rfl; exact pcPlus4_toNat s
  case fault =>
    change execSyscall s = _
    unfold execSyscall
    rcases hmissing with h | h <;> simp only [h]
    cases s.params.excVector <;> rfl

/-- Settles O39: `eret` is a jump to an aligned address. -/
theorem eretReturns : Obligations.EretReturns :=
  fun s ha => ⟨s.setPc s.epc, jumpTo_of_aligned s ha, .setPc s s.epc⟩

/-- Settles O40: entry saves an aligned address in `epc`, to which `eret` then jumps; neither changes anything else. -/
theorem syscallThenEret : Obligations.SyscallThenEret := by
  refine ⟨.of_one_word rfl rfl rfl, fun s ha => jumpTo_of_misaligned s ha, fun s t rule ha hrule hsyscall => ?_⟩
  obtain ⟨vector, rule', -, hrule', rfl⟩ := execSyscall_next.1 hsyscall
  obtain rfl : rule' = rule := Option.some.inj (hrule'.symm.trans hrule)
  obtain ⟨hgprs, hcp0, hmem, houtside⟩ := takeException_frame vector rule' s
  refine ⟨(takeException vector rule' s).setPc (returnAddress rule' s),
    jumpTo_of_aligned _ (returnAddress_aligned ha rule'), ?_, ?_, rfl, hgprs,
    ⟨hcp0.statsEn, hcp0.mngr2proc, hcp0.proc2mngr, hcp0.proc2mngrReady, hcp0.received⟩,
    ⟨hmem.bytes, hmem.storedTo⟩, ⟨houtside.xcels, houtside.turns, houtside.params⟩⟩
  · rintro rfl; rfl
  · rintro rfl; exact pcPlus4_toNat s

end Sys2Proof.Machine
end

