-- ==== Sys2Proof/Proofs/Cop0AndAccelerators.lean ====
section
/-! Coprocessor 0 (O45 to O48) and the accelerator moves (O49, O50). A coprocessor-0 access is decided by the register that its
number names (`cp0Named`); an accelerator move by whether the accelerator is there and whether it makes the move wait. -/

namespace Sys2Proof

/-! ### Rows -/

/-- The words of a coprocessor-0 move: all but `rt` and `rd` is fixed (30_encoding R77). -/
theorem encodeR_rt_rd_eq_iff (op : BitVec 6) (sub : BitVec 5) (w : Word) :
    encodeR op sub (fieldRt w) (fieldRd w) 0#5 0#6 = w ↔ w &&& 0xFFE007FF#32 = encodeR op sub 0#5 0#5 0#5 0#6 := by
  have hmask : 0xFFE007FF#32 = encodeR 63#6 31#5 0#5 0#5 31#5 63#6 := rfl
  rw [encodeR_eq_iff, hmask, and_eq_encodeR]
  simp [eq_comm]

/-- A word of COP2-Type layout is `w` exactly when its fields are those of `w`. -/
theorem encodeX_eq_iff {w : Word} {op : BitVec 6} {rs rt mt : BitVec 5} {accelId : BitVec 11} :
    encodeX op rs rt mt accelId = w ↔
      op = fieldOp w ∧ rs = fieldRs w ∧ rt = fieldRt w ∧ mt = fieldRd w ∧ accelId = fieldAccelId w := by
  conv_lhs => rw [← encodeX_fields w, encodeX_inj]

/-- The words of an accelerator move with an immediate id: `op` and `mt` are fixed (30_encoding R76). -/
theorem encodeX_mt_eq_iff (op : BitVec 6) (mt : BitVec 5) (w : Word) :
    encodeX op (fieldRs w) (fieldRt w) mt (fieldAccelId w) = w ↔
      w &&& 0xFC00F800#32 = encodeX op 0#5 0#5 mt 0#11 := by
  have hmask : 0xFC00F800#32 = encodeX 63#6 0#5 0#5 31#5 0#11 := rfl
  rw [encodeX_eq_iff, hmask, and_eq_encodeX]
  simp [eq_comm]

/-- The words of an accelerator move with a register id: `op`, `mt` and bits 5:0 are fixed (30_encoding R76). -/
theorem encodeR_mt_eq_iff (op : BitVec 6) (mt : BitVec 5) (w : Word) :
    encodeR op (fieldRs w) (fieldRt w) mt (fieldSa w) 0#6 = w ↔
      w &&& 0xFC00F83F#32 = encodeR op 0#5 0#5 mt 0#5 0#6 := by
  have hmask : 0xFC00F83F#32 = encodeR 63#6 0#5 0#5 31#5 0#5 63#6 := rfl
  rw [encodeR_eq_iff, hmask, and_eq_encodeR]
  simp [eq_comm]

end Sys2Proof

namespace Sys2Proof.Machine

open Sys2Proof

/-! ### Reads of coprocessor 0 -/

section
variable {s : State} (rt : Reg)

/-- cpr16, cpr17 and cpr21 exist from PARCv2 on (10_state R23, R24). -/
theorem exec_mfc0_later (hv : s.params.version ≠ .parcV1) :
    exec (.mfc0 rt 16#5) s = writeBack rt s.params.numCores s ∧
      exec (.mfc0 rt 17#5) s = writeBack rt s.params.coreId s ∧ exec (.mfc0 rt 21#5) s = writeBack rt s.statsEn s := by
  have hle := Version.parcV2_le.2 hv
  refine ⟨?_, ?_, ?_⟩ <;> simp [exec, execMfc0, readCp0, cp0Named, hle]

/-- A read of cpr1 with a word there takes the head (10_state R18). -/
theorem exec_mfc0_cpr1 {w : Word} {rest : List Word} (h : s.mngr2proc = w :: rest) :
    exec (.mfc0 rt 1#5) s = .next ((s.setMngr2proc rest).setGpr rt w).advance :=
  (readCp0_next (n := 1#5)).2 (.inr (.inl ⟨w, rest, rfl, h, rfl⟩))

end

/-- Settles O45: the row, the head of the FIFO for cpr1, and the parameter or cpr21 for the other three. -/
theorem mfc0Results : Obligations.Mfc0Results := by
  refine ⟨.of_encode (fun _ => rfl) (fun _ => rfl) (encodeR_rt_rd_eq_iff 0b010000#6 0b00000#5), fun rt s =>
    ⟨fun w rest hqueue => ?cpr1, fun hv => ?later, fun hcores hv hrt t u hnum hid => ?cores⟩⟩
  case cpr1 =>
    exact ⟨_, exec_mfc0_cpr1 rt hqueue, GprBecomes.setGpr (s.setMngr2proc rest) rt w, .advance rfl, rfl, rfl, rfl, rfl, rfl,
      rfl, ⟨fun _ => rfl, rfl⟩, ⟨rfl, rfl, rfl⟩⟩
  case later =>
    obtain ⟨hnum, hid, hstats⟩ := exec_mfc0_later rt hv
    exact ⟨completes_of_writeBack hnum rfl, completes_of_writeBack hid rfl, completes_of_writeBack hstats rfl⟩
  case cores =>
    obtain ⟨hnum', hid', -⟩ := exec_mfc0_later rt hv
    rw [gpr_of_writeBack hrt (hnum'.symm.trans hnum), gpr_of_writeBack hrt (hid'.symm.trans hid)]
    exact hcores

/-! ### Writes of coprocessor 0 -/

/-- A write of a ready cpr2 queues the word (10_state R19). -/
theorem exec_mtc0_cpr2 (rt : Reg) {s : State} (h : s.proc2mngrReady = true) :
    exec (.mtc0 rt 2#5) s = .next (s.enqueue (s.gpr rt)).advance :=
  (writeCp0_next (n := 2#5)).2 (.inl ⟨rfl, h, rfl⟩)

/-- A write of cpr21, from PARCv2 on, stores the word (10_state R20). -/
theorem exec_mtc0_cpr21 (rt : Reg) {s : State} (hv : s.params.version ≠ .parcV1) :
    exec (.mtc0 rt 21#5) s = .next (s.setStatsEn (s.gpr rt)).advance :=
  writeCp0_next.2 (.inr (.inr ⟨if_pos (Version.parcV2_le.2 hv), rfl⟩))

/-- Settles O46: the row, and the two writes. -/
theorem mtc0Results : Obligations.Mtc0Results := by
  refine ⟨.of_encode (fun _ => rfl) (fun _ => rfl) (encodeR_rt_rd_eq_iff 0b010000#6 0b00100#5), fun rt s =>
    ⟨fun hready => ?cpr2, fun hv => ?cpr21⟩⟩
  case cpr2 =>
    exact ⟨_, exec_mtc0_cpr2 rt hready, rfl, .advance rfl, fun _ => rfl, rfl, rfl, rfl, rfl, rfl, ⟨fun _ => rfl, rfl⟩,
      ⟨rfl, rfl, rfl⟩⟩
  case cpr21 =>
    exact ⟨_, exec_mtc0_cpr21 rt hv, rfl, .advance rfl, fun _ => rfl, rfl, rfl, rfl, rfl, rfl, ⟨fun _ => rfl, rfl⟩,
      ⟨rfl, rfl, rfl⟩⟩

/-! ### Stalls -/

/-- A core's step at an instruction that must wait only takes the turn (60_exceptions R279; log 29). -/
theorem step_of_mustWait {s : State} {i : Instr} (hcore : nextAct s = none) (hfetch : fetchInstr s = .next i)
    (hwait : MustWait s.takeTurn i) : step s = .next s.takeTurn :=
  (step_of_fetch hcore hfetch).trans (exec_of_mustWait hwait)

/-- Settles O47: both accesses must wait. -/
theorem managerStalls : Obligations.ManagerStalls := by
  refine fun rt s => ⟨fun hempty => ?cpr1, fun hbusy => ?cpr2⟩
  case cpr1 =>
    exact ⟨exec_of_mustWait (.inl ⟨rt, rfl, hempty⟩),
      fun hcore hfetch => step_of_mustWait hcore hfetch (.inl ⟨rt, rfl, hempty⟩)⟩
  case cpr2 =>
    exact ⟨exec_of_mustWait (.inr (.inl ⟨rt, rfl, hbusy⟩)),
      fun hcore hfetch => step_of_mustWait hcore hfetch (.inr (.inl ⟨rt, rfl, hbusy⟩))⟩

/-! ### Undefined accesses -/

/-- A read faults where its number names no register, or the one that is only written (10_state R19, D20, D21). -/
theorem readCp0_fault {rt n : Reg} {s : State} (h : ∀ c, cp0Named s.params.version n = some c → c = .proc2mngr) :
    readCp0 rt n s = .fault (.undefinedCp0Access n) := by
  cases hc : cp0Named s.params.version n with
  | none => simp only [readCp0, hc]
  | some c =>
    obtain rfl := h c hc
    simp only [readCp0, hc]

/-- A write faults where its number names no register, or one that is only read (10_state R18, R21, R22, D20, D21). -/
theorem writeCp0_fault {rt n : Reg} {s : State}
    (h : ∀ c, cp0Named s.params.version n = some c → c ≠ .proc2mngr ∧ c ≠ .statsEn) :
    writeCp0 rt n s = .fault (.undefinedCp0Access n) := by
  cases hc : cp0Named s.params.version n with
  | none => simp only [writeCp0, hc]
  | some c =>
    obtain ⟨hqueue, hstats⟩ := h c hc
    cases c with
    | proc2mngr => exact absurd rfl hqueue
    | statsEn => exact absurd rfl hstats
    | mngr2proc | numcores | coreid => simp only [writeCp0, hc]

/-- The number of the register that a number names (10_state R17). -/
def cp0Number : Cp0 → Reg
  | .mngr2proc => 1#5
  | .proc2mngr => 2#5
  | .numcores => 16#5
  | .coreid => 17#5
  | .statsEn => 21#5

/-- A number names the register with that number, and in PARCv1 only cpr1 and cpr2 (10_state R17, R24). -/
theorem number_of_cp0Named {v : Version} {n : Reg} {c : Cp0} (h : cp0Named v n = some c) :
    n = cp0Number c ∧ (v = .parcV1 → c = .mngr2proc ∨ c = .proc2mngr) := by
  rcases cp0Named_some.1 h with ⟨rfl, rfl⟩ | ⟨rfl, rfl⟩ | ⟨hle, ⟨rfl, rfl⟩ | ⟨rfl, rfl⟩ | ⟨rfl, rfl⟩⟩
  · exact ⟨rfl, fun _ => .inl rfl⟩
  · exact ⟨rfl, fun _ => .inr rfl⟩
  all_goals exact ⟨rfl, fun hv => absurd hv (Version.parcV2_le.1 hle)⟩

/-- Settles O48: a number that names a register is that register's, so the numbers listed name none that answers. -/
theorem undefinedCp0AccessFaults : Obligations.UndefinedCp0AccessFaults := by
  refine fun rt n s => ⟨fun hn => readCp0_fault fun c hc => ?read, fun hn => writeCp0_fault fun c hc => ?write⟩
  all_goals
    obtain ⟨hnumber, hv1⟩ := number_of_cp0Named hc
    cases c <;> simp_all [cp0Number]

/-! ### Accelerators -/

section
variable {id v : Word} {n rt : Reg} {s : State}

/-- A move to or from an absent accelerator faults (D5). -/
theorem writeXcel_absent (h : xcelFind id s.xcels = none) : writeXcel id n v s = .fault (.noSuchAccelerator id) := by
  simp only [writeXcel, h]

theorem readXcel_absent (h : xcelFind id s.xcels = none) : readXcel id n rt s = .fault (.noSuchAccelerator id) := by
  simp only [readXcel, h]

variable {st : XcelState} (hfind : xcelFind id s.xcels = some st)
include hfind

/-- A move that the accelerator makes wait changes nothing (49_float_accel R249; log 30). -/
theorem writeXcel_waits (hw : st.writeWaits.getLsbD n.toNat = true) : writeXcel id n v s = .next s :=
  writeXcel_next.2 ⟨st, hfind, .inl ⟨hw, rfl⟩⟩

theorem readXcel_waits (hw : st.readWaits.getLsbD n.toNat = true) : readXcel id n rt s = .next s :=
  readXcel_next.2 ⟨st, hfind, .inl ⟨hw, rfl⟩⟩

/-- The accelerators after one that is there was given another state. -/
theorem setXcel_find (st' : XcelState) :
    xcelFind id (s.setXcel id st').xcels = some st' ∧
      ∀ q, q ≠ id → xcelFind q (s.setXcel id st').xcels = xcelFind q s.xcels := by
  simp only [State.setXcel, xcelFind_xcelPut, hfind]
  exact ⟨by simp, fun q hq => if_neg hq⟩

/-- A move to an accelerator that takes it completes: the accelerator makes `XcelWrite`, and nothing else changes but `pc`
(49_float_accel R250). -/
theorem writeXcel_completes (hw : st.writeWaits.getLsbD n.toNat = false) :
    ∃ t, writeXcel id n v s = .next t ∧ xcelFind id t.xcels = some (Config.xcelWrite id st n v) ∧
      (∀ q, q ≠ id → xcelFind q t.xcels = xcelFind q s.xcels) ∧ t.turns = s.turns ∧ t.params = s.params ∧
      GoesOn s t ∧ SameGprs s t ∧ SameSpecial s t ∧ SameMemory s t := by
  obtain ⟨hnew, hothers⟩ := setXcel_find hfind (Config.xcelWrite id st n v)
  exact ⟨_, writeXcel_next.2 ⟨st, hfind, .inr ⟨hw, rfl⟩⟩, hnew, hothers, rfl, rfl, .advance rfl, fun _ => rfl,
    ⟨rfl, rfl, rfl, rfl, rfl, rfl⟩, ⟨fun _ => rfl, rfl⟩⟩

/-- A move from an accelerator that answers completes: the accelerator makes `XcelRead`, the word goes to the register, and
nothing else changes but `pc` (49_float_accel R251). -/
theorem readXcel_completes (hw : st.readWaits.getLsbD n.toNat = false) :
    ∃ t, readXcel id n rt s = .next t ∧ xcelFind id t.xcels = some (Config.xcelReadEffect id st n) ∧
      (∀ q, q ≠ id → xcelFind q t.xcels = xcelFind q s.xcels) ∧ t.turns = s.turns ∧ t.params = s.params ∧
      GoesOn s t ∧ GprBecomes s t rt (Config.xcelReadValue id st n) ∧ SameSpecial s t ∧ SameMemory s t := by
  obtain ⟨hnew, hothers⟩ := setXcel_find hfind (Config.xcelReadEffect id st n)
  exact ⟨_, readXcel_next.2 ⟨st, hfind, .inr ⟨hw, rfl⟩⟩, hnew, hothers, rfl, rfl, .advance rfl,
    GprBecomes.setGpr (s.setXcel id _) rt _, ⟨rfl, rfl, rfl, rfl, rfl, rfl⟩, ⟨fun _ => rfl, rfl⟩⟩

end

/-- Settles O49: the two rows, and the moves of the accelerator that the immediate names. -/
theorem mtxMfxResults : Obligations.MtxMfxResults := by
  refine ⟨.of_encode (fun _ => rfl) (fun _ => rfl) (encodeX_mt_eq_iff 0b010010#6 0b00000#5),
    .of_encode (fun _ => rfl) (fun _ => rfl) (encodeX_mt_eq_iff 0b010010#6 0b00001#5), fun rs rt accelId id s hid => ?_⟩
  obtain rfl : id = immediateAccel accelId := hid.trans (immediateAccel_eq accelId).symm
  exact ⟨fun h => ⟨writeXcel_absent h, readXcel_absent h⟩, fun st hfind =>
    ⟨writeXcel_waits hfind, readXcel_waits hfind, writeXcel_completes hfind, readXcel_completes hfind⟩⟩

/-- Settles O50: the two rows, and the moves of the accelerator that the register names. -/
theorem mtxrMfxrResults : Obligations.MtxrMfxrResults := by
  refine ⟨.of_encode (fun _ => rfl) (fun _ => rfl) (encodeR_mt_eq_iff 0b010010#6 0b00010#5),
    .of_encode (fun _ => rfl) (fun _ => rfl) (encodeR_mt_eq_iff 0b010010#6 0b00011#5), ?_⟩
  rintro rs rt rAccel id s rfl
  exact ⟨fun h => ⟨writeXcel_absent h, readXcel_absent h⟩, fun st hfind =>
    ⟨writeXcel_waits hfind, readXcel_waits hfind, writeXcel_completes hfind, readXcel_completes hfind⟩⟩

end Sys2Proof.Machine
end

