-- ==== Sys2Proof/Proofs/StatsEnNoninterference.lean ====
section
/-! `stats_en` has no effect (O59): with another value in it every instruction but the two moves of cpr21 does what it did, and
then the other value stands in the next state. So this is one law per operation: it commutes with `setStatsEn`. -/

namespace Sys2Proof.Machine

open Sys2Proof

/-- The answer with another value in the next state's `stats_en`. -/
def withStatsEn (v : Word) (o : Answer State) : Answer State := andThen o fun t => .next (t.setStatsEn v)

/-- A sequence of three parts, grouped either way. -/
theorem andThen_assoc {α β γ : Type} (o : Answer α) (k : α → Answer β) (g : β → Answer γ) :
    andThen (andThen o k) g = andThen o fun a => andThen (k a) g := by
  cases o <;> rfl

section
variable (v : Word) (s : State)

/-- `stats_en` and a general register are different fields. -/
theorem writeBack_setStatsEn (d : Reg) (x : Word) : writeBack d x (s.setStatsEn v) = withStatsEn v (writeBack d x s) := rfl

theorem branchIf_setStatsEn (taken : Bool) (imm : BitVec 16) :
    branchIf taken imm (s.setStatsEn v) = withStatsEn v (branchIf taken imm s) := by
  cases taken <;> rfl

theorem jumpTo_setStatsEn (target : Word) : jumpTo target (s.setStatsEn v) = withStatsEn v (jumpTo target s) := by
  rw [jumpTo_eq, jumpTo_eq]
  split <;> rfl

/-- A part that does not look at `stats_en`, and then one that commutes with it. -/
theorem andThen_setStatsEn {α : Type} (o : Answer α) {k k' : α → Answer State} (h : ∀ a, k' a = withStatsEn v (k a)) :
    andThen o k' = withStatsEn v (andThen o k) := by
  rw [withStatsEn, andThen_assoc]
  exact congrArg (andThen o) (funext h)

theorem put_setStatsEn (width : Width) (a x : Word) : (s.setStatsEn v).put width a x = (s.put width a x).setStatsEn v := by
  cases width <;> rfl

/-- A store, and then `advance`. -/
theorem store_setStatsEn (width : Width) (a x : Word) :
    (andThen (store width a x (s.setStatsEn v)) fun t => .next t.advance) =
      withStatsEn v (andThen (store width a x s) fun t => .next t.advance) := by
  unfold store dataAccess
  rw [put_setStatsEn, State.setStatsEn_params]
  split
  · split <;> rfl
  · rfl

theorem atomicUpdate_setStatsEn (f : Word → Word → Word) (rs rt rd : Reg) :
    atomicUpdate f rs rt rd (s.setStatsEn v) = withStatsEn v (atomicUpdate f rs rt rd s) := by
  refine andThen_setStatsEn v (loadWord (s.gpr rs) s) fun old => ?_
  simp only [put_setStatsEn, State.setStatsEn_gpr]
  exact writeBack_setStatsEn v _ rd old

theorem writeXcel_setStatsEn (id x : Word) (n : Reg) :
    writeXcel id n x (s.setStatsEn v) = withStatsEn v (writeXcel id n x s) := by
  unfold writeXcel
  rw [State.setStatsEn_xcels]
  split
  · rfl
  · split <;> rfl

theorem readXcel_setStatsEn (id : Word) (n rt : Reg) :
    readXcel id n rt (s.setStatsEn v) = withStatsEn v (readXcel id n rt s) := by
  unfold readXcel
  rw [State.setStatsEn_xcels]
  split
  · rfl
  · split <;> rfl

theorem execSyscall_setStatsEn : execSyscall (s.setStatsEn v) = withStatsEn v (execSyscall s) := by
  unfold execSyscall
  rw [State.setStatsEn_params]
  split <;> rfl

/-- A read of any register but cpr21. -/
theorem readCp0_setStatsEn (rt : Reg) {n : Reg} (hn : n ≠ 21#5) :
    readCp0 rt n (s.setStatsEn v) = withStatsEn v (readCp0 rt n s) := by
  unfold readCp0
  rw [State.setStatsEn_params, State.setStatsEn_mngr2proc]
  cases hc : cp0Named s.params.version n with
  | none => rfl
  | some c =>
    cases c with
    | mngr2proc => cases s.mngr2proc <;> rfl
    | statsEn => exact absurd (number_of_cp0Named hc).1 hn
    | proc2mngr | numcores | coreid => rfl

/-- A write of any register but cpr21. -/
theorem writeCp0_setStatsEn (rt : Reg) {n : Reg} (hn : n ≠ 21#5) :
    writeCp0 rt n (s.setStatsEn v) = withStatsEn v (writeCp0 rt n s) := by
  unfold writeCp0
  rw [State.setStatsEn_params, State.setStatsEn_proc2mngrReady]
  cases hc : cp0Named s.params.version n with
  | none => rfl
  | some c =>
    cases c with
    | proc2mngr => cases s.proc2mngrReady <;> rfl
    | statsEn => exact absurd (number_of_cp0Named hc).1 hn
    | mngr2proc | numcores | coreid => rfl

/-- A write of cpr21 replaces whatever was there (10_state R20). -/
theorem writeCp0_cpr21_setStatsEn (rt : Reg) : writeCp0 rt 21#5 (s.setStatsEn v) = writeCp0 rt 21#5 s := by
  unfold writeCp0
  rw [State.setStatsEn_params]
  cases hc : cp0Named s.params.version 21#5 with
  | none => rfl
  | some c =>
    cases c with
    | proc2mngr => exact absurd (number_of_cp0Named hc).1 (by decide)
    | statsEn | mngr2proc | numcores | coreid => rfl

/-- Every instruction but the two moves of cpr21 commutes with another value in `stats_en`. -/
theorem exec_setStatsEn {i : Instr} (hread : ∀ rt, i ≠ .mfc0 rt 21#5) (hwrite : ∀ rt, i ≠ .mtc0 rt 21#5) :
    exec i (s.setStatsEn v) = withStatsEn v (exec i s) := by
  cases i
  case mfc0 rt rd => exact readCp0_setStatsEn v s rt fun h => hread rt (h ▸ rfl)
  case mtc0 rt rd => exact writeCp0_setStatsEn v s rt fun h => hwrite rt (h ▸ rfl)
  case lw rs rt imm | lh rs rt imm | lhu rs rt imm | lb rs rt imm | lbu rs rt imm =>
    exact andThen_setStatsEn v _ fun x => writeBack_setStatsEn v s rt _
  case cvtWS fs fd | truncWS fs fd => exact andThen_setStatsEn v _ fun x => writeBack_setStatsEn v s fd _
  case sw rs rt imm | sh rs rt imm | sb rs rt imm => exact store_setStatsEn v s _ _ _
  case amoAdd rs rt rd | amoAnd rs rt rd | amoOr rs rt rd => exact atomicUpdate_setStatsEn v s _ rs rt rd
  case jr rs | eret => exact jumpTo_setStatsEn v s _
  case jalr rs rd =>
    change (if rs = rd then _ else _) = withStatsEn v (if rs = rd then _ else _)
    split
    · rfl
    · exact jumpTo_setStatsEn v (s.setGpr rd s.pcPlus4) _
  case beq | bne | bgtz | bltz | bgez | blez => exact branchIf_setStatsEn v s _ _
  case movn rs rt rd | movz rs rt rd =>
    change (if _ then _ else _) = withStatsEn v (if _ then _ else _)
    rw [State.setStatsEn_gpr]
    split <;> rfl
  case syscall => exact execSyscall_setStatsEn v s
  case mtx rs rt a | mtxr rs rt q => exact writeXcel_setStatsEn v s _ _ rs
  case mfx rs rt a | mfxr rs rt q => exact readXcel_setStatsEn v s _ rs rt
  all_goals rfl

end

/-- Putting the value back that the next state had gives the next state. -/
theorem setStatsEn_setStatsEn_self (t : State) (v : Word) : (t.setStatsEn v).setStatsEn t.statsEn = t := rfl

/-- Putting the value there that stands there changes nothing. -/
theorem setStatsEn_self (t : State) : t.setStatsEn t.statsEn = t := rfl

/-- Settles O59: a write of cpr21 replaces the value, and every other instruction commutes with it. -/
theorem statsEnHasNoEffect : Obligations.StatsEnHasNoEffect := by
  intro i s v hread
  by_cases hwrite : ∃ rt, i = .mtc0 rt 21#5
  case pos =>
    obtain ⟨rt, rfl⟩ := hwrite
    have hsame : exec (.mtc0 rt 21#5) (s.setStatsEn v) = exec (.mtc0 rt 21#5) s := writeCp0_cpr21_setStatsEn v s rt
    rw [hsame]
    exact ⟨fun t h => ⟨t, h, setStatsEn_self t, .inr ⟨rt, rfl, rfl⟩⟩, fun _ h => h, fun _ h => h⟩
  case neg =>
    rw [exec_setStatsEn v s hread fun rt h => hwrite ⟨rt, h⟩]
    refine ⟨fun t h => ⟨t.setStatsEn v, ?_, setStatsEn_setStatsEn_self t v, .inl rfl⟩, fun f h => ?_, fun r h => ?_⟩ <;>
      rw [h] <;> rfl

end Sys2Proof.Machine
end

