-- ==== Sys2Proof/Proofs/FloatValues.lean ====
section
/-! Single-precision values. The model counts a finite value in units of 2^-149 (`fval`); the statements read it as a rational
(`floatValue`). The two agree, so a comparison is one of integers, and a rounding one of a quotient of integers. -/

namespace Sys2Proof.Machine

open Sys2Proof

/-! ### The two readings of a pattern -/

section
variable {flush : Bool} {w : Word}

theorem fval_of_nan (h : FloatIsNan w) : fval flush w = .nan := by
  rw [fval, floatExponent, floatFraction, if_pos h.1, if_neg h.2]

theorem fval_of_inf (h : FloatIsInf w) : fval flush w = .inf (w.getLsbD 31) := by
  rw [fval, floatExponent, floatFraction, if_pos h.1, if_pos h.2, floatSign]

/-- The rational that a sign and a number of units stand for (49_float_accel R230). -/
def unitsValue (neg : Bool) (units : Nat) : ℚ := (signedInt neg units : ℚ) / 2 ^ 149

theorem unitsValue_eq (neg : Bool) (units : Nat) :
    unitsValue neg units = (if neg then -1 else 1) * units / 2 ^ 149 := by
  cases neg <;> simp [unitsValue, signedInt]

/-- A pattern that is neither a NaN nor an infinity has the value of its units. -/
theorem floatValue_of_finite {neg : Bool} {units : Nat} (h : fval flush w = .finite neg units) :
    floatValue flush w = unitsValue neg units := by
  unfold fval at h
  simp only [floatValue]
  split at h
  case isTrue => split at h <;> cases h
  split at h
  case isTrue hzero =>
    cases h
    have he : (w.extractLsb' 23 8).toNat = 0 := hzero
    rw [if_pos he, unitsValue_eq]
    cases flush <;> simp [floatSign, floatFraction, zpow_neg, div_eq_mul_inv]
  case isFalse hnonzero =>
    cases h
    have he : (w.extractLsb' 23 8).toNat ≠ 0 := hnonzero
    obtain ⟨e, he'⟩ := Nat.exists_eq_succ_of_ne_zero he
    have hexp : floatExponent w - 1 = e := by rw [floatExponent, he']; rfl
    have hpow : (2 : ℚ) ^ (((e.succ : Nat) : Int) - 127) = 2 ^ e / 2 ^ 126 := by
      rw [← zpow_natCast, ← zpow_natCast, ← zpow_sub₀ two_ne_zero]
      congr 1
      push_cast
      ring
    have hfrac : (2 : ℚ) ^ (-23 : Int) = 1 / 2 ^ 23 := by norm_num
    rw [if_neg he, unitsValue_eq, hexp, he', hpow, hfrac, floatSign, floatFraction]
    push_cast
    ring

/-- A pattern is a NaN, an infinity, or a number of units. -/
theorem float_cases (flush : Bool) (w : Word) :
    FloatIsNan w ∨ FloatIsInf w ∨
      ∃ neg units, fval flush w = .finite neg units ∧ ¬FloatIsNan w ∧ ¬FloatIsInf w := by
  by_cases hexp : floatExponent w = 255
  · by_cases hfrac : floatFraction w = 0
    case pos =>
      have hinf : FloatIsInf w := ⟨hexp, hfrac⟩
      exact .inr (.inl hinf)
    case neg =>
      have hnan : FloatIsNan w := ⟨hexp, hfrac⟩
      exact .inl hnan
  · refine .inr (.inr ?_)
    have hnan : ¬FloatIsNan w := fun h => hexp h.1
    have hinf : ¬FloatIsInf w := fun h => hexp h.1
    rw [fval, if_neg hexp]
    split
    · exact ⟨_, _, rfl, hnan, hinf⟩
    · exact ⟨_, _, rfl, hnan, hinf⟩

theorem not_special_of_finite {neg : Bool} {units : Nat} (h : fval flush w = .finite neg units) :
    ¬FloatIsNan w ∧ ¬FloatIsInf w :=
  ⟨fun hn => FVal.noConfusion ((fval_of_nan hn).symm.trans h),
    fun hi => FVal.noConfusion ((fval_of_inf hi).symm.trans h)⟩

end

/-! ### Comparing two values -/

/-- Numbers of units compare as their values do. -/
theorem unitsValue_lt_iff {s t : Bool} {m n : Nat} : unitsValue s m < unitsValue t n ↔ signedInt s m < signedInt t n := by
  rw [unitsValue, unitsValue, div_lt_div_iff_of_pos_right (by positivity), Int.cast_lt]

theorem unitsValue_inj {s t : Bool} {m n : Nat} : unitsValue s m = unitsValue t n ↔ signedInt s m = signedInt t n := by
  rw [unitsValue, unitsValue, div_left_inj' (by positivity), Int.cast_inj]

theorem intRelation_less {a b : Int} : intRelation a b = .less ↔ a < b := by
  unfold intRelation
  split
  · simp_all
  · split <;> simp_all

theorem intRelation_equal {a b : Int} : intRelation a b = .equal ↔ a = b := by
  unfold intRelation
  split
  · have : a ≠ b := by omega
    simp_all
  · split <;> simp_all

theorem intRelation_ordered (a b : Int) : intRelation a b ≠ .unordered := by
  unfold intRelation
  split
  · simp
  · split <;> simp

/-- A NaN and an infinity are different patterns. -/
theorem FloatIsInf.not_nan {w : Word} (h : FloatIsInf w) : ¬FloatIsNan w := fun hn => hn.2 h.2

theorem FloatIsNan.not_inf {w : Word} (h : FloatIsNan w) : ¬FloatIsInf w := fun hi => h.2 hi.2

/-- The model's relation of two patterns is the one of their values (49_float_accel R239). -/
theorem relation_fval (flush : Bool) (a b : Word) :
    (relation (fval flush a) (fval flush b) = .less ↔ FloatLess flush a b) ∧
      (relation (fval flush a) (fval flush b) = .equal ↔ FloatEqual flush a b) ∧
      (relation (fval flush a) (fval flush b) = .unordered ↔ FloatUnordered a b) := by
  unfold FloatLess FloatEqual FloatUnordered
  rcases float_cases flush a with ha | ha | ⟨s, m, ha, hna, hia⟩
  · rw [fval_of_nan ha]
    simp [relation, ha, ha.not_inf]
  · rcases float_cases flush b with hb | hb | ⟨t, n, hb, hnb, hib⟩
    · rw [fval_of_inf ha, fval_of_nan hb]
      simp [relation, hb, hb.not_inf]
    · rw [fval_of_inf ha, fval_of_inf hb]
      cases a.getLsbD 31 <;> cases b.getLsbD 31 <;> simp [relation, ha, hb, ha.not_nan, hb.not_nan]
    · rw [fval_of_inf ha, hb]
      cases a.getLsbD 31 <;> simp [relation, ha, ha.not_nan, hnb, hib]
  · rcases float_cases flush b with hb | hb | ⟨t, n, hb, hnb, hib⟩
    · rw [ha, fval_of_nan hb]
      simp [relation, hb, hb.not_inf]
    · rw [ha, fval_of_inf hb]
      cases b.getLsbD 31 <;> simp [relation, hb, hb.not_nan, hna, hia]
    · rw [floatValue_of_finite ha, floatValue_of_finite hb, ha, hb]
      simp [relation, hna, hia, hnb, hib, intRelation_less, intRelation_equal, intRelation_ordered, unitsValue_lt_iff,
        unitsValue_inj]

/-! ### Rounding a quotient -/

/-- The only integer that an integer rounds to is itself. -/
theorem RoundsTo.eq_of_int {mode : Rounding} {m n : Int} (h : RoundsTo mode (m : ℚ) n) : n = m := by
  have hnearest : |(m : ℚ) - n| ≤ 1 / 2 → n = m := fun hle => by
    have hlt : |m - n| < 1 := by
      have : (|m - n| : ℚ) < 1 := hle.trans_lt (by norm_num)
      exact_mod_cast this
    have := Int.abs_lt_one_iff.1 hlt
    omega
  cases mode with
  | nearestEven => exact hnearest h.1
  | nearestAway => exact hnearest h.1
  | towardZero => exact h.trans (by simp [truncQ])
  | towardPositive => exact h.trans (Int.ceil_intCast m)
  | towardNegative => exact h.trans (Int.floor_intCast m)

section
variable (mode : Rounding) (neg : Bool) (num : Nat) {den : Nat}

/-- A signed magnitude without its fraction. -/
theorem signedInt_tdiv : (signedInt neg num).tdiv den = signedInt neg (num / den) := by
  cases neg <;> simp [signedInt, Int.neg_tdiv]

theorem signedInt_abs_sub (q : Nat) (x : ℚ) :
    |(if neg then -x else x) - (signedInt neg q : ℚ)| = |x - q| := by
  cases neg
  · simp [signedInt]
  · simp only [signedInt, if_true, Int.cast_neg, Int.cast_natCast]
    rw [← abs_neg]; congr 1; ring

theorem signedInt_div (den : Nat) :
    (signedInt neg num : ℚ) / den = if neg then -((num : ℚ) / den) else (num : ℚ) / den := by
  cases neg <;> simp [signedInt, neg_div]

variable (hden : 0 < den)
include hden

/-- A quotient as its whole part and its remainder. -/
theorem div_eq_whole_add_rest : (num : ℚ) / den = (num / den : Nat) + (num % den : Nat) / den := by
  have hne : (den : ℚ) ≠ 0 := by positivity
  have hsplit : (num : ℚ) = den * (num / den : Nat) + (num % den : Nat) := by exact_mod_cast (Nat.div_add_mod num den).symm
  field_simp
  linarith

/-- The quotient rounded up. -/
theorem ceil_natCast_div : ⌈(num : ℚ) / den⌉ = (((if 0 < num % den then num / den + 1 else num / den) : Nat) : Int) := by
  have hd : (0 : ℚ) < den := by exact_mod_cast hden
  have hlt : ((num % den : Nat) : ℚ) / den < 1 := by
    rw [div_lt_one hd]; exact_mod_cast Nat.mod_lt num hden
  rw [div_eq_whole_add_rest num hden]
  split
  case isTrue hpos =>
    have hrest : (0 : ℚ) < ((num % den : Nat) : ℚ) / den := div_pos (by exact_mod_cast hpos) hd
    rw [Int.ceil_eq_iff, Int.cast_natCast, Nat.cast_add, Nat.cast_one]
    constructor <;> linarith
  case isFalse hzero =>
    rw [Nat.eq_zero_of_not_pos hzero, Nat.cast_zero, zero_div, add_zero, Int.ceil_natCast]

end

end Sys2Proof.Machine
end

