-- ==== Sys2Proof/Proofs/FloatResults.lean ====
section
/-! Floating point (O41 to O44): the compares by `relation_fval`, both conversions to an integer by the rounding of a number of
units, and the conversion from an integer by the fields of the pattern it makes. -/

namespace Sys2Proof

/-! ### Rows -/

/-- The words of a compare: `op`, `fmt` and bits 5:0 are fixed (30_encoding R75). -/
theorem encodeR_fmt_eq_iff (op : BitVec 6) (fmt : BitVec 5) (cmd : BitVec 6) (w : Word) :
    encodeR op fmt (fieldRt w) (fieldRd w) (fieldSa w) cmd = w ↔
      w &&& 0xFFE0003F#32 = encodeR op fmt 0#5 0#5 0#5 cmd := by
  have hmask : 0xFFE0003F#32 = encodeR 63#6 31#5 0#5 0#5 0#5 63#6 := rfl
  rw [encodeR_eq_iff, hmask, and_eq_encodeR]
  simp [eq_comm]

/-- The words of a conversion: `op`, `fmt`, `ft` = 0 and `cmd` are fixed (30_encoding R74). -/
theorem encodeR_fmt_zero_ft_eq_iff (op : BitVec 6) (fmt : BitVec 5) (cmd : BitVec 6) (w : Word) :
    encodeR op fmt 0#5 (fieldRd w) (fieldSa w) cmd = w ↔
      w &&& 0xFFFF003F#32 = encodeR op fmt 0#5 0#5 0#5 cmd := by
  have hmask : 0xFFFF003F#32 = encodeR 63#6 31#5 31#5 0#5 0#5 63#6 := rfl
  rw [encodeR_eq_iff, hmask, and_eq_encodeR]
  simp [eq_comm]

end Sys2Proof

namespace Sys2Proof.Machine

open Sys2Proof

/-! ### Compares -/

/-- A compare completes and writes 1 where its condition holds of the operands' relation, else 0 (49_float_accel R239). -/
theorem completes_of_compareFloat {i : Instr} {s : State} (p : Relation → Bool) (ft fs : Reg) {fd : Reg} {holds : Prop}
    (h : exec i s = compareFloat p ft fs fd s) (hp : holds ↔ p (floatRelation s ft fs) = true) :
    ∃ t, exec i s = .next t ∧ (holds → Writes s t fd 1#32) ∧ (¬holds → Writes s t fd 0#32) := by
  obtain ⟨t, hexec, hwrites⟩ := completes_of_writeBack (i := i) (s := s) h rfl
  refine ⟨t, hexec, fun hh => ?_, fun hh => ?_⟩
  · rw [hp.1 hh] at hwrites; exact hwrites
  · rw [Bool.not_eq_true _ |>.mp (fun hb => hh (hp.2 hb))] at hwrites; exact hwrites

/-- Settles O41: the eight rows, and each condition on the relation, which `relation_fval` makes one of the values. -/
theorem compareResults : Obligations.CompareResults := by
  have row := encodeR_fmt_eq_iff 0b010001#6 0b10000#5
  refine ⟨.of_encode (fun _ => rfl) (fun _ => rfl) (row 0b110000#6), .of_encode (fun _ => rfl) (fun _ => rfl) (row 0b110001#6),
    .of_encode (fun _ => rfl) (fun _ => rfl) (row 0b110010#6), .of_encode (fun _ => rfl) (fun _ => rfl) (row 0b111011#6),
    .of_encode (fun _ => rfl) (fun _ => rfl) (row 0b111100#6), .of_encode (fun _ => rfl) (fun _ => rfl) (row 0b111101#6),
    .of_encode (fun _ => rfl) (fun _ => rfl) (row 0b111110#6), .of_encode (fun _ => rfl) (fun _ => rfl) (row 0b111111#6),
    fun ft fs fd s less equal unordered hless hequal hunordered i holds hi => ?_⟩
  obtain ⟨hless', hequal', hunordered'⟩ := relation_fval s.params.flushSubnormals (s.gpr ft) (s.gpr fs)
  have less_iff : less ↔ floatRelation s ft fs = .less := hless.trans hless'.symm
  have equal_iff : equal ↔ floatRelation s ft fs = .equal := hequal.trans hequal'.symm
  have unordered_iff : unordered ↔ floatRelation s ft fs = .unordered := hunordered.trans hunordered'.symm
  rcases hi with ⟨rfl, hh⟩ | ⟨rfl, hh⟩ | ⟨rfl, hh⟩ | ⟨rfl, hh⟩ | ⟨rfl, hh⟩ | ⟨rfl, hh⟩ | ⟨rfl, hh⟩ | ⟨rfl, hh⟩
  · exact completes_of_compareFloat (fun _ => false) ft fs rfl (hh.trans (by simp))
  · exact completes_of_compareFloat (fun r => r == .unordered) ft fs rfl (hh.trans (by simp [unordered_iff]))
  · exact completes_of_compareFloat (fun r => r == .equal) ft fs rfl (hh.trans (by simp [equal_iff]))
  · exact completes_of_compareFloat (fun r => r == .equal || r == .unordered) ft fs rfl
      (hh.trans (by simp [equal_iff, unordered_iff]))
  · exact completes_of_compareFloat (fun r => r == .less) ft fs rfl (hh.trans (by simp [less_iff]))
  · exact completes_of_compareFloat (fun r => r == .less || r == .unordered) ft fs rfl
      (hh.trans (by simp [less_iff, unordered_iff]))
  · exact completes_of_compareFloat (fun r => r == .less || r == .equal) ft fs rfl (hh.trans (by simp [less_iff, equal_iff]))
  · exact completes_of_compareFloat (fun r => r == .less || r == .equal || r == .unordered) ft fs rfl
      (hh.trans (by simp [less_iff, equal_iff, unordered_iff, or_assoc]))

/-! ### Rounding a signed quotient -/

/-- The rounded magnitude is the whole part, or one more where the direction rounds away from zero (D9). -/
theorem roundQuotient_cases (mode : Rounding) (neg : Bool) (num den : Nat) :
    (roundsAway mode neg (num / den) (num % den) den = true ∧ roundQuotient mode neg num den = num / den + 1) ∨
      (roundsAway mode neg (num / den) (num % den) den = false ∧ roundQuotient mode neg num den = num / den) := by
  unfold roundQuotient
  cases roundsAway mode neg (num / den) (num % den) den <;> simp

theorem signedInt_even {neg : Bool} {n : Nat} : signedInt neg n % 2 = 0 ↔ n % 2 = 0 := by
  cases neg <;> simp only [signedInt, Bool.false_eq_true, if_false, if_true] <;> omega

theorem abs_signedInt (neg : Bool) (n : Nat) : |(signedInt neg n : ℚ)| = n := by
  cases neg <;> simp [signedInt]

section
variable (neg : Bool) (num : Nat) {den : Nat} (hden : 0 < den)
include hden

/-- The fraction of a quotient is below, at, or above one half as twice the remainder is below, at, or above the divisor. -/
theorem rest_half_iff :
    (((num % den : Nat) : ℚ) / den ≤ 1 / 2 ↔ 2 * (num % den) ≤ den) ∧
      (1 / 2 ≤ ((num % den : Nat) : ℚ) / den ↔ den ≤ 2 * (num % den)) := by
  have hd : (0 : ℚ) < den := by exact_mod_cast hden
  rw [div_le_div_iff₀ hd two_pos, div_le_div_iff₀ two_pos hd, one_mul, mul_comm]
  norm_cast

/-- How far the value is from its whole part, and from the integer after it in magnitude. -/
theorem abs_sub_whole :
    |(signedInt neg num : ℚ) / den - signedInt neg (num / den)| = ((num % den : Nat) : ℚ) / den ∧
      |(signedInt neg num : ℚ) / den - signedInt neg (num / den + 1)| = 1 - ((num % den : Nat) : ℚ) / den := by
  have hd : (0 : ℚ) < den := by exact_mod_cast hden
  have hnonneg : 0 ≤ ((num % den : Nat) : ℚ) / den := by positivity
  have hlt : ((num % den : Nat) : ℚ) / den < 1 := by
    rw [div_lt_one hd]; exact_mod_cast Nat.mod_lt num hden
  rw [signedInt_div, signedInt_abs_sub, signedInt_abs_sub, div_eq_whole_add_rest num hden]
  refine ⟨?_, ?_⟩
  · rw [add_sub_cancel_left, abs_of_nonneg hnonneg]
  · rw [abs_sub_comm, abs_of_nonneg] <;> push_cast <;> linarith

theorem roundsTo_nearestEven :
    RoundsTo .nearestEven ((signedInt neg num : ℚ) / den) (signedInt neg (roundQuotient .nearestEven neg num den)) := by
  obtain ⟨hle, hge⟩ := rest_half_iff num hden
  obtain ⟨hwhole, hnext⟩ := abs_sub_whole neg num hden
  rcases roundQuotient_cases .nearestEven neg num den with ⟨haway, hround⟩ | ⟨haway, hround⟩ <;>
    simp only [roundsAway, Bool.or_eq_true, Bool.and_eq_true, decide_eq_true_eq, Bool.or_eq_false_iff,
      Bool.and_eq_false_iff, decide_eq_false_iff_not] at haway <;>
    simp only [RoundsTo, hround, hwhole, hnext, signedInt_even]
  · have hhalf := hge.2 (by omega)
    refine ⟨by linarith, fun htie => ?_⟩
    have := hle.1 (by linarith)
    omega
  · refine ⟨hle.2 (by omega), fun htie => ?_⟩
    have := hge.1 (by linarith)
    omega

theorem roundsTo_nearestAway :
    RoundsTo .nearestAway ((signedInt neg num : ℚ) / den) (signedInt neg (roundQuotient .nearestAway neg num den)) := by
  obtain ⟨hle, hge⟩ := rest_half_iff num hden
  obtain ⟨hwhole, hnext⟩ := abs_sub_whole neg num hden
  rcases roundQuotient_cases .nearestAway neg num den with ⟨haway, hround⟩ | ⟨haway, hround⟩ <;>
    simp only [roundsAway, decide_eq_true_eq, decide_eq_false_iff_not] at haway <;>
    simp only [RoundsTo, hround, hwhole, hnext, abs_div, abs_signedInt, Nat.abs_cast]
  · have hhalf := hge.2 haway
    refine ⟨by linarith, fun htie => ?_⟩
    rw [div_eq_whole_add_rest num hden]
    push_cast
    linarith
  · refine ⟨hle.2 (by omega), fun htie => ?_⟩
    exact absurd (hge.1 (by linarith)) haway

omit hden in
theorem roundsTo_towardZero :
    RoundsTo .towardZero ((signedInt neg num : ℚ) / den) (signedInt neg (roundQuotient .towardZero neg num den)) := by
  rw [RoundsTo, truncQ_div_natCast, signedInt_tdiv]
  rfl

theorem roundsTo_towardPositive :
    RoundsTo .towardPositive ((signedInt neg num : ℚ) / den)
      (signedInt neg (roundQuotient .towardPositive neg num den)) := by
  rw [RoundsTo, signedInt_div]
  cases neg
  · simp [signedInt, roundQuotient, roundsAway, ceil_natCast_div num hden]
  · simp [signedInt, roundQuotient, roundsAway, Int.ceil_neg, Rat.floor_natCast_div_natCast]

theorem roundsTo_towardNegative :
    RoundsTo .towardNegative ((signedInt neg num : ℚ) / den)
      (signedInt neg (roundQuotient .towardNegative neg num den)) := by
  rw [RoundsTo, signedInt_div]
  cases neg
  · simp [signedInt, roundQuotient, roundsAway, Rat.floor_natCast_div_natCast]
  · simp [signedInt, roundQuotient, roundsAway, Int.floor_neg, ceil_natCast_div num hden]

/-- The model's rounding of a magnitude rounds the signed quotient, in every direction (D9). -/
theorem roundsTo_roundQuotient (mode : Rounding) :
    RoundsTo mode ((signedInt neg num : ℚ) / den) (signedInt neg (roundQuotient mode neg num den)) := by
  cases mode with
  | nearestEven => exact roundsTo_nearestEven neg num hden
  | nearestAway => exact roundsTo_nearestAway neg num hden
  | towardZero => exact roundsTo_towardZero neg num
  | towardPositive => exact roundsTo_towardPositive neg num hden
  | towardNegative => exact roundsTo_towardNegative neg num hden

end

/-! ### Conversion to an integer -/

theorem unitsPerOne_cast : (unitsPerOne : ℚ) = 2 ^ 149 := by rw [unitsPerOne, Nat.cast_pow, Nat.cast_ofNat]

section
variable {flush : Bool} {w : Word} {neg : Bool} {units : Nat}

/-- The bounds `-2^31 <= v < 2^31` on the number of units (49_float_accel R240). -/
theorem unitsValue_in_range_iff :
    -(2 ^ 31 : ℚ) ≤ unitsValue neg units ∧ unitsValue neg units < (2 ^ 31 : ℚ) ↔ outOfIntRange neg units = false := by
  have hpos : (0 : ℚ) < 2 ^ 149 := by positivity
  have hnonneg : (0 : ℚ) ≤ units := Nat.cast_nonneg units
  rw [unitsValue, le_div_iff₀ hpos, div_lt_iff₀ hpos]
  cases neg
  case false =>
    have hcast : (units : ℚ) < 2 ^ 31 * 2 ^ 149 ↔ units < 2 ^ 31 * 2 ^ 149 := by norm_cast
    have hout : outOfIntRange false units = false ↔ units < 2 ^ 31 * 2 ^ 149 := decide_eq_false_iff_not.trans not_le
    rw [hout, ← hcast]
    simp only [signedInt, Bool.false_eq_true, if_false, Int.cast_natCast]
    exact and_iff_right (by linarith)
  case true =>
    have hcast : (units : ℚ) ≤ 2 ^ 31 * 2 ^ 149 ↔ units ≤ 2 ^ 31 * 2 ^ 149 := by norm_cast
    have hout : outOfIntRange true units = false ↔ units ≤ 2 ^ 31 * 2 ^ 149 := decide_eq_false_iff_not.trans not_lt
    rw [hout, ← hcast]
    simp only [signedInt, if_true, Int.cast_neg, Int.cast_natCast, neg_mul, neg_le_neg_iff]
    exact and_iff_left (by linarith)

/-- A pattern converts exactly when it is finite and its units are in range. -/
theorem floatConverts_iff (h : fval flush w = .finite neg units) :
    FloatConverts flush w ↔ outOfIntRange neg units = false := by
  obtain ⟨hnan, hinf⟩ := not_special_of_finite h
  rw [FloatConverts, floatValue_of_finite h, unitsValue_in_range_iff]
  simp only [hnan, hinf, not_false_eq_true, true_and]

/-- A value in range converts to an integer that it rounds to (49_float_accel R240, R242). -/
theorem floatToInt_of_converts (mode : Rounding) (h : FloatConverts flush w) :
    ∃ n, floatToInt mode flush w = .next (BitVec.ofInt 32 n) ∧ RoundsTo mode (floatValue flush w) n := by
  have ⟨hnotNan, hnotInf, _⟩ := h
  rcases float_cases flush w with hnan | hinf | ⟨neg, units, hval, -, -⟩
  · exact absurd hnan hnotNan
  · exact absurd hinf hnotInf
  · refine ⟨_, floatToInt_next.2 ⟨neg, units, hval, (floatConverts_iff hval).1 h, rfl⟩, ?_⟩
    rw [floatValue_of_finite hval, unitsValue, ← unitsPerOne_cast]
    exact roundsTo_roundQuotient neg units (Nat.two_pow_pos 149) mode

/-- A NaN, an infinity or a value out of range does not convert (49_float_accel R240, R242, D10). -/
theorem floatToInt_of_not_converts (mode : Rounding) (h : ¬FloatConverts flush w) :
    floatToInt mode flush w = .fault (.fpUnpredictable w) := by
  unfold floatToInt
  rcases float_cases flush w with hnan | hinf | ⟨neg, units, hval, -, -⟩
  · rw [fval_of_nan hnan]
  · rw [fval_of_inf hinf]
  · have hout : outOfIntRange neg units = true := by
      rw [← Bool.not_eq_false]; exact fun hr => h ((floatConverts_iff hval).2 hr)
    simp only [hval, hout, if_true]

/-- A finite value is integral, or of magnitude below 2^24: it has 24 significant bits (49_float_accel R230). -/
theorem units_integral_or_small (h : fval flush w = .finite neg units) :
    2 ^ 149 ∣ units ∨ units < 2 ^ 24 * 2 ^ 149 := by
  have hfrac : floatFraction w < 2 ^ 23 := (w.extractLsb' 0 23).isLt
  unfold fval at h
  split at h
  case isTrue => split at h <;> cases h
  split at h
  case isTrue =>
    cases h
    refine .inr ?_
    split <;> omega
  case isFalse =>
    cases h
    rcases le_or_gt 149 (floatExponent w - 1) with hlarge | hsmall
    · exact .inl (Dvd.dvd.mul_left (Nat.pow_dvd_pow 2 hlarge) _)
    · refine .inr (Nat.mul_lt_mul_of_lt_of_le (by omega) (Nat.pow_le_pow_right two_pos hsmall.le) (Nat.two_pow_pos _))

theorem floatValue_integral_or_small (h : fval flush w = .finite neg units) :
    (∃ m : Int, floatValue flush w = m) ∨ |floatValue flush w| < 2 ^ 24 := by
  have hpos : (0 : ℚ) < 2 ^ 149 := by positivity
  rw [floatValue_of_finite h, unitsValue]
  rcases units_integral_or_small h with ⟨k, rfl⟩ | hsmall
  · refine .inl ⟨signedInt neg k, ?_⟩
    rw [div_eq_iff hpos.ne']
    cases neg <;> simp only [signedInt, Bool.false_eq_true, if_false, if_true] <;> push_cast <;> ring
  · refine .inr ?_
    rw [abs_div, abs_signedInt, abs_of_pos hpos, div_lt_iff₀ hpos]
    exact_mod_cast hsmall

end

/-- What a value rounds to is less than 1 away, or 1 at most (D9). -/
theorem RoundsTo.abs_sub_le {mode : Rounding} {v : ℚ} {n : Int} (h : RoundsTo mode v n) : |v - n| ≤ 1 := by
  have hfloor := Int.floor_le v
  have hfloor' := Int.lt_floor_add_one v
  have hceil := Int.le_ceil v
  have hceil' := Int.ceil_lt_add_one v
  cases mode with
  | nearestEven => exact h.1.trans (by norm_num)
  | nearestAway => exact h.1.trans (by norm_num)
  | towardZero =>
    rw [RoundsTo, truncQ] at h
    subst h
    split <;> rw [abs_le] <;> constructor <;> linarith
  | towardPositive =>
    rw [RoundsTo] at h
    subst h
    rw [abs_le]; constructor <;> linarith
  | towardNegative =>
    rw [RoundsTo] at h
    subst h
    rw [abs_le]; constructor <;> linarith

/-- What a value in range rounds to is in range: a value with a fraction has magnitude below 2^24. -/
theorem RoundsTo.in_range {mode : Rounding} {flush : Bool} {w : Word} {n : Int} (hc : FloatConverts flush w)
    (h : RoundsTo mode (floatValue flush w) n) : -2 ^ 31 ≤ n ∧ n < 2 ^ 31 := by
  obtain ⟨hnan, hinf, hlow, hhigh⟩ := hc
  rcases float_cases flush w with hn | hi | ⟨neg, units, hval, -, -⟩
  · exact absurd hn hnan
  · exact absurd hi hinf
  rcases floatValue_integral_or_small hval with ⟨m, hm⟩ | hsmall
  · rw [hm] at h hlow hhigh
    rw [h.eq_of_int]
    exact ⟨by exact_mod_cast hlow, by exact_mod_cast hhigh⟩
  · have hnear := abs_le.1 h.abs_sub_le
    have hvalue := abs_lt.1 hsmall
    have hlow' : (-2 ^ 31 : ℚ) ≤ n := by linarith [hnear.2, hvalue.1]
    have hhigh' : (n : ℚ) < 2 ^ 31 := by linarith [hnear.1, hvalue.2]
    exact ⟨by exact_mod_cast hlow', by exact_mod_cast hhigh'⟩

/-- Settles O42: the row, and the rounding toward zero, which drops the fraction. -/
theorem truncWSResult : Obligations.TruncWSResult := by
  refine ⟨.of_encode (fun _ => rfl) (fun _ => rfl) (encodeR_fmt_zero_ft_eq_iff 0b010001#6 0b00000#5 0b001101#6),
    fun fs fd s => ⟨fun hc => ?converts, fun hc => andThen_fault _ (floatToInt_of_not_converts _ hc)⟩⟩
  obtain ⟨n, hnext, hround⟩ := floatToInt_of_converts .towardZero hc
  have htrunc : n = truncQ (floatValue s.params.flushSubnormals (s.gpr fs)) := hround
  exact htrunc ▸ completes_of_load (f := id) rfl hnext rfl

/-- Settles O43: the row, and the rounding in the launch's direction, which stays in range and keeps integers. -/
theorem cvtWSResult : Obligations.CvtWSResult := by
  refine ⟨.of_encode (fun _ => rfl) (fun _ => rfl) (encodeR_fmt_zero_ft_eq_iff 0b010001#6 0b00000#5 0b100100#6),
    fun fs fd s => ⟨fun hc => ?converts, fun hc => andThen_fault _ (floatToInt_of_not_converts _ hc)⟩⟩
  obtain ⟨n, hnext, hround⟩ := floatToInt_of_converts s.params.cvtWSRound hc
  obtain ⟨t, hexec, hwrites⟩ : ∃ t, exec (.cvtWS fs fd) s = .next t ∧ Writes s t fd (BitVec.ofInt 32 n) :=
    completes_of_load (f := id) rfl hnext rfl
  obtain ⟨hlow, hhigh⟩ := hround.in_range hc
  refine ⟨t, n, hexec, hwrites, hlow, hhigh, hround, fun m hm => ?_⟩
  rw [hm] at hround
  exact hround.eq_of_int

end Sys2Proof.Machine
end

