-- ==== Sys2Proof/Proofs/IntToFloat.lean ====
section
/-! The conversion of an integer to a single-precision value (O44): the fields of the pattern it makes, the rounding of the
significand, and so the value. -/

namespace Sys2Proof.Machine

open Sys2Proof

/-! ### The pattern of a significand -/

/-- The fields of a pattern put together from a sign, a biased exponent and a fraction (49_float_accel R230). -/
theorem fval_of_fields (flush neg : Bool) {exponent fraction : Nat} (he : exponent + 1 < 255) (hf : fraction < 2 ^ 23) :
    fval flush (BitVec.ofNat 32 ((if neg then 2 ^ 31 else 0) + (exponent + 1) * 2 ^ 23 + fraction)) =
      .finite neg ((2 ^ 23 + fraction) * 2 ^ exponent) := by
  generalize hbits : (if neg then 2 ^ 31 else 0) + (exponent + 1) * 2 ^ 23 + fraction = bits
  have hfraction : floatFraction (BitVec.ofNat 32 bits) = fraction := by
    rw [floatFraction, BitVec.extractLsb'_toNat, BitVec.toNat_ofNat, Nat.shiftRight_zero, ← hbits]
    split <;> omega
  have hexponent : floatExponent (BitVec.ofNat 32 bits) = exponent + 1 := by
    rw [floatExponent, BitVec.extractLsb'_toNat, BitVec.toNat_ofNat, Nat.shiftRight_eq_div_pow, ← hbits]
    split <;> omega
  have hsign : floatSign (BitVec.ofNat 32 bits) = neg := by
    rw [floatSign, BitVec.getLsbD_ofNat, Nat.testBit_eq_decide_div_mod_eq, ← hbits]
    cases neg
    · simp only [Bool.false_eq_true, if_false, Bool.and_eq_false_iff, decide_eq_false_iff_not]; omega
    · simp only [if_true, Bool.and_eq_true, decide_eq_true_eq]; omega
  rw [fval, hfraction, hexponent, hsign, if_neg (by omega), if_neg (by omega)]
  rfl

/-- A significand of 24 bits, or 2^24, which carries into the exponent, put over an exponent (49_float_accel R241). -/
theorem fval_of_significand (flush neg : Bool) {exponent sig : Nat} (he : exponent < 253) (hlow : 2 ^ 23 ≤ sig)
    (hhigh : sig ≤ 2 ^ 24) :
    fval flush (BitVec.ofNat 32 ((if neg then 2 ^ 31 else 0) + exponent * 2 ^ 23 + sig)) =
      .finite neg (sig * 2 ^ exponent) := by
  rcases hhigh.lt_or_eq with hlt | rfl
  · obtain ⟨fraction, rfl⟩ := Nat.exists_eq_add_of_le hlow
    have hfields : exponent * 2 ^ 23 + (2 ^ 23 + fraction) = (exponent + 1) * 2 ^ 23 + fraction := by ring
    rw [add_assoc, hfields, ← add_assoc]
    exact fval_of_fields flush neg (by omega) (by omega)
  · have hfields : exponent * 2 ^ 23 + 2 ^ 24 = (exponent + 1 + 1) * 2 ^ 23 + 0 := by ring
    have hcarry : (2 ^ 24 * 2 ^ exponent : Nat) = (2 ^ 23 + 0) * 2 ^ (exponent + 1) := by ring
    rw [add_assoc, hfields, hcarry, ← add_assoc]
    exact fval_of_fields flush neg (by omega) (by decide)

/-! ### The significand of an integer -/

/-- From 24 bits on the significand is a rounded quotient; with 24 bits the divisor is 1. -/
theorem significand_eq_roundQuotient (mode : Rounding) (neg : Bool) (m : Nat) {e : Nat} (he : 23 ≤ e) :
    significand mode neg m e = roundQuotient mode neg m (2 ^ (e - 23)) := by
  rcases he.eq_or_lt with rfl | hlt
  · cases mode <;> simp [significand, roundQuotient, roundsAway, Nat.mod_one]
  · rw [significand, if_neg (by omega)]

/-- The significand of a nonzero magnitude has 24 bits, or is 2^24. -/
theorem significand_bounds (mode : Rounding) (neg : Bool) {m : Nat} (hm : m ≠ 0) :
    2 ^ 23 ≤ significand mode neg m (Nat.log2 m) ∧ significand mode neg m (Nat.log2 m) ≤ 2 ^ 24 := by
  have hlow : 2 ^ Nat.log2 m ≤ m := Nat.log2_self_le hm
  have hhigh : m < 2 ^ (Nat.log2 m + 1) := Nat.lt_log2_self
  rcases le_or_gt (Nat.log2 m) 23 with hsmall | hlarge
  · rw [significand, if_pos hsmall]
    obtain ⟨k, hk⟩ := Nat.exists_eq_add_of_le hsmall
    have hshift : 23 - Nat.log2 m = k := by omega
    rw [hshift, hk, show (24 : Nat) = Nat.log2 m + 1 + k by omega, pow_add, pow_add _ (Nat.log2 m + 1)]
    exact ⟨Nat.mul_le_mul_right _ hlow, Nat.mul_le_mul_right _ hhigh.le⟩
  · obtain ⟨k, hk⟩ := Nat.exists_eq_add_of_le hlarge.le
    have hquot : 2 ^ 23 ≤ m / 2 ^ k ∧ m / 2 ^ k < 2 ^ 24 := by
      rw [Nat.le_div_iff_mul_le (Nat.two_pow_pos k), Nat.div_lt_iff_lt_mul (Nat.two_pow_pos k), ← pow_add, ← pow_add]
      rw [hk] at hlow hhigh
      exact ⟨hlow, by rwa [show 24 + k = 23 + k + 1 by omega]⟩
    rw [significand_eq_roundQuotient mode neg m hlarge.le, show Nat.log2 m - 23 = k by omega]
    rcases roundQuotient_cases mode neg m (2 ^ k) with ⟨-, hround⟩ | ⟨-, hround⟩ <;> rw [hround] <;> omega

/-! ### The value of the pattern -/

/-- An integer is its sign and its magnitude. -/
theorem signedInt_isNegative (w : Word) : signedInt (isNegative w) w.toInt.natAbs = w.toInt := by
  by_cases h : w.toInt < 0
  · simp only [signedInt, isNegative, h, decide_true, if_true]; omega
  · simp only [signedInt, isNegative, h, decide_false, Bool.false_eq_true, if_false]; omega

/-- The pattern of 0 is +0 (49_float_accel R241). -/
theorem intToFloat_zero (mode : Rounding) {w : Word} (h : w.toInt = 0) : intToFloat mode w = 0#32 := by
  simp [intToFloat, intToFloatBits, h]

/-- The pattern of a nonzero integer is finite, with the integer's significand over its exponent. -/
theorem fval_intToFloat (flush : Bool) (mode : Rounding) {w : Word} (h : w.toInt ≠ 0) :
    fval flush (intToFloat mode w) = .finite (isNegative w)
      (significand mode (isNegative w) w.toInt.natAbs (Nat.log2 w.toInt.natAbs) *
        2 ^ (Nat.log2 w.toInt.natAbs + 126)) := by
  have hm : w.toInt.natAbs ≠ 0 := Int.natAbs_ne_zero.2 h
  have hlog : Nat.log2 w.toInt.natAbs < 32 := by
    obtain ⟨hlow, hhigh⟩ := toInt_range w
    exact (Nat.log2_lt hm).2 (by omega)
  obtain ⟨hlow, hhigh⟩ := significand_bounds mode (isNegative w) hm
  rw [intToFloat, intToFloatBits, if_neg hm]
  exact fval_of_significand flush _ (by omega) hlow hhigh

/-- The value of the pattern: the significand in units of the last of its 24 places. -/
theorem floatValue_intToFloat (mode : Rounding) {w : Word} (h : w.toInt ≠ 0) :
    floatValue false (intToFloat mode w) =
      (signedInt (isNegative w) (significand mode (isNegative w) w.toInt.natAbs (Nat.log2 w.toInt.natAbs)) : ℚ) *
        2 ^ Nat.log2 w.toInt.natAbs / 2 ^ 23 := by
  rw [floatValue_of_finite (fval_intToFloat false mode h), unitsValue]
  cases isNegative w <;> simp only [signedInt, Bool.false_eq_true, if_false, if_true] <;> push_cast <;> ring

/-- The magnitude's highest bit, from its bounds. -/
theorem log2_natAbs {n : Int} {e : Nat} (hlow : (2 : Int) ^ e ≤ |n|) (hhigh : |n| < 2 ^ (e + 1)) :
    Nat.log2 n.natAbs = e := by
  rw [Int.abs_eq_natAbs] at hlow hhigh
  have hlow : 2 ^ e ≤ n.natAbs := by exact_mod_cast hlow
  have hhigh : n.natAbs < 2 ^ (e + 1) := by exact_mod_cast hhigh
  exact (Nat.log2_eq_iff (by have := Nat.two_pow_pos e; omega)).2 ⟨hlow, hhigh⟩

/-- From 24 bits on, the value is the integer in units of the last of 24 places, rounded (49_float_accel R241, D9). -/
theorem intToFloat_rounds (mode : Rounding) {w : Word} {e : Nat} (he : 23 ≤ e) (hlow : (2 : Int) ^ e ≤ |w.toInt|)
    (hhigh : |w.toInt| < 2 ^ (e + 1)) :
    ∃ m : Int, RoundsTo mode ((w.toInt : ℚ) / 2 ^ (e - 23)) m ∧
      floatValue false (intToFloat mode w) = m * 2 ^ (e - 23) := by
  have hne : w.toInt ≠ 0 := fun h => by
    rw [h, abs_zero] at hlow
    exact absurd hlow (not_le.2 (by positivity))
  have hlog := log2_natAbs hlow hhigh
  have hvalue := floatValue_intToFloat mode hne
  have hround := roundsTo_roundQuotient (isNegative w) w.toInt.natAbs (Nat.two_pow_pos (e - 23)) mode
  rw [hlog, significand_eq_roundQuotient mode _ _ he] at hvalue
  rw [signedInt_isNegative, Nat.cast_pow, Nat.cast_ofNat] at hround
  refine ⟨_, hround, hvalue.trans ?_⟩
  have hpow : (2 : ℚ) ^ e = 2 ^ (e - 23) * 2 ^ 23 := by rw [← pow_add, Nat.sub_add_cancel he]
  rw [hpow]
  field_simp

/-- Up to magnitude 2^24 the value is the integer itself: fewer than 25 bits are shifted up, and 2^24 rounds to itself. -/
theorem intToFloat_exact (mode : Rounding) {w : Word} (h : |w.toInt| ≤ 2 ^ 24) :
    floatValue false (intToFloat mode w) = w.toInt := by
  by_cases hzero : w.toInt = 0
  · rw [intToFloat_zero mode hzero, hzero]
    simp [floatValue]
  rcases h.lt_or_eq with hlt | heq
  · have hm : w.toInt.natAbs ≠ 0 := Int.natAbs_ne_zero.2 hzero
    have hlog : Nat.log2 w.toInt.natAbs ≤ 23 := by
      rw [Int.abs_eq_natAbs] at hlt
      exact Nat.le_of_lt_succ ((Nat.log2_lt hm).2 (by exact_mod_cast hlt))
    have hpow : (2 : ℚ) ^ 23 = 2 ^ (23 - Nat.log2 w.toInt.natAbs) * 2 ^ Nat.log2 w.toInt.natAbs := by
      rw [← pow_add, Nat.sub_add_cancel hlog]
    have hsigned : ∀ (neg : Bool) (m k : Nat), (signedInt neg (m * 2 ^ k) : ℚ) = signedInt neg m * 2 ^ k := by
      intro neg m k
      cases neg <;> simp [signedInt]
    rw [floatValue_intToFloat mode hzero, significand, if_pos hlog, hsigned, signedInt_isNegative, mul_assoc, ← hpow]
    field_simp
  · obtain ⟨m, hround, hvalue⟩ := intToFloat_rounds mode (w := w) (e := 24) (by decide) heq.ge (by rw [heq]; decide)
    obtain ⟨k, hk⟩ : (2 : Int) ∣ w.toInt := by
      rcases abs_choice w.toInt with h | h <;> omega
    have hhalf : (w.toInt : ℚ) / 2 ^ (24 - 23) = (k : Int) := by rw [hk]; push_cast; ring
    rw [hhalf] at hround
    rw [hvalue, hround.eq_of_int, ← hhalf]
    ring

/-- Settles O44: the row, and `intToFloat`, which is finite, exact up to 2^24 and rounded beyond. -/
theorem cvtSWResult : Obligations.CvtSWResult := by
  refine ⟨.of_encode (fun _ => rfl) (fun _ => rfl) (encodeR_fmt_zero_ft_eq_iff 0b010001#6 0b00000#5 0b100000#6), ?_⟩
  rintro fs fd s n rfl
  obtain ⟨t, hexec, hwrites⟩ : ∃ t, exec (.cvtSW fs fd) s = .next t ∧
      Writes s t fd (intToFloat s.params.cvtSWRound (s.gpr fs)) := completes_of_writeBack rfl rfl
  have hfinite : ¬FloatIsNan (intToFloat s.params.cvtSWRound (s.gpr fs)) ∧
      ¬FloatIsInf (intToFloat s.params.cvtSWRound (s.gpr fs)) := by
    by_cases hzero : (s.gpr fs).toInt = 0
    · rw [intToFloat_zero _ hzero]
      exact ⟨fun h => absurd h.1 (by decide), fun h => absurd h.1 (by decide)⟩
    · exact not_special_of_finite (fval_intToFloat false _ hzero)
  exact ⟨t, _, hexec, hwrites, hfinite.1, hfinite.2, intToFloat_zero _, intToFloat_exact _,
    fun e he hlow hhigh => intToFloat_rounds _ he hlow hhigh⟩

end Sys2Proof.Machine
end
